-- ==== Sys2Proof/Word.lean ====
section
/-! DEFINITION. The word types of LF-X25519: limb words of `W` = 32 bits (spec/00_scope.md R6, R8), bytes, and the fixed-size
sequences built of them (spec/10_state.md R20, R21, R24 to R27). Only types stand here. -/

namespace Sys2Proof

/-- A word: an unsigned 32-bit number whose `+`, `-`, `*` wrap modulo 2^32 (00_scope.md R8, 40_field_arith.md R135). -/
abbrev Word := BitVec 32

/-- A byte of one of the 32-byte registers (10_state.md R24 to R27). -/
abbrev Byte := BitVec 8

/-- The content of a field-element register: 32 limbs, limb 0 lowest (10_state.md R20, 40_field_arith.md R120). -/
abbrev Fe := Vector Word 32

/-- The content of a pair register: 64 limbs, X half first (10_state.md R21). -/
abbrev Pair := Vector Word 64

/-- The content of `N`, `E`, `PT` or `Q`: 32 bytes, little-endian (10_state.md R24 to R27, 00_scope.md R7). -/
abbrev Bytes32 := Vector Byte 32

end Sys2Proof
end

