-- ==== Sys2Proof/Config.lean ====
section
/-! DEFINITION. The parameters of LF-X25519 (spec/00_scope.md R5, R6) and the one free value of the model, the hash that the
host procedure `agree` applies outside the block (spec/93_implementation_defined.md I7). The open parameters `LAT`, `BUS` and
`RST` are used by no rule and stand nowhere in the model (notes/assumptions/9.md). -/

namespace Sys2Proof

/-- The field prime `P` = 2^255 - 19 (00_scope.md R5). -/
def Config.P : Nat := 2 ^ 255 - 19

/-- The number of ladder steps (00_scope.md R5 `NSTEP`, 42_ladder.md R176). -/
def Config.nStep : Nat := 255

/-- The curve constant (A-2)/4 = 121665 (00_scope.md R5 `A24`). -/
def Config.a24 : Word := 121665

/-- The multiplier of what lies above bit 255 (00_scope.md R5 `FOLD`). -/
def Config.fold : Word := 19

/-- The multiplier of the high half of a product (00_scope.md R5 `FOLD2`). -/
def Config.fold2 : Word := 38

/-- The base point's X-coordinate (00_scope.md R5 `BASE_X`). -/
def Config.baseX : Byte := 9

/-- The initial carry of `Sub`, the lowest part of the bias 2·`P` (40_field_arith.md R122). -/
def Config.biasCarry : Word := 218

/-- What `Sub` adds at each of limbs 0..30, the rest of the bias 2·`P` (40_field_arith.md R122). -/
def Config.biasLimb : Word := 65280

/-- The constant `MINUSP`: limb 0 = 19, limbs 1..30 = 0, limb 31 = 128 (40_field_arith.md R122). -/
def Config.minusP : Fe := .ofFn fun j => if j = 0 then 19 else if j = 31 then 128 else 0

/-- FREE VALUE (notes/assumptions/10.md). The collaborator's hash with its 48-byte digest, which no document names
(44_scalarmult.md R209, 93_implementation_defined.md I7): an uninterpreted function, used by no command. -/
opaque Config.hash48 : Bytes32 → Vector Byte 48

end Sys2Proof
end

