-- ==== Sys2Proof/Syntax.lean ====
section
/-! DEFINITION. The commands of LF-X25519: one constructor per row of spec/opcode_table.json (spec/30_encoding.md R98). -/

namespace Sys2Proof

/-- The number of a field-element register, 0..31 (30_encoding.md R92, R97). -/
abbrev FReg := Fin 32

/-- The number of a pair register, 0..15 (30_encoding.md R96, R97). -/
abbrev PReg := Fin 16

/-- The 22 commands with their operands, destination first (30_encoding.md R98, R105). -/
inductive Instr where
  /-- `NOP`, format `Z`, 45_move_control.md R224. -/
  | nop
  /-- `WIPE`, format `Z`, 45_move_control.md R225. -/
  | wipe
  /-- `CLRCNT`, format `Z`, 45_move_control.md R226. -/
  | clrcnt
  /-- `ADD Fd, Fa, Fb`, format `R3`, 40_field_arith.md R124. -/
  | add (rd ra rb : FReg)
  /-- `SUB Fd, Fa, Fb`, format `R3`, 40_field_arith.md R125. -/
  | sub (rd ra rb : FReg)
  /-- `MUL Fd, Fa, Fb`, format `R3`, 40_field_arith.md R127. -/
  | mul (rd ra rb : FReg)
  /-- `SQR Fd, Fa`, format `R2`, 40_field_arith.md R128. -/
  | sqr (rd ra : FReg)
  /-- `MULC Fd, Fa`, format `R2`, 40_field_arith.md R129. -/
  | mulc (rd ra : FReg)
  /-- `SQZ Fd`, format `R1`, 40_field_arith.md R126. -/
  | sqz (rd : FReg)
  /-- `FRZ Fd`, format `R1`, 40_field_arith.md R130. -/
  | frz (rd : FReg)
  /-- `MOV Fd, Fa`, format `R2`, 45_move_control.md R220. -/
  | mov (rd ra : FReg)
  /-- `SETC Fd, #v`, format `RI`, 45_move_control.md R221. -/
  | setc (rd : FReg) (imm : Byte)
  /-- `LDPT Fd`, format `R1`, 44_scalarmult.md R200. -/
  | ldpt (rd : FReg)
  /-- `STQ Fa`, the source in the `RD` field, format `R1`, 44_scalarmult.md R201. -/
  | stq (ra : FReg)
  /-- `SEL PRp, PRq, PRr, PRs, #b`, format `PS`, 41_select.md R160. -/
  | sel (pd qd pr ps : PReg) (b : Bool)
  /-- `CLAMP`, format `Z`, 42_ladder.md R170. -/
  | clamp
  /-- `LINIT`, format `Z`, 42_ladder.md R172. -/
  | linit
  /-- `LSTEP`, format `Z`, 42_ladder.md R174. -/
  | lstep
  /-- `LADDER`, format `Z`, 42_ladder.md R176. -/
  | ladder
  /-- `RECIP Fd, Fa`, format `R2`, 43_recip.md R190. -/
  | recip (rd ra : FReg)
  /-- `SMULT`, format `Z`, 44_scalarmult.md R204. -/
  | smult
  /-- `SMULTB`, format `Z`, 44_scalarmult.md R205. -/
  | smultb
  deriving DecidableEq, Repr

end Sys2Proof
end

