-- ==== Sys2Proof/WellFormed.lean ====
section
/-! DEFINITION. The operand restrictions of spec/30_encoding.md R101: exactly two. A field's range needs no check, since the
operand types of `Instr` hold exactly the values a field can have (R92 to R97). -/

namespace Sys2Proof

/-- `r` is one of the scratch registers F4..F13 of `RECIP` (43_recip.md R190, R191). -/
def inRecipScratch (r : FReg) : Bool := 4 ≤ r.val && r.val ≤ 13

/-- The operands are a combination the command's rule allows: `SEL` needs `PD` ≠ `QD` (41_select.md R161), `RECIP` needs `RD`
and `RA` outside 4..13 (43_recip.md R191), and nothing else is restricted (30_encoding.md R101). -/
def wellFormed : Instr → Bool
  | .sel pd qd _ _ _ => pd != qd
  | .recip rd ra => !inRecipScratch rd && !inRecipScratch ra
  | .nop => true
  | .wipe => true
  | .clrcnt => true
  | .add _ _ _ => true
  | .sub _ _ _ => true
  | .mul _ _ _ => true
  | .sqr _ _ => true
  | .mulc _ _ => true
  | .sqz _ => true
  | .frz _ => true
  | .mov _ _ => true
  | .setc _ _ => true
  | .ldpt _ => true
  | .stq _ => true
  | .clamp => true
  | .linit => true
  | .lstep => true
  | .ladder => true
  | .smult => true
  | .smultb => true

end Sys2Proof
end

