-- ==== Sys2Proof/Decode.lean ====
section
/-! DEFINITION. The encoding of LF-X25519's commands (spec/30_encoding.md R90 to R102): the opcode map with its match and mask
words, the decoder, total on every 32-bit word and rejecting by name, and the encoder. -/

namespace Sys2Proof

/-- The six formats (30_encoding.md R91 to R96). -/
inductive Format where
  | z | r3 | r2 | r1 | ri | ps
  deriving DecidableEq, Repr

/-- The 22 rows of the opcode map, without operands (30_encoding.md R98). -/
inductive Opcode where
  | nop | wipe | clrcnt | add | sub | mul | sqr | mulc | sqz | frz | mov | setc | ldpt | stq | sel
  | clamp | linit | lstep | ladder | recip | smult | smultb
  deriving DecidableEq, Repr

/-- What decoding a word gives (30_encoding.md R99, R100): a command, or the name of why the word is illegal. -/
inductive Decoded where
  /-- The word matches exactly one row. -/
  | instr (i : Instr)
  /-- Bits 31:24 are none of the 22 opcodes. -/
  | unusedOpcode (opc : Byte)
  /-- The opcode is listed, and a zero field of its format holds a non-zero bit. -/
  | reservedBits (o : Opcode)
  deriving DecidableEq, Repr

/-- The rows in the table's order (30_encoding.md R98). -/
def Opcode.all : List Opcode :=
  [.nop, .wipe, .clrcnt, .add, .sub, .mul, .sqr, .mulc, .sqz, .frz, .mov, .setc, .ldpt, .stq, .sel,
   .clamp, .linit, .lstep, .ladder, .recip, .smult, .smultb]

/-- `OPC` (30_encoding.md R98). -/
def Opcode.code : Opcode → Byte
  | .nop => 0x01
  | .wipe => 0x02
  | .clrcnt => 0x03
  | .add => 0x10
  | .sub => 0x11
  | .mul => 0x12
  | .sqr => 0x13
  | .mulc => 0x14
  | .sqz => 0x15
  | .frz => 0x16
  | .mov => 0x20
  | .setc => 0x21
  | .ldpt => 0x22
  | .stq => 0x23
  | .sel => 0x30
  | .clamp => 0x40
  | .linit => 0x41
  | .lstep => 0x42
  | .ladder => 0x43
  | .recip => 0x50
  | .smult => 0x60
  | .smultb => 0x61

/-- The format is a function of the opcode alone (30_encoding.md R90, R98). -/
def Opcode.format : Opcode → Format
  | .nop => .z
  | .wipe => .z
  | .clrcnt => .z
  | .add => .r3
  | .sub => .r3
  | .mul => .r3
  | .sqr => .r2
  | .mulc => .r2
  | .sqz => .r1
  | .frz => .r1
  | .mov => .r2
  | .setc => .ri
  | .ldpt => .r1
  | .stq => .r1
  | .sel => .ps
  | .clamp => .z
  | .linit => .z
  | .lstep => .z
  | .ladder => .z
  | .recip => .r2
  | .smult => .z
  | .smultb => .z

/-- The `match` column of the opcode map, as printed (30_encoding.md R98). -/
def Opcode.matchWord : Opcode → Word
  | .nop => 0x01000000
  | .wipe => 0x02000000
  | .clrcnt => 0x03000000
  | .add => 0x10000000
  | .sub => 0x11000000
  | .mul => 0x12000000
  | .sqr => 0x13000000
  | .mulc => 0x14000000
  | .sqz => 0x15000000
  | .frz => 0x16000000
  | .mov => 0x20000000
  | .setc => 0x21000000
  | .ldpt => 0x22000000
  | .stq => 0x23000000
  | .sel => 0x30000000
  | .clamp => 0x40000000
  | .linit => 0x41000000
  | .lstep => 0x42000000
  | .ladder => 0x43000000
  | .recip => 0x50000000
  | .smult => 0x60000000
  | .smultb => 0x61000000

/-- The `mask` column of the opcode map, as printed (30_encoding.md R98). -/
def Opcode.mask : Opcode → Word
  | .nop => 0xFFFFFFFF
  | .wipe => 0xFFFFFFFF
  | .clrcnt => 0xFFFFFFFF
  | .add => 0xFF0001FF
  | .sub => 0xFF0001FF
  | .mul => 0xFF0001FF
  | .sqr => 0xFF003FFF
  | .mulc => 0xFF003FFF
  | .sqz => 0xFF07FFFF
  | .frz => 0xFF07FFFF
  | .mov => 0xFF003FFF
  | .setc => 0xFF07FF00
  | .ldpt => 0xFF07FFFF
  | .stq => 0xFF07FFFF
  | .sel => 0xFF0000FE
  | .clamp => 0xFFFFFFFF
  | .linit => 0xFFFFFFFF
  | .lstep => 0xFFFFFFFF
  | .ladder => 0xFFFFFFFF
  | .recip => 0xFF003FFF
  | .smult => 0xFFFFFFFF
  | .smultb => 0xFFFFFFFF

/-- `w` is the command of row `o` when `(w & mask) == match` (30_encoding.md R98). -/
def matchesRow (o : Opcode) (w : Word) : Bool := w &&& o.mask == o.matchWord

/-- The slice `w[hi:lo]` of a word, given by its lowest bit and its length (00_scope.md R7). -/
def slice (lo len : Nat) (w : Word) : BitVec len := w.extractLsb' lo len

/-- The 5-bit register field at bit `lo` (30_encoding.md R97). -/
def fregAt (lo : Nat) (w : Word) : FReg := (slice lo 5 w).toFin

/-- The 4-bit pair-register field at bit `lo` (30_encoding.md R97). -/
def pregAt (lo : Nat) (w : Word) : PReg := (slice lo 4 w).toFin

/-- The row whose opcode is `c`, if there is one (30_encoding.md R90, R98). -/
def opcodeOf (c : Byte) : Option Opcode := Opcode.all.find? fun o => o.code == c

/-- Every zero field of the format holds zero (30_encoding.md R91 to R96). -/
def zeroFieldsClear (w : Word) : Format → Bool
  | .z => slice 0 24 w == 0
  | .r3 => slice 0 9 w == 0
  | .r2 => slice 0 14 w == 0
  | .r1 => slice 0 19 w == 0
  | .ri => slice 8 11 w == 0
  | .ps => slice 1 7 w == 0

/-- The command of row `o` with the operands the word's fields give (30_encoding.md R91 to R97). -/
def assemble (o : Opcode) (w : Word) : Instr :=
  match o with
  | .nop => .nop
  | .wipe => .wipe
  | .clrcnt => .clrcnt
  | .add => .add (fregAt 19 w) (fregAt 14 w) (fregAt 9 w)
  | .sub => .sub (fregAt 19 w) (fregAt 14 w) (fregAt 9 w)
  | .mul => .mul (fregAt 19 w) (fregAt 14 w) (fregAt 9 w)
  | .sqr => .sqr (fregAt 19 w) (fregAt 14 w)
  | .mulc => .mulc (fregAt 19 w) (fregAt 14 w)
  | .sqz => .sqz (fregAt 19 w)
  | .frz => .frz (fregAt 19 w)
  | .mov => .mov (fregAt 19 w) (fregAt 14 w)
  | .setc => .setc (fregAt 19 w) (slice 0 8 w)
  | .ldpt => .ldpt (fregAt 19 w)
  | .stq => .stq (fregAt 19 w)
  | .sel => .sel (pregAt 20 w) (pregAt 16 w) (pregAt 12 w) (pregAt 8 w) (slice 0 1 w == 1)
  | .clamp => .clamp
  | .linit => .linit
  | .lstep => .lstep
  | .ladder => .ladder
  | .recip => .recip (fregAt 19 w) (fregAt 14 w)
  | .smult => .smult
  | .smultb => .smultb

/-- The decoder, total and dependent on the word alone (30_encoding.md R99, R100). -/
def decode (w : Word) : Decoded :=
  match opcodeOf (slice 24 8 w) with
  | none => .unusedOpcode (slice 24 8 w)
  | some o => if zeroFieldsClear w o.format then .instr (assemble o w) else .reservedBits o

/-- The row of a command (30_encoding.md R98). -/
def opcode : Instr → Opcode
  | .nop => .nop
  | .wipe => .wipe
  | .clrcnt => .clrcnt
  | .add _ _ _ => .add
  | .sub _ _ _ => .sub
  | .mul _ _ _ => .mul
  | .sqr _ _ => .sqr
  | .mulc _ _ => .mulc
  | .sqz _ => .sqz
  | .frz _ => .frz
  | .mov _ _ => .mov
  | .setc _ _ => .setc
  | .ldpt _ => .ldpt
  | .stq _ => .stq
  | .sel _ _ _ _ _ => .sel
  | .clamp => .clamp
  | .linit => .linit
  | .lstep => .lstep
  | .ladder => .ladder
  | .recip _ _ => .recip
  | .smult => .smult
  | .smultb => .smultb

/-- Bits 23:0 of a command word: the operand fields at the places their format gives them (30_encoding.md R91 to R96). -/
def operandBits : Instr → Nat
  | .nop => 0
  | .wipe => 0
  | .clrcnt => 0
  | .add rd ra rb => rd.val * 2 ^ 19 + ra.val * 2 ^ 14 + rb.val * 2 ^ 9
  | .sub rd ra rb => rd.val * 2 ^ 19 + ra.val * 2 ^ 14 + rb.val * 2 ^ 9
  | .mul rd ra rb => rd.val * 2 ^ 19 + ra.val * 2 ^ 14 + rb.val * 2 ^ 9
  | .sqr rd ra => rd.val * 2 ^ 19 + ra.val * 2 ^ 14
  | .mulc rd ra => rd.val * 2 ^ 19 + ra.val * 2 ^ 14
  | .sqz rd => rd.val * 2 ^ 19
  | .frz rd => rd.val * 2 ^ 19
  | .mov rd ra => rd.val * 2 ^ 19 + ra.val * 2 ^ 14
  | .setc rd imm => rd.val * 2 ^ 19 + imm.toNat
  | .ldpt rd => rd.val * 2 ^ 19
  | .stq ra => ra.val * 2 ^ 19
  | .sel pd qd pr ps b => pd.val * 2 ^ 20 + qd.val * 2 ^ 16 + pr.val * 2 ^ 12 + ps.val * 2 ^ 8 + b.toNat
  | .clamp => 0
  | .linit => 0
  | .lstep => 0
  | .ladder => 0
  | .recip rd ra => rd.val * 2 ^ 19 + ra.val * 2 ^ 14
  | .smult => 0
  | .smultb => 0

/-- The encoder: `OPC` in bits 31:24 and the operand fields below (30_encoding.md R90 to R98). -/
def encode (i : Instr) : Word := BitVec.ofNat 32 ((opcode i).code.toNat * 2 ^ 24 + operandBits i)

/-- What the decoder reads from a command whose low `nbits` bits are `w` and whose other bits are zero. A command is one 32-bit
word (30_encoding.md R90, R102) that the host writes whole, so there is no byte order to choose (20_memory.md R62). -/
def decodeTableWord (nbits w : Nat) : Option Instr :=
  match decode (BitVec.ofNat 32 (w % 2 ^ nbits)) with
  | .instr i => if w % 2 ^ nbits < 2 ^ 32 then some i else none
  | .unusedOpcode _ => none
  | .reservedBits _ => none

/-! The pseudo-instructions of 30_encoding.md R106, each exactly one command. -/

/-- `ZERO Fd` is `SETC Fd, #0`. -/
def pseudoZero (rd : FReg) : Instr := .setc rd 0

/-- `ONE Fd` is `SETC Fd, #1`. -/
def pseudoOne (rd : FReg) : Instr := .setc rd 1

/-- `INV Fd` is `RECIP Fd, Fd`. -/
def pseudoInv (rd : FReg) : Instr := .recip rd rd

/-- `CSWAP PRp, PRq, #b` is `SEL PRp, PRq, PRp, PRq, #b`. -/
def pseudoCswap (p q : PReg) (b : Bool) : Instr := .sel p q p q b

/-- `X25519` is `SMULT`. -/
def pseudoX25519 : Instr := .smult

end Sys2Proof
end

