-- ==== Sys2Proof/Machine/State.lean ====
section
/-! DEFINITION. The state of LF-X25519 (spec/10_state.md R20 to R46), the state after reset (R55), and the reasons a step can
stop. All of it is plain data. -/

namespace Sys2Proof.Machine

/-- The recorded error, `STATUS.ERR` (60_exceptions.md R240). Codes 6 to 15 are never recorded (R240,
93_implementation_defined.md I12). -/
inductive ErrCode where
  /-- 0, no error. -/
  | none
  /-- 1, `E_ILLCMD`: the word offered matches no row. -/
  | illCmd
  /-- 2, `E_OPERAND`: the word offered names operands its rule forbids. -/
  | operand
  /-- 3, `E_BUSY`: an access not allowed while `BUSY` = 1. -/
  | busy
  /-- 4, `E_LADDER`: `LSTEP` offered with `POS` = 255. -/
  | ladder
  /-- 5, `E_ADDR`: an access to no slot, or in a direction the slot does not have. -/
  | addr
  deriving DecidableEq, Repr

/-- What takes the next step, as the outside world orders it (20_memory.md R68, R69; 70_reset_and_hazards.md R281). -/
inductive Input where
  /-- A host step `HostRead(off)`. -/
  | hostRead (off : Word)
  /-- A host step `HostWrite(off, v)`. -/
  | hostWrite (off v : Word)
  /-- The core's turn: the core step when `BUSY` = 1, nothing when `BUSY` = 0. -/
  | coreTurn
  /-- Reset is asserted. -/
  | reset
  deriving DecidableEq, Repr

/-- The state of the block, and two fields of the model's own (`inputs`, `replies`) that stand for the host's port. -/
structure State where
  /-- `F[0]`..`F[31]` (10_state.md R20). -/
  f : Vector Fe 32
  /-- `N`, the scalar as the host gave it (R24). -/
  n : Bytes32
  /-- `E`, the clamped scalar (R25). -/
  e : Bytes32
  /-- `PT`, the point (R26). -/
  pt : Bytes32
  /-- `Q`, the result (R27). -/
  q : Bytes32
  /-- `POS`, the index of the next scalar bit, 255 when no ladder is in progress (R31). -/
  pos : Byte
  /-- `CMDR`, the last command word accepted (R32). -/
  cmdr : Word
  /-- `STATUS.BUSY` (R40). -/
  busy : Bool
  /-- `STATUS.DONE` (R40). -/
  done : Bool
  /-- `STATUS.ERR` (R40). -/
  err : ErrCode
  /-- `ERRINFO` (R45). -/
  errInfo : Word
  /-- `CTRL`: bit 0 `DONE_IE`, bit 1 `ERR_IE` (R41). -/
  ctrl : BitVec 2
  /-- `CNT[0]`..`CNT[8]` (R46). -/
  cnt : Vector Word 9
  /-- THE MODEL'S OWN (notes/assumptions/1.md): the steps the outside world still asks for, the next one first. -/
  inputs : List Input
  /-- THE MODEL'S OWN (notes/assumptions/3.md): the words `HostRead` has returned, the oldest first. -/
  replies : List Word
  deriving DecidableEq, Repr

/-- Why a step stops. -/
inductive Fault where
  /-- Raised by the core step when `BUSY` = 1 and `CMDR` holds a word that matches no row of 30_encoding.md R98. Acceptance
  latches only commands (60_exceptions.md R244), so no run reaches it. SAFE: the model stops (notes/assumptions/5.md). -/
  | latchedWordIllegal
  deriving DecidableEq, Repr

/-- Why a step has no meaning. -/
inductive Refusal where
  /-- Raised by an arm of `exec` for an instruction that has no meaning yet. No arm raises it. SAFE. -/
  | notModelled (mnemonic : String)
  deriving DecidableEq, Repr

/-- The state after reset (10_state.md R55, 70_reset_and_hazards.md R280), with nothing asked of the block yet. -/
def State.reset : State where
  f := .replicate 32 (.replicate 32 0)
  n := .replicate 32 0
  e := .replicate 32 0
  pt := .replicate 32 0
  q := .replicate 32 0
  pos := 255
  cmdr := 0
  busy := false
  done := false
  err := .none
  errInfo := 0
  ctrl := 0
  cnt := .replicate 9 0
  inputs := []
  replies := []

end Sys2Proof.Machine
end

