-- ==== Sys2Proof/Machine/Ops.lean ====
section
/-! DEFINITION. The named operations on the state: reading and writing a register (spec/10_state.md R20 to R27), counting
(R46), recording an error, which is this block's taking of an exception (spec/60_exceptions.md R246), acknowledging it, which
is its return (R251), accepting a command (R244), completing one (spec/20_memory.md R68), and reset (R281). -/

namespace Sys2Proof.Machine

/-- `F[r]` (00_scope.md R9). -/
def State.getF (s : State) (r : FReg) : Fe := s.f[r]

/-- `F[r] <- v` (00_scope.md R9). -/
def State.setF (s : State) (r : FReg) (v : Fe) : State := { s with f := s.f.set r v }

/-- `E <- v` (10_state.md R25). -/
def State.setE (s : State) (v : Bytes32) : State := { s with e := v }

/-- `Q <- v` (10_state.md R27). -/
def State.setQ (s : State) (v : Bytes32) : State := { s with q := v }

/-- `POS <- v` (10_state.md R31). -/
def State.setPos (s : State) (v : Byte) : State := { s with pos := v }

/-- The limbs `F[2k]`, then `F[2k+1]`: the pair register `PR[k]` (10_state.md R21, 00_scope.md R9). -/
def State.getPair (s : State) (k : PReg) : Pair :=
  .ofFn fun j => if h : j.val < 32 then (s.f[2 * k.val])[j.val] else (s.f[2 * k.val + 1])[j.val - 32]

/-- `PR[k] <- v`: both halves are written (10_state.md R21, 00_scope.md R9). -/
def State.setPair (s : State) (k : PReg) (v : Pair) : State :=
  { s with f := (s.f.set (2 * k.val) (.ofFn fun j => v[j.val])).set (2 * k.val + 1) (.ofFn fun j => v[j.val + 32]) }

/-- The nine operation counters (10_state.md R46). -/
inductive Counter where
  | add | sub | mul | sqr | mulc | sqz | frz | sel | lstep
  deriving DecidableEq, Repr

/-- The counter's number `k` (10_state.md R46). -/
def Counter.index : Counter → Fin 9
  | .add => 0
  | .sub => 1
  | .mul => 2
  | .sqr => 3
  | .mulc => 4
  | .sqz => 5
  | .frz => 6
  | .sel => 7
  | .lstep => 8

/-- One more execution is counted, modulo 2^32 (10_state.md R46). -/
def State.count (s : State) (c : Counter) : State :=
  { s with cnt := s.cnt.set c.index (s.cnt[c.index] + 1) }

/-- All nine counters zero (45_move_control.md R226). -/
def State.clearCounters (s : State) : State := { s with cnt := .replicate 9 0 }

/-- Every data register zero and no ladder in progress (45_move_control.md R225). -/
def State.wipe (s : State) : State :=
  { s with
    f := .replicate 32 (.replicate 32 0)
    n := .replicate 32 0
    e := .replicate 32 0
    pt := .replicate 32 0
    q := .replicate 32 0
    pos := 255 }

/-- `raise E_X(info)`: the first error is recorded with its information word, a later one is lost, and nothing else happens
(60_exceptions.md R246). -/
def State.raise (s : State) (c : ErrCode) (info : Word) : State :=
  { s with
    err := if s.err = .none then c else s.err
    errInfo := if s.err = .none then info else s.errInfo }

/-- `HostWrite` to `ACK`, the whole of this block's return from an error: bit 0 clears `DONE`, bit 1 clears `ERR` and
`ERRINFO`, the other bits are ignored (10_state.md R42, 60_exceptions.md R251). -/
def State.acknowledge (s : State) (v : Word) : State :=
  { s with
    done := if v.getLsbD 0 then false else s.done
    err := if v.getLsbD 1 then .none else s.err
    errInfo := if v.getLsbD 1 then 0 else s.errInfo }

/-- A command is accepted (60_exceptions.md R244, last line). -/
def State.accept (s : State) (w : Word) : State := { s with cmdr := w, busy := true, done := false }

/-- The end of a core step, after the data effect (20_memory.md R68). -/
def State.complete (s : State) : State := { s with busy := false, done := true }

/-- Reset, whatever the state before (70_reset_and_hazards.md R280, R281). What the outside world still asks for and what it
has already been told are not the block's state and stay (notes/assumptions/4.md). -/
def State.applyReset (s : State) : State := { State.reset with inputs := s.inputs, replies := s.replies }

end Sys2Proof.Machine
end

