-- ==== Sys2Proof/Machine/Control.lean ====
section
/-! DEFINITION. The control commands NOP, WIPE, CLRCNT (spec/45_move_control.md R224 to R226). -/

namespace Sys2Proof.Machine

/-- `NOP`: no data effect (45_move_control.md R224). -/
def execNop (s : State) : Host.Outcome State Fault Refusal := .next s

/-- `WIPE`: every data register zero, `POS` 255, nothing else (45_move_control.md R225). -/
def execWipe (s : State) : Host.Outcome State Fault Refusal := .next s.wipe

/-- `CLRCNT`: every counter zero, nothing else (45_move_control.md R226). -/
def execClrcnt (s : State) : Host.Outcome State Fault Refusal := .next s.clearCounters

end Sys2Proof.Machine
end

