-- ==== Sys2Proof/Machine/Operands.lean ====
section
/-! DEFINITION. The operand forms of LF-X25519 (spec/30_encoding.md R97, spec/00_scope.md R9): words made from bytes and bits,
bytes made from words, the scalar bit of a ladder step (spec/42_ladder.md R173), and the names of the registers the macro
commands use (spec/10_state.md R22). -/

namespace Sys2Proof.Machine

/-- `zext_32(b)` (00_scope.md R9). -/
def zext32 (b : Byte) : Word := b.setWidth 32

/-- `trunc_8(w)` = `w & 255` (00_scope.md R9). -/
def trunc8 (w : Word) : Byte := w.setWidth 8

/-- The select bit `B` as the word 0 or 1 (30_encoding.md R97). -/
def bitWord (b : Bool) : Word := if b then 1 else 0

/-- `IMM8` as a field element: limb 0 the immediate, the other limbs zero (30_encoding.md R97, 45_move_control.md R221). -/
def immFe (imm : Byte) : Fe := .ofFn fun j => if j = 0 then zext32 imm else 0

/-- A byte register as a field element, byte `j` to limb `j` (44_scalarmult.md R200). -/
def feOfBytes (b : Bytes32) : Fe := .ofFn fun j => zext32 b[j]

/-- A field element's low bytes, limb `j` to byte `j` (44_scalarmult.md R201). -/
def bytesOfFe (a : Fe) : Bytes32 := .ofFn fun j => trunc8 a[j]

/-- Bit `i & 7` of byte `i >> 3`: bit `i` of the scalar `E` (42_ladder.md R173). -/
def scalarBit (e : Bytes32) (i : Byte) : Bool :=
  (e[(i >>> 3).toNat]'(by
    have h := i.isLt
    rw [BitVec.toNat_ushiftRight, Nat.shiftRight_eq_div_pow]
    omega)).getLsbD (i &&& 7).toNat

/-! The fixed registers of the macro commands (10_state.md R22). -/

def rWX : FReg := 0
def rWZ : FReg := 1
def rWQ : FReg := 2
def pXZM : PReg := 2
def rXZMx : FReg := 4
def rXZMz : FReg := 5
def pXZM1 : PReg := 3
def rXZM1x : FReg := 6
def rXZM1z : FReg := 7
def pXZMB : PReg := 4
def rXZMBx : FReg := 8
def rXZMBz : FReg := 9
def pXZM1B : PReg := 5
def rXZM1Bx : FReg := 10
def rXZM1Bz : FReg := 11
def pXZNB : PReg := 6
def rXZNBx : FReg := 12
def rXZNBz : FReg := 13
def pXZN1B : PReg := 7
def rXZN1Bx : FReg := 14
def rXZN1Bz : FReg := 15
def rA0x : FReg := 16
def rA0z : FReg := 17
def rA1x : FReg := 18
def rA1z : FReg := 19
def rB0x : FReg := 20
def rB0z : FReg := 21
def rB1x : FReg := 22
def rB1z : FReg := 23
def rC1x : FReg := 24
def rC1z : FReg := 25
def rR : FReg := 26
def rS : FReg := 27
def rT : FReg := 28
def rU : FReg := 29

/-! The scratch registers of `RECIP` (43_recip.md R190). -/

def rZ2 : FReg := 4
def rZ9 : FReg := 5
def rZ11 : FReg := 6
def rZ5 : FReg := 7
def rZ10 : FReg := 8
def rZ20 : FReg := 9
def rZ50 : FReg := 10
def rZ100 : FReg := 11
def rT0 : FReg := 12
def rT1 : FReg := 13

end Sys2Proof.Machine
end

