-- ==== Sys2Proof/Machine/Flags.lean ====
section
/-! DEFINITION. LF-X25519 has no arithmetic flags (spec/10_state.md R35). The two one-bit conditions a primitive evaluates as
masks, the select bit (spec/41_select.md R160) and the sign bit of freeze (spec/40_field_arith.md R130), stand here, with the
status word (spec/10_state.md R40) and the interrupt level (spec/60_exceptions.md R250), which are functions of the state. -/

namespace Sys2Proof.Machine

/-- `mask = b - 1`: all ones when `b` = 0, all zeros when `b` = 1 (41_select.md R160, 40_field_arith.md R135). -/
def selectMask (b : Bool) : Word := bitWord b - 1

/-- `neg = 0 - ((t >> 7) & 1)`: all ones when bit 7 of the top limb is 1, else 0 (40_field_arith.md R130). -/
def signMask (t : Word) : Word := 0 - ((t >>> 7) &&& 1)

/-- The number of an error in `STATUS.ERR` (60_exceptions.md R240). -/
def errNumber : ErrCode → BitVec 4
  | .none => 0
  | .illCmd => 1
  | .operand => 2
  | .busy => 3
  | .ladder => 4
  | .addr => 5

/-- The word `STATUS`: bit 0 `BUSY`, bit 1 `DONE`, bits 11:8 `ERR`, the rest zero (10_state.md R40). -/
def statusWord (s : State) : Word :=
  bitWord s.busy ||| (bitWord s.done <<< 1) ||| ((errNumber s.err).setWidth 32 <<< 8)

/-- `CTRL.DONE_IE` (10_state.md R41). -/
def doneIe (s : State) : Bool := s.ctrl.getLsbD 0

/-- `CTRL.ERR_IE` (10_state.md R41). -/
def errIe (s : State) : Bool := s.ctrl.getLsbD 1

/-- The interrupt output, a level (60_exceptions.md R250). -/
def irq (s : State) : Bool := (s.done && doneIe s) || (s.err != .none && errIe s)

end Sys2Proof.Machine
end

