-- ==== Sys2Proof/Machine/Field.lean ====
section
/-! DEFINITION. The field element functions of LF-X25519 as pure functions of limbs (spec/40_field_arith.md R120 to R130), the
select (spec/41_select.md R160) and the clamp (spec/42_ladder.md R170), and the value and the forms of a register (R120, R121).
All sums and products are words and wrap modulo 2^32 (R135). -/

namespace Sys2Proof.Machine

/-- The integer a list of limbs stands for, the lowest first. -/
def limbsValue : List Word → Nat
  | [] => 0
  | x :: xs => x.toNat + 256 * limbsValue xs

/-- `V(a)`, the integer a register stands for (40_field_arith.md R120). -/
def value (a : Fe) : Nat := limbsValue a.toList

/-- The integer of a 32-byte little-endian sequence (00_scope.md R7). -/
def bytesValue (b : Bytes32) : Nat := value (feOfBytes b)

/-- Byte form: every limb in [0,255] (40_field_arith.md R121). -/
abbrev ByteForm (a : Fe) : Prop := ∀ j : Fin 32, a[j].toNat ≤ 255

/-- Squeezed form: limbs 0..30 in [0,255], limb 31 in [0,128] (40_field_arith.md R121). -/
abbrev Squeezed (a : Fe) : Prop := ByteForm a ∧ a[31].toNat ≤ 128

/-- Canonical form: byte form and `V(a)` < `P` (40_field_arith.md R121). -/
abbrev Canonical (a : Fe) : Prop := ByteForm a ∧ value a < Config.P

/-- Every limb is at most `n`. -/
abbrev LimbsAtMost (n : Nat) (a : Fe) : Prop := ∀ j : Fin 32, a[j].toNat ≤ n

/-- One carry pass over a list of terms, from the carry `u`: each term is added to the carry, its low byte is kept and the rest
moves up, and the last limb takes the whole remaining sum. This is the loop that `Add`, `Sub`, `Squeeze` and `Mulc` share
(40_field_arith.md R124, R125, R126, R129). -/
def carryLimbs : Word → List Word → List Word
  | _, [] => []
  | u, [t] => [u + t]
  | u, t :: t' :: ts => ((u + t) &&& 255) :: carryLimbs ((u + t) >>> 8) (t' :: ts)

theorem carryLimbs_length (u : Word) (ts : List Word) : (carryLimbs u ts).length = ts.length := by
  induction u, ts using carryLimbs.induct <;> simp_all [carryLimbs]

/-- The carry pass over the 32 terms of a register. -/
def carryPass (u : Word) (t : Fe) : Fe := ⟨(carryLimbs u t.toList).toArray, by simp [carryLimbs_length]⟩

/-- The end of `Squeeze` and `Mulc`: what the first pass left above bit 255 is cut off and enters the second pass times 19
(40_field_arith.md R126, R129). -/
def foldTop (a : Fe) : Fe := carryPass (Config.fold * (a[31] >>> 7)) (a.set 31 (a[31] &&& 127))

/-- `Add(a, b)` (40_field_arith.md R124). -/
def feAdd (a b : Fe) : Fe := carryPass 0 (.ofFn fun j => a[j] + b[j])

/-- `Sub(a, b)` (40_field_arith.md R125). -/
def feSub (a b : Fe) : Fe :=
  carryPass Config.biasCarry (.ofFn fun j => if j.val = 31 then a[j] - b[j] else a[j] + Config.biasLimb - b[j])

/-- `Squeeze(a)` (40_field_arith.md R126). -/
def feSqueeze (a : Fe) : Fe := foldTop (carryPass 0 a)

/-- The term that limb `j` of `a` gives to accumulator `i` of the convolution: `a[j] * b[i - j]`, or the folded
`38 * a[j] * b[i + 32 - j]` when `j` > `i` (40_field_arith.md R127). -/
def convTerm (a b : Fe) (i j : Fin 32) : Word :=
  if h : j.val ≤ i.val then a[j] * b[i.val - j.val] else Config.fold2 * a[j] * b[i.val + 32 - j.val]

/-- Accumulator `c[i]` of the convolution (40_field_arith.md R127). -/
def convLimb (a b : Fe) (i : Fin 32) : Word := (List.finRange 32).foldl (fun u j => u + convTerm a b i j) 0

/-- `Mult(a, b)` (40_field_arith.md R127). -/
def feMult (a b : Fe) : Fe := feSqueeze (.ofFn fun i => convLimb a b i)

/-- `Square(a)` = `Mult(a, a)` (40_field_arith.md R128). -/
def feSquare (a : Fe) : Fe := feMult a a

/-- `Mulc(a)`: every limb times 121665 on the way into the first pass (40_field_arith.md R129). -/
def feMulc (a : Fe) : Fe := foldTop (carryPass 0 (.ofFn fun j => Config.a24 * a[j]))

/-- `Freeze(a)` before its last line: `a` where the sign mask is all ones, `a + MINUSP` where it is zero
(40_field_arith.md R130). -/
def freezeChoice (a : Fe) : Fe :=
  let t := feAdd a Config.minusP
  .ofFn fun j => t[j] ^^^ (signMask t[31] &&& (a[j] ^^^ t[j]))

/-- `Freeze(a)` (40_field_arith.md R130). -/
def feFreeze (a : Fe) : Fe := (freezeChoice a).set 31 ((freezeChoice a)[31] &&& 255)

/-- `Select(r, s, b)` (41_select.md R160). -/
def selectPairs (r s : Pair) (b : Bool) : Pair × Pair :=
  (.ofFn fun j => s[j] ^^^ (selectMask b &&& (r[j] ^^^ s[j])),
   .ofFn fun j => r[j] ^^^ (selectMask b &&& (r[j] ^^^ s[j])))

/-- `Clamp(n)` (42_ladder.md R170). -/
def clampScalar (n : Bytes32) : Bytes32 := (n.set 0 (n[0] &&& 248)).set 31 ((n[31] &&& 127) ||| 64)

end Sys2Proof.Machine
end

