-- ==== Sys2Proof/Machine/Arith.lean ====
section
/-! DEFINITION. The field arithmetic commands ADD, SUB, MUL, SQR, MULC, SQZ, FRZ (spec/40_field_arith.md R124 to R130). Each has
its data effect, which a macro command can perform as a sub-step (spec/00_scope.md R9 `exec`), and its meaning. Sources are
read in full before the destination is written (R10). -/

namespace Sys2Proof.Machine

/-- `F[RD] <- Add(F[RA], F[RB])`, counted in `CNT[0]` (40_field_arith.md R124). -/
def addEffect (rd ra rb : FReg) (s : State) : State := (s.setF rd (feAdd (s.getF ra) (s.getF rb))).count .add

/-- `F[RD] <- Sub(F[RA], F[RB])`, counted in `CNT[1]` (40_field_arith.md R125). -/
def subEffect (rd ra rb : FReg) (s : State) : State := (s.setF rd (feSub (s.getF ra) (s.getF rb))).count .sub

/-- `F[RD] <- Mult(F[RA], F[RB])`, counted in `CNT[2]` (40_field_arith.md R127). -/
def mulEffect (rd ra rb : FReg) (s : State) : State := (s.setF rd (feMult (s.getF ra) (s.getF rb))).count .mul

/-- `F[RD] <- Square(F[RA])`, counted in `CNT[3]` (40_field_arith.md R128). -/
def sqrEffect (rd ra : FReg) (s : State) : State := (s.setF rd (feSquare (s.getF ra))).count .sqr

/-- `F[RD] <- Mulc(F[RA])`, counted in `CNT[4]` (40_field_arith.md R129). -/
def mulcEffect (rd ra : FReg) (s : State) : State := (s.setF rd (feMulc (s.getF ra))).count .mulc

/-- `F[RD] <- Squeeze(F[RD])`, counted in `CNT[5]` (40_field_arith.md R126). -/
def sqzEffect (rd : FReg) (s : State) : State := (s.setF rd (feSqueeze (s.getF rd))).count .sqz

/-- `F[RD] <- Freeze(F[RD])`, counted in `CNT[6]` (40_field_arith.md R130). -/
def frzEffect (rd : FReg) (s : State) : State := (s.setF rd (feFreeze (s.getF rd))).count .frz

/-- `ADD Fd, Fa, Fb` (40_field_arith.md R124). -/
def execAdd (rd ra rb : FReg) (s : State) : Host.Outcome State Fault Refusal := .next (addEffect rd ra rb s)

/-- `SUB Fd, Fa, Fb` (40_field_arith.md R125). -/
def execSub (rd ra rb : FReg) (s : State) : Host.Outcome State Fault Refusal := .next (subEffect rd ra rb s)

/-- `MUL Fd, Fa, Fb` (40_field_arith.md R127). -/
def execMul (rd ra rb : FReg) (s : State) : Host.Outcome State Fault Refusal := .next (mulEffect rd ra rb s)

/-- `SQR Fd, Fa` (40_field_arith.md R128). -/
def execSqr (rd ra : FReg) (s : State) : Host.Outcome State Fault Refusal := .next (sqrEffect rd ra s)

/-- `MULC Fd, Fa` (40_field_arith.md R129). -/
def execMulc (rd ra : FReg) (s : State) : Host.Outcome State Fault Refusal := .next (mulcEffect rd ra s)

/-- `SQZ Fd` (40_field_arith.md R126). -/
def execSqz (rd : FReg) (s : State) : Host.Outcome State Fault Refusal := .next (sqzEffect rd s)

/-- `FRZ Fd` (40_field_arith.md R130). -/
def execFrz (rd : FReg) (s : State) : Host.Outcome State Fault Refusal := .next (frzEffect rd s)

end Sys2Proof.Machine
end

