-- ==== Sys2Proof/Machine/Move.lean ====
section
/-! DEFINITION. The moves MOV, SETC (spec/45_move_control.md R220, R221), LDPT and STQ (spec/44_scalarmult.md R200, R201). None
of them is counted. -/

namespace Sys2Proof.Machine

/-- `F[RD] <- F[RA]`, all 32 bits of all 32 limbs (45_move_control.md R220). -/
def movEffect (rd ra : FReg) (s : State) : State := s.setF rd (s.getF ra)

/-- Limb 0 of `F[RD]` the immediate, its other limbs zero (45_move_control.md R221). -/
def setcEffect (rd : FReg) (imm : Byte) (s : State) : State := s.setF rd (immFe imm)

/-- `F[RD][j] <- zext_32(PT[j])` (44_scalarmult.md R200). -/
def ldptEffect (rd : FReg) (s : State) : State := s.setF rd (feOfBytes s.pt)

/-- `Q[j] <- trunc_8(F[RD][j])` (44_scalarmult.md R201). -/
def stqEffect (ra : FReg) (s : State) : State := s.setQ (bytesOfFe (s.getF ra))

/-- `MOV Fd, Fa` (45_move_control.md R220). -/
def execMov (rd ra : FReg) (s : State) : Host.Outcome State Fault Refusal := .next (movEffect rd ra s)

/-- `SETC Fd, #v` (45_move_control.md R221). -/
def execSetc (rd : FReg) (imm : Byte) (s : State) : Host.Outcome State Fault Refusal := .next (setcEffect rd imm s)

/-- `LDPT Fd` (44_scalarmult.md R200). -/
def execLdpt (rd : FReg) (s : State) : Host.Outcome State Fault Refusal := .next (ldptEffect rd s)

/-- `STQ Fa` (44_scalarmult.md R201). -/
def execStq (ra : FReg) (s : State) : Host.Outcome State Fault Refusal := .next (stqEffect ra s)

end Sys2Proof.Machine
end

