-- ==== Sys2Proof/Machine/Select.lean ====
section
/-! DEFINITION. The constant-time conditional select SEL (spec/41_select.md R160, R161). -/

namespace Sys2Proof.Machine

/-- `(PR[PD], PR[QD]) <- Select(PR[PR], PR[PS], B)`, both sources read before either destination is written, counted in
`CNT[7]` (41_select.md R160). -/
def selEffect (pd qd pr ps : PReg) (b : Bool) (s : State) : State :=
  let r := selectPairs (s.getPair pr) (s.getPair ps) b
  ((s.setPair pd r.1).setPair qd r.2).count .sel

/-- `SEL PRp, PRq, PRr, PRs, #b`: with `PD` = `QD` the command raises `E_OPERAND` with its word and does nothing else
(41_select.md R161, notes/assumptions/6.md); otherwise R160. -/
def execSel (pd qd pr ps : PReg) (b : Bool) (s : State) : Host.Outcome State Fault Refusal :=
  if pd = qd then .next (s.raise .operand (encode (.sel pd qd pr ps b))) else .next (selEffect pd qd pr ps b s)

end Sys2Proof.Machine
end

