-- ==== Sys2Proof/Machine/Prim.lean ====
section
/-! DEFINITION. The sub-steps of the macro commands (spec/00_scope.md R9 `exec MNEMONIC operands`, R12 "primitive"). A macro
command's expansion is a list of these, a constant that no data can reach (R14, spec/70_reset_and_hazards.md R296). -/

namespace Sys2Proof.Machine

/-- A sub-step `exec MNEMONIC operands`, for the mnemonics the expansions use. -/
inductive Prim where
  | add (rd ra rb : FReg)
  | sub (rd ra rb : FReg)
  | mul (rd ra rb : FReg)
  | sqr (rd ra : FReg)
  | mulc (rd ra : FReg)
  | frz (rd : FReg)
  | sel (pd qd pr ps : PReg) (b : Bool)
  | mov (rd ra : FReg)
  | setc (rd : FReg) (imm : Byte)
  | ldpt (rd : FReg)
  | stq (ra : FReg)
  | clamp
  deriving DecidableEq, Repr

/-- `E <- Clamp(N)` (42_ladder.md R170). -/
def clampEffect (s : State) : State := s.setE (clampScalar s.n)

/-- The sub-step's data effect, its counter included: exactly that of the command of its name (00_scope.md R9). -/
def primEffect : Prim → State → State
  | .add rd ra rb => addEffect rd ra rb
  | .sub rd ra rb => subEffect rd ra rb
  | .mul rd ra rb => mulEffect rd ra rb
  | .sqr rd ra => sqrEffect rd ra
  | .mulc rd ra => mulcEffect rd ra
  | .frz rd => frzEffect rd
  | .sel pd qd pr ps b => selEffect pd qd pr ps b
  | .mov rd ra => movEffect rd ra
  | .setc rd imm => setcEffect rd imm
  | .ldpt rd => ldptEffect rd
  | .stq ra => stqEffect ra
  | .clamp => clampEffect

/-- The command a sub-step performs. -/
def primInstr : Prim → Instr
  | .add rd ra rb => .add rd ra rb
  | .sub rd ra rb => .sub rd ra rb
  | .mul rd ra rb => .mul rd ra rb
  | .sqr rd ra => .sqr rd ra
  | .mulc rd ra => .mulc rd ra
  | .frz rd => .frz rd
  | .sel pd qd pr ps b => .sel pd qd pr ps b
  | .mov rd ra => .mov rd ra
  | .setc rd imm => .setc rd imm
  | .ldpt rd => .ldpt rd
  | .stq ra => .stq ra
  | .clamp => .clamp

/-- The sub-steps of a list, in order. -/
def runPrims : List Prim → State → State
  | [], s => s
  | p :: ps, s => runPrims ps (primEffect p s)

end Sys2Proof.Machine
end

