-- ==== Sys2Proof/Machine/Ladder.lean ====
section
/-! DEFINITION. Scalar clamping and the Montgomery ladder: CLAMP, LINIT, LSTEP, LADDER (spec/42_ladder.md R170 to R176). -/

namespace Sys2Proof.Machine

/-- The sub-steps of `LINIT`: current = (1, 0), current+1 = (X1, 1) (42_ladder.md R172, 90_conflicts.md C1). -/
def linitPrims : List Prim :=
  [.setc rXZMx 1, .setc rXZMz 0, .mov rXZM1x rWX, .setc rXZM1z 1]

/-- `LINIT`: the accumulators, then `POS <- 254` (42_ladder.md R172). -/
def linitEffect (s : State) : State := (runPrims linitPrims s).setPos 254

/-- The 20 sub-steps of `LSTEP`, the same for both values of the scalar bit but for the `B` operand of its two `SEL`s
(42_ladder.md R174, 70_reset_and_hazards.md R296). -/
def lstepPrims (b : Bool) : List Prim :=
  [.sel pXZMB pXZM1B pXZM pXZM1 b,
   .add rA0x rXZMBx rXZMBz,
   .sub rA0z rXZMBx rXZMBz,
   .add rA1x rXZM1Bx rXZM1Bz,
   .sub rA1z rXZM1Bx rXZM1Bz,
   .sqr rB0x rA0x,
   .sqr rB0z rA0z,
   .mul rB1x rA1x rA0z,
   .mul rB1z rA1z rA0x,
   .add rC1x rB1x rB1z,
   .sub rC1z rB1x rB1z,
   .sqr rR rC1z,
   .sub rS rB0x rB0z,
   .mulc rT rS,
   .add rU rT rB0x,
   .mul rXZNBx rB0x rB0z,
   .mul rXZNBz rS rU,
   .sqr rXZN1Bx rC1x,
   .mul rXZN1Bz rR rWX,
   .sel pXZM pXZM1 pXZNB pXZN1B b]

/-- `LSTEP` at the position the state holds: the bit is extracted, the sub-steps are performed, `POS` goes down by one and the
step is counted in `CNT[8]` (42_ladder.md R174). -/
def lstepEffect (s : State) : State :=
  ((runPrims (lstepPrims (scalarBit s.e s.pos)) s).setPos (s.pos - 1)).count .lstep

/-- The sub-steps that end `LADDER` (42_ladder.md R176). -/
def ladderEndPrims : List Prim := [.mov rWX rXZMx, .mov rWZ rXZMz]

/-- `LADDER`: `LINIT`, 255 times `LSTEP`, then the result to `F0` and `F1` (42_ladder.md R176). -/
def ladderEffect (s : State) : State :=
  runPrims ladderEndPrims (Nat.iterate lstepEffect Config.nStep (linitEffect s))

/-- `CLAMP` (42_ladder.md R170). -/
def execClamp (s : State) : Host.Outcome State Fault Refusal := .next (clampEffect s)

/-- `LINIT` (42_ladder.md R172). -/
def execLinit (s : State) : Host.Outcome State Fault Refusal := .next (linitEffect s)

/-- `LSTEP`: with `POS` = 255 it raises `E_LADDER` with its word and does nothing else (42_ladder.md R175,
notes/assumptions/6.md); otherwise R174. -/
def execLstep (s : State) : Host.Outcome State Fault Refusal :=
  if s.pos = 255 then .next (s.raise .ladder (encode .lstep)) else .next (lstepEffect s)

/-- `LADDER` (42_ladder.md R176). -/
def execLadder (s : State) : Host.Outcome State Fault Refusal := .next (ladderEffect s)

end Sys2Proof.Machine
end

