-- ==== Sys2Proof/Machine/Recip.lean ====
section
/-! DEFINITION. The field inversion RECIP: the fixed list of 254 squarings and 11 multiplications of spec/43_recip.md R190. -/

namespace Sys2Proof.Machine

/-- `exec SQR x, y ; exec SQR y, x`, `n` times: the listing's "repeat" blocks (43_recip.md R190). -/
def sqrPairs : Nat → FReg → FReg → List Prim
  | 0, _, _ => []
  | n + 1, x, y => .sqr x y :: .sqr y x :: sqrPairs n x y

/-- The listing down to 2^5 - 1: 4 squarings that start the chain, and the first three products. -/
def recipTo5 (z : FReg) : List Prim :=
  [.sqr rZ2 z, .sqr rT1 rZ2, .sqr rT0 rT1, .mul rZ9 rT0 z, .mul rZ11 rZ9 rZ2, .sqr rT0 rZ11, .mul rZ5 rT0 rZ9]

/-- 2^10 - 1. -/
def recipTo10 : List Prim :=
  [.sqr rT0 rZ5, .sqr rT1 rT0, .sqr rT0 rT1, .sqr rT1 rT0, .sqr rT0 rT1, .mul rZ10 rT0 rZ5]

/-- 2^20 - 1. -/
def recipTo20 : List Prim :=
  [.sqr rT0 rZ10, .sqr rT1 rT0] ++ sqrPairs 4 rT0 rT1 ++ [.mul rZ20 rT1 rZ10]

/-- 2^40 - 1, in t0. -/
def recipTo40 : List Prim :=
  [.sqr rT0 rZ20, .sqr rT1 rT0] ++ sqrPairs 9 rT0 rT1 ++ [.mul rT0 rT1 rZ20]

/-- 2^50 - 1. -/
def recipTo50 : List Prim :=
  [.sqr rT1 rT0, .sqr rT0 rT1] ++ sqrPairs 4 rT1 rT0 ++ [.mul rZ50 rT0 rZ10]

/-- 2^100 - 1. -/
def recipTo100 : List Prim :=
  [.sqr rT0 rZ50, .sqr rT1 rT0] ++ sqrPairs 24 rT0 rT1 ++ [.mul rZ100 rT1 rZ50]

/-- 2^200 - 1, in t1. -/
def recipTo200 : List Prim :=
  [.sqr rT1 rZ100, .sqr rT0 rT1] ++ sqrPairs 49 rT1 rT0 ++ [.mul rT1 rT0 rZ100]

/-- 2^250 - 1, in t0. -/
def recipTo250 : List Prim :=
  [.sqr rT0 rT1, .sqr rT1 rT0] ++ sqrPairs 24 rT0 rT1 ++ [.mul rT0 rT1 rZ50]

/-- 2^255 - 21, in the destination. -/
def recipEnd (d : FReg) : List Prim :=
  [.sqr rT1 rT0, .sqr rT0 rT1, .sqr rT1 rT0, .sqr rT0 rT1, .sqr rT1 rT0, .mul d rT1 rZ11]

/-- The 265 sub-steps of `RECIP Fd, Fa`; they depend on the two register fields alone (43_recip.md R190,
70_reset_and_hazards.md R296). -/
def recipPrims (rd ra : FReg) : List Prim :=
  recipTo5 ra ++ recipTo10 ++ recipTo20 ++ recipTo40 ++ recipTo50 ++ recipTo100 ++ recipTo200 ++ recipTo250 ++ recipEnd rd

/-- `RECIP`'s data effect (43_recip.md R190). -/
def recipEffect (rd ra : FReg) (s : State) : State := runPrims (recipPrims rd ra) s

/-- `RECIP Fd, Fa`: with a register of F4..F13 it raises `E_OPERAND` with its word and does nothing else (43_recip.md R191,
notes/assumptions/6.md); otherwise R190. -/
def execRecip (rd ra : FReg) (s : State) : Host.Outcome State Fault Refusal :=
  if inRecipScratch rd || inRecipScratch ra then .next (s.raise .operand (encode (.recip rd ra)))
  else .next (recipEffect rd ra s)

end Sys2Proof.Machine
end

