-- ==== Sys2Proof/Machine/ScalarMult.lean ====
section
/-! DEFINITION. Scalar multiplication: SMULT and SMULTB (spec/44_scalarmult.md R204, R205). -/

namespace Sys2Proof.Machine

/-- What `SMULT` does after its ladder: `RECIP F1, F1`, `MUL F2, F0, F1`, `FRZ F2`, `STQ F2` (44_scalarmult.md R204). -/
def scalarMultEnd (s : State) : State :=
  runPrims [.mul rWQ rWX rWZ, .frz rWQ, .stq rWQ] (recipEffect rWZ rWZ s)

/-- `SMULT`'s data effect (44_scalarmult.md R204). -/
def smultEffect (s : State) : State := scalarMultEnd (ladderEffect (runPrims [.clamp, .ldpt rWX] s))

/-- `SMULTB`'s data effect: `SMULT`'s with `F0 <- 9` for its second line (44_scalarmult.md R205). -/
def smultbEffect (s : State) : State :=
  scalarMultEnd (ladderEffect (runPrims [.clamp, .setc rWX Config.baseX] s))

/-- `SMULT` (44_scalarmult.md R204). -/
def execSmult (s : State) : Host.Outcome State Fault Refusal := .next (smultEffect s)

/-- `SMULTB` (44_scalarmult.md R205). -/
def execSmultb (s : State) : Host.Outcome State Fault Refusal := .next (smultbEffect s)

end Sys2Proof.Machine
end

