-- ==== Sys2Proof/Machine/Dispatch.lean ====
section
/-! DEFINITION. The one dispatch of a command to its meaning: the data effect of spec/00_scope.md R9 `exec MNEMONIC operands`,
or the error its operands raise. What the core step adds around it stands in Machine/CoreStep.lean. -/

namespace Sys2Proof.Machine

def exec (i : Instr) (s : State) : Host.Outcome State Fault Refusal :=
  match i with
  | .nop => Sys2Proof.Machine.execNop s
  | .wipe => Sys2Proof.Machine.execWipe s
  | .clrcnt => Sys2Proof.Machine.execClrcnt s
  | .add rd ra rb => Sys2Proof.Machine.execAdd rd ra rb s
  | .sub rd ra rb => Sys2Proof.Machine.execSub rd ra rb s
  | .mul rd ra rb => Sys2Proof.Machine.execMul rd ra rb s
  | .sqr rd ra => Sys2Proof.Machine.execSqr rd ra s
  | .mulc rd ra => Sys2Proof.Machine.execMulc rd ra s
  | .sqz rd => Sys2Proof.Machine.execSqz rd s
  | .frz rd => Sys2Proof.Machine.execFrz rd s
  | .mov rd ra => Sys2Proof.Machine.execMov rd ra s
  | .setc rd imm => Sys2Proof.Machine.execSetc rd imm s
  | .ldpt rd => Sys2Proof.Machine.execLdpt rd s
  | .stq ra => Sys2Proof.Machine.execStq ra s
  | .sel pd qd pr ps b => Sys2Proof.Machine.execSel pd qd pr ps b s
  | .clamp => Sys2Proof.Machine.execClamp s
  | .linit => Sys2Proof.Machine.execLinit s
  | .lstep => Sys2Proof.Machine.execLstep s
  | .ladder => Sys2Proof.Machine.execLadder s
  | .recip rd ra => Sys2Proof.Machine.execRecip rd ra s
  | .smult => Sys2Proof.Machine.execSmult s
  | .smultb => Sys2Proof.Machine.execSmultb s

end Sys2Proof.Machine
end

