-- ==== Sys2Proof/Machine/CoreStep.lean ====
section
/-! DEFINITION. The core step (spec/20_memory.md R68): the data effect of the command in `CMDR`, then `BUSY <- 0`,
`DONE <- 1`. -/

namespace Sys2Proof.Machine

/-- The end of a core step, on the outcome of the data effect (20_memory.md R68). -/
def finishCommand : Host.Outcome State Fault Refusal → Host.Outcome State Fault Refusal
  | .next t => .next t.complete
  | .fault r => .fault r
  | .refused r => .refused r

/-- The core's turn: with `BUSY` = 1 the command in `CMDR` is executed and completed, with `BUSY` = 0 the core does nothing
(20_memory.md R68). A latched word that is no command is a fault, which no run reaches (notes/assumptions/5.md). -/
def coreStep (s : State) : Host.Outcome State Fault Refusal :=
  if s.busy then
    match decode s.cmdr with
    | .instr i => finishCommand (exec i s)
    | .unusedOpcode _ => .fault .latchedWordIllegal
    | .reservedBits _ => .fault .latchedWordIllegal
  else .next s

/-- The word of an instruction given by its low bits, latched as an accepted command with the core's turn next
(notes/assumptions/7.md). -/
def latchWord (nbits w : Nat) (s : State) : State :=
  { s.accept (BitVec.ofNat 32 (w % 2 ^ nbits)) with inputs := .coreTurn :: s.inputs }

end Sys2Proof.Machine
end

