-- ==== Sys2Proof/Machine/Port.lean ====
section
/-! DEFINITION. The register interface (spec/20_memory.md R60 to R66): the map, the host's two accesses with their errors
(spec/60_exceptions.md R240, R245), and the offering of a command word (R244). -/

namespace Sys2Proof.Machine

/-- A mapped slot of the register interface (20_memory.md R61). -/
inductive Slot where
  | cmd | status | ctrl | ack | posr | errInfo
  | cnt (k : Fin 9)
  | n (i : Fin 32)
  | pt (i : Fin 32)
  | q (i : Fin 32)
  | e (i : Fin 32)
  | f (r : FReg) (j : Fin 32)
  deriving DecidableEq, Repr

/-- The slot at a byte offset, none where the offset is misaligned, out of range or unmapped (20_memory.md R61, R63). -/
def slotAt (off : Word) : Option Slot :=
  let a := off.toNat
  if a % 4 ≠ 0 then none
  else if a = 0x000 then some .cmd
  else if a = 0x004 then some .status
  else if a = 0x008 then some .ctrl
  else if a = 0x00C then some .ack
  else if a = 0x010 then some .posr
  else if a = 0x014 then some .errInfo
  else if h : 0x040 ≤ a ∧ a < 0x064 then some (.cnt ⟨(a - 0x040) / 4, by omega⟩)
  else if h : 0x080 ≤ a ∧ a < 0x100 then some (.n ⟨(a - 0x080) / 4, by omega⟩)
  else if h : 0x100 ≤ a ∧ a < 0x180 then some (.pt ⟨(a - 0x100) / 4, by omega⟩)
  else if h : 0x180 ≤ a ∧ a < 0x200 then some (.q ⟨(a - 0x180) / 4, by omega⟩)
  else if h : 0x200 ≤ a ∧ a < 0x280 then some (.e ⟨(a - 0x200) / 4, by omega⟩)
  else if h : 0x1000 ≤ a ∧ a < 0x2000 then
    some (.f ⟨(a - 0x1000) / 128, by omega⟩ ⟨(a - 0x1000) % 128 / 4, by omega⟩)
  else none

/-- Column `R` of the map: every slot but `ACK` (20_memory.md R61). -/
def slotReadable : Slot → Bool
  | .cmd => true
  | .status => true
  | .ctrl => true
  | .ack => false
  | .posr => true
  | .errInfo => true
  | .cnt _ => true
  | .n _ => true
  | .pt _ => true
  | .q _ => true
  | .e _ => true
  | .f _ _ => true

/-- Column `W` of the map (20_memory.md R61). -/
def slotWritable : Slot → Bool
  | .cmd => true
  | .status => false
  | .ctrl => true
  | .ack => true
  | .posr => false
  | .errInfo => false
  | .cnt _ => false
  | .n _ => true
  | .pt _ => true
  | .q _ => false
  | .e _ => false
  | .f _ _ => true

/-- Reads allowed while `BUSY` = 1: `CMD`, `STATUS`, `CTRL` (20_memory.md R61, R65). -/
def readableWhileBusy : Slot → Bool
  | .cmd => true
  | .status => true
  | .ctrl => true
  | .ack => false
  | .posr => false
  | .errInfo => false
  | .cnt _ => false
  | .n _ => false
  | .pt _ => false
  | .q _ => false
  | .e _ => false
  | .f _ _ => false

/-- Writes allowed while `BUSY` = 1: `CTRL`, `ACK` (20_memory.md R61, R65). -/
def writableWhileBusy : Slot → Bool
  | .cmd => false
  | .status => false
  | .ctrl => true
  | .ack => true
  | .posr => false
  | .errInfo => false
  | .cnt _ => false
  | .n _ => false
  | .pt _ => false
  | .q _ => false
  | .e _ => false
  | .f _ _ => false

/-- The word a legal read of the slot returns (20_memory.md R61, R64; 10_state.md R40 to R46). `ACK` holds nothing (R42). -/
def slotWord (s : State) : Slot → Word
  | .cmd => s.cmdr
  | .status => statusWord s
  | .ctrl => s.ctrl.setWidth 32
  | .ack => 0
  | .posr => zext32 s.pos
  | .errInfo => s.errInfo
  | .cnt k => s.cnt[k]
  | .n i => zext32 s.n[i]
  | .pt i => zext32 s.pt[i]
  | .q i => zext32 s.q[i]
  | .e i => zext32 s.e[i]
  | .f r j => (s.f[r])[j]

/-- The error a command raises when it is offered with `POS` as it stands, after its word has matched a row: `E_OPERAND`, then
`E_LADDER` (60_exceptions.md R244, 30_encoding.md R101). -/
def offerError (i : Instr) (pos : Byte) : Option ErrCode :=
  if !wellFormed i then some .operand else if i = .lstep ∧ pos = 255 then some .ladder else none

/-- A word is offered: `HostWrite(0x000, w)` (60_exceptions.md R244, in its order). -/
def offer (w : Word) (s : State) : State :=
  if s.busy then s.raise .busy 0
  else if s.err ≠ .none then s
  else match decode w with
    | .unusedOpcode _ => s.raise .illCmd w
    | .reservedBits _ => s.raise .illCmd w
    | .instr i =>
      match offerError i s.pos with
      | some c => s.raise c w
      | none => s.accept w

/-- A legal write of `v` to the slot (20_memory.md R64; 10_state.md R41, R42). A slot that cannot be written keeps its
content. -/
def writeSlot (v : Word) (s : State) : Slot → State
  | .cmd => offer v s
  | .status => s
  | .ctrl => { s with ctrl := v.setWidth 2 }
  | .ack => s.acknowledge v
  | .posr => s
  | .errInfo => s
  | .cnt _ => s
  | .n i => { s with n := s.n.set i (trunc8 v) }
  | .pt i => { s with pt := s.pt.set i (trunc8 v) }
  | .q _ => s
  | .e _ => s
  | .f r j => { s with f := s.f.set r ((s.f[r]).set j v) }

/-- The error class of an access from its offset, its direction and `BUSY`: `E_ADDR` first, then `E_BUSY`
(20_memory.md R64, R65; 60_exceptions.md R245, R247). -/
def accessError (allowed whileBusy : Slot → Bool) (off : Word) (busy : Bool) : Option ErrCode :=
  match slotAt off with
  | none => some .addr
  | some sl => if !allowed sl then some .addr else if busy && !whileBusy sl then some .busy else none

/-- `HostRead(off)`: the state after it and the word it returns, 0 where it is an error (20_memory.md R63 to R66). -/
def hostRead (off : Word) (s : State) : State × Word :=
  match accessError slotReadable readableWhileBusy off s.busy with
  | some c => (s.raise c off, 0)
  | none =>
    match slotAt off with
    | some sl => (s, slotWord s sl)
    | none => (s.raise .addr off, 0)

/-- `HostWrite(off, v)` (20_memory.md R63 to R65). -/
def hostWrite (off v : Word) (s : State) : State :=
  match accessError slotWritable writableWhileBusy off s.busy with
  | some c => s.raise c off
  | none =>
    match slotAt off with
    | some sl => writeSlot v s sl
    | none => s.raise .addr off

/-- The host step `HostRead(off)`: the word it returns joins the replies. -/
def hostReadStep (off : Word) (s : State) : State :=
  { (hostRead off s).1 with replies := s.replies ++ [(hostRead off s).2] }

end Sys2Proof.Machine
end

