-- ==== Sys2Proof/Machine/Step.lean ====
section
/-! DEFINITION. One step of the machine (spec/20_memory.md R68, R69; spec/70_reset_and_hazards.md R281): a host step, the core's
turn, or a reset, whichever stands first in `inputs`; with nothing asked, the core's turn (weak fairness, R68). -/

namespace Sys2Proof.Machine

/-- One step (20_memory.md R68). -/
def step (s : State) : Host.Outcome State Fault Refusal :=
  match s.inputs with
  | [] => coreStep s
  | .coreTurn :: rest => coreStep { s with inputs := rest }
  | .hostRead off :: rest => .next (hostReadStep off { s with inputs := rest })
  | .hostWrite off v :: rest => .next (hostWrite off v { s with inputs := rest })
  | .reset :: rest => .next ({ s with inputs := rest } : State).applyReset

/-- `s` with the instruction latched in `CMDR` as an accepted command and the core's turn next, so that the next step runs it.
The block fetches nothing (10_state.md R30): this stands for the host's write of the word to `CMD` (notes/assumptions/7.md). -/
def State.withFetchWord (s : State) (nbits w : Nat) : State := latchWord nbits w s

end Sys2Proof.Machine
end

