-- ==== Sys2Proof/Machine/Assembly.lean ====
section
/-! DEFINITION. The assembler spelling of a command (spec/30_encoding.md R105): mnemonic in capitals, operands separated by commas,
destination first, registers and immediates in decimal. -/

namespace Sys2Proof.Machine

/-- `Fn` (30_encoding.md R105). -/
def fregText (r : FReg) : String := "F" ++ toString r.val

/-- `PRk` (30_encoding.md R105). -/
def pregText (k : PReg) : String := "PR" ++ toString k.val

/-- `#v` (30_encoding.md R105). -/
def immText (v : Nat) : String := "#" ++ toString v

/-- Mnemonic and operands on one line (30_encoding.md R105). -/
def asmLine (mnemonic : String) (operands : List String) : String :=
  if operands.isEmpty then mnemonic else mnemonic ++ " " ++ ", ".intercalate operands

/-- The spelling of a command (30_encoding.md R105). -/
def asmText : Instr → String
  | .nop => asmLine "NOP" []
  | .wipe => asmLine "WIPE" []
  | .clrcnt => asmLine "CLRCNT" []
  | .add rd ra rb => asmLine "ADD" [fregText rd, fregText ra, fregText rb]
  | .sub rd ra rb => asmLine "SUB" [fregText rd, fregText ra, fregText rb]
  | .mul rd ra rb => asmLine "MUL" [fregText rd, fregText ra, fregText rb]
  | .sqr rd ra => asmLine "SQR" [fregText rd, fregText ra]
  | .mulc rd ra => asmLine "MULC" [fregText rd, fregText ra]
  | .sqz rd => asmLine "SQZ" [fregText rd]
  | .frz rd => asmLine "FRZ" [fregText rd]
  | .mov rd ra => asmLine "MOV" [fregText rd, fregText ra]
  | .setc rd imm => asmLine "SETC" [fregText rd, immText imm.toNat]
  | .ldpt rd => asmLine "LDPT" [fregText rd]
  | .stq ra => asmLine "STQ" [fregText ra]
  | .sel pd qd pr ps b => asmLine "SEL" [pregText pd, pregText qd, pregText pr, pregText ps, immText b.toNat]
  | .clamp => asmLine "CLAMP" []
  | .linit => asmLine "LINIT" []
  | .lstep => asmLine "LSTEP" []
  | .ladder => asmLine "LADDER" []
  | .recip rd ra => asmLine "RECIP" [fregText rd, fregText ra]
  | .smult => asmLine "SMULT" []
  | .smultb => asmLine "SMULTB" []

end Sys2Proof.Machine
end

