-- ==== Sys2Proof/Machine/HostProc.lean ====
section
/-! DEFINITION. The host procedures of LF-X25519 as lists of host accesses (spec/44_scalarmult.md R208, R209), the length check of
the host's driver (spec/60_exceptions.md R252) and the refusal to start when the random source fails (R253). They are no part of
the block: they say what the host asks of it, in the terms of the model's `inputs`. -/

namespace Sys2Proof.Machine

/-- The host's writes of a 32-byte value to the byte slots from `base` on (20_memory.md R61, R74). -/
def writeBytes (base : Nat) (b : Bytes32) : List Input :=
  (List.finRange 32).map fun i => .hostWrite (BitVec.ofNat 32 (base + 4 * i.val)) (zext32 b[i])

/-- The host's reads of a 32-byte value from the byte slots from `base` on. -/
def readBytes (base : Nat) : List Input :=
  (List.finRange 32).map fun i => .hostRead (BitVec.ofNat 32 (base + 4 * i.val))

/-- The host writes a command word, the core executes it, and the host reads `STATUS` (30_encoding.md R106 `WAIT`). -/
def issueCommand (i : Instr) : List Input := [.hostWrite 0x000 (encode i), .coreTurn, .hostRead 0x004]

/-- Generate (44_scalarmult.md R208): the random bytes to `N`, `SMULTB`, wait, read `Q`. Without random bytes the host does not
start (60_exceptions.md R253). -/
def generateInputs : Option Bytes32 → List Input
  | none => []
  | some priv => writeBytes 0x080 priv ++ issueCommand .smultb ++ readBytes 0x180

/-- Agree (44_scalarmult.md R209), as far as the block is concerned: the private bytes to `N`, the peer's public bytes to `PT`,
`SMULT`, wait, read `Q`. -/
def agreeInputs (theirPublic myPrivate : Bytes32) : List Input :=
  writeBytes 0x080 myPrivate ++ writeBytes 0x100 theirPublic ++ issueCommand .smult ++ readBytes 0x180

/-- The end of agree, outside the block: the first 32 bytes of the 48-byte digest of the raw bytes (44_scalarmult.md R209). -/
def agreeSecret (raw : Bytes32) : Bytes32 := .ofFn fun j => (Config.hash48 raw)[j.val]

/-- The host driver's own named error (60_exceptions.md R252). -/
inductive DriverError where
  /-- A buffer of `n` bytes where 32 are due. -/
  | badLength (n : Nat)
  deriving DecidableEq, Repr

/-- The host driver accepts exactly the buffers of 32 bytes; it neither truncates nor pads (60_exceptions.md R252). -/
def driverBytes (l : List Byte) : DriverError ⊕ Bytes32 :=
  if h : l.length = 32 then .inr ⟨l.toArray, by simpa using h⟩ else .inl (.badLength l.length)

end Sys2Proof.Machine
end

