-- ==== Sys2Proof/Safety.lean ====
section
/-! DEFINITION. The terms the claims about LF-X25519 use: what a consistent state is, what a host access does, what a command leaves
alone, the loops of spec/40_field_arith.md as relations between limbs, and the ladder in field terms (spec/42_ladder.md R174). -/

namespace Sys2Proof.Machine

/-! ## Consistent states -/

/-- What holds in every state a run reaches: a latched command is one that R244 accepts, `BUSY` and `DONE` are not both 1
(10_state.md R40), `ERRINFO` is zero when `ERR` is 0 (R45), and `CMDR` is 0 or a command with legal operands (R32). -/
structure Consistent (s : State) : Prop where
  busyLatched : s.busy = true → ∃ i, decode s.cmdr = .instr i ∧ offerError i s.pos = none
  busyNotDone : s.busy = true → s.done = false
  noErrNoInfo : s.err = .none → s.errInfo = 0
  cmdrCommand : s.cmdr = 0 ∨ ∃ i, decode s.cmdr = .instr i ∧ wellFormed i = true

/-- `E` as every state a run reaches holds it: all zero, or with its low 3 bits 0, its top bit 0 and its second-highest bit 1
(42_ladder.md R170). -/
def ScalarZeroOrClamped (e : Bytes32) : Prop :=
  e = .replicate 32 0 ∨ (e[0] &&& 7 = 0 ∧ e[31] &&& 192 = 64)

/-- Everything but the data registers `F`, `N`, `E`, `PT`, `Q` (and the words already returned) is the same
(00_scope.md R14). -/
def SameControl (s t : State) : Prop :=
  s.pos = t.pos ∧ s.cmdr = t.cmdr ∧ s.busy = t.busy ∧ s.done = t.done ∧ s.err = t.err ∧ s.errInfo = t.errInfo ∧
    s.ctrl = t.ctrl ∧ s.cnt = t.cnt ∧ s.inputs = t.inputs

/-- The next step is the core step of the command `i`: `BUSY` = 1, `CMDR` holds `i`, and it is the core's turn, with nothing asked
(notes/assumptions/2.md) or with `coreTurn` first (20_memory.md R68). -/
def CoreRuns (s : State) (i : Instr) : Prop :=
  s.busy = true ∧ decode s.cmdr = .instr i ∧ (s.inputs = [] ∨ ∃ rest, s.inputs = .coreTurn :: rest)

/-- Reset is the next step (70_reset_and_hazards.md R281). -/
def ResetNext (s : State) : Prop := ∃ rest, s.inputs = .reset :: rest

/-! ## Host accesses -/

/-- In `s`, `HostRead(off)` returns `w` and leaves the block in `t`. -/
def HostReads (s : State) (off w : Word) (t : State) : Prop :=
  step { s with inputs := .hostRead off :: s.inputs } = .next { t with replies := s.replies ++ [w] }

/-- In `s`, `HostWrite(off, v)` leaves the block in `t`. -/
def HostWrites (s : State) (off v : Word) (t : State) : Prop :=
  step { s with inputs := .hostWrite off v :: s.inputs } = .next t

/-- The offsets of the map that the host may read, busy apart (20_memory.md R61). -/
def MapReads (off : Word) : Prop :=
  off.toNat % 4 = 0 ∧
    (off.toNat < 0x00C ∨ off.toNat = 0x010 ∨ off.toNat = 0x014 ∨ (0x040 ≤ off.toNat ∧ off.toNat ≤ 0x060) ∨
      (0x080 ≤ off.toNat ∧ off.toNat < 0x280) ∨ (0x1000 ≤ off.toNat ∧ off.toNat < 0x2000))

/-- The offsets of the map that the host may write, busy apart (20_memory.md R61). -/
def MapWrites (off : Word) : Prop :=
  off.toNat % 4 = 0 ∧
    (off.toNat = 0x000 ∨ off.toNat = 0x008 ∨ off.toNat = 0x00C ∨ (0x080 ≤ off.toNat ∧ off.toNat < 0x180) ∨
      (0x1000 ≤ off.toNat ∧ off.toNat < 0x2000))

/-- The byte offset `base + 4i` as the host gives it. -/
def offsetOf (base i : Nat) : Word := BitVec.ofNat 32 (base + 4 * i)

/-- The byte offset of `F[r][j]` (20_memory.md R61). -/
def limbOffset (r : FReg) (j : Fin 32) : Word := BitVec.ofNat 32 (0x1000 + 128 * r.val + 4 * j.val)

/-! ## Commands in sequence -/

/-- The data effects of a list of commands, one after the other: `exec A`, `exec B`, ... (00_scope.md R9). -/
def execAll : List Instr → State → Host.Outcome State Fault Refusal
  | [], s => .next s
  | i :: is, s =>
    match exec i s with
    | .next t => execAll is t
    | .fault r => .fault r
    | .refused r => .refused r

/-- The host issues each command of the list in turn: it writes the word to `CMD` and the core takes its step. -/
def issueAll (is : List Instr) : List Input := is.flatMap fun i => [.hostWrite 0 (encode i), .coreTurn]

/-- A list of commands written `n` times over: "repeat n times". -/
def repeated (n : Nat) (is : List Instr) : List Instr := (List.replicate n is).flatten

/-! ## Frames -/

/-- Every field-element register but those named holds what it held. -/
def RegsKept (rs : List FReg) (s t : State) : Prop := ∀ r : FReg, r ∉ rs → t.f[r] = s.f[r]

/-- One execution is counted, and the other counters are unchanged (10_state.md R46). -/
def Counted (c : Counter) (s t : State) : Prop :=
  ∀ k : Fin 9, t.cnt[k] = if k = c.index then s.cnt[k] + 1 else s.cnt[k]

/-- Counter `k` has moved by the `k`-th number, modulo 2^32 (10_state.md R46). -/
def CountedBy (d : List Nat) (s t : State) : Prop := ∀ k : Fin 9, t.cnt[k] = s.cnt[k] + BitVec.ofNat 32 (d.getD k.val 0)

/-! ## Limbs and loops -/

/-- Limb `j`, 0 beyond the last. -/
def limb (a : Fe) (j : Nat) : Word := if h : j < 32 then a[j] else 0

/-- The register with limb 0 = `lo`, limbs 1..30 = `mid` and limb 31 = `hi`, the shape of most of the spec's examples. -/
def fe3 (lo mid hi : Word) : Fe := .ofFn fun j => if j = 0 then lo else if j = 31 then hi else mid

/-- The loop of `Add` (40_field_arith.md R124), whose terms are `a[j] + b[j]` there: `u` runs through the carries from `u0`; limbs
0..30 take `(u + term) & 255` and pass on `(u + term) >> 8`; limb 31 takes `u + term`. -/
def CarryLoop (u0 : Word) (term : Nat → Word) (out : Fe) : Prop :=
  ∃ u : Nat → Word, u 0 = u0 ∧
    (∀ j, j < 31 → limb out j = (u j + term j) &&& 255 ∧ u (j + 1) = (u j + term j) >>> 8) ∧
    limb out 31 = u 31 + term 31

/-- The two passes of `Squeeze` and `Mulc` over the terms of the first (40_field_arith.md R126, R129). -/
def SqueezeLoops (term : Nat → Word) (out : Fe) : Prop :=
  ∃ mid : Fe, CarryLoop 0 term mid ∧
    CarryLoop (19 * (limb mid 31 >>> 7)) (fun j => if j = 31 then limb mid 31 &&& 127 else limb mid j) out

/-- The accumulators of `Mult` (40_field_arith.md R127): its two inner loops as two sums of words. -/
def convolution (a b : Fe) (i : Nat) : Word :=
  (∑ j ∈ Finset.range (i + 1), limb a j * limb b (i - j)) +
    ∑ j ∈ Finset.Ico (i + 1) 32, 38 * limb a j * limb b (i + 32 - j)

/-- The accumulators of the halved form of `Square` (40_field_arith.md R128): each cross product once, doubled, and for even `i`
the two squares in the middle. -/
def halvedConvolution (a : Fe) (i : Nat) : Word :=
  ((∑ j ∈ (Finset.range 32).filter (fun j => j < i - j), limb a j * limb a (i - j)) +
      ∑ j ∈ (Finset.Ico (i + 1) 32).filter (fun j => j < i + 32 - j), 38 * limb a j * limb a (i + 32 - j)) * 2 +
    if i % 2 = 0 then limb a (i / 2) * limb a (i / 2) + 38 * limb a (i / 2 + 16) * limb a (i / 2 + 16) else 0

/-- What `Freeze` does with `t = Add(a, MINUSP)` (40_field_arith.md R130): `a` where bit 7 of `t[31]` is 1, else `t`, limb 31 cut
to 8 bits. -/
def FreezeChooses (a out : Fe) : Prop :=
  ∃ t : Fe, CarryLoop 0 (fun j => limb a j + (if j = 0 then 19 else if j = 31 then 128 else 0)) t ∧
    (∀ j, j < 31 → limb out j = if (limb t 31).getLsbD 7 then limb a j else limb t j) ∧
    limb out 31 = (if (limb t 31).getLsbD 7 then limb a 31 else limb t 31) &&& 255

/-! ## Field terms -/

/-- The field value `V(a) mod P` a register stands for (40_field_arith.md R120). -/
def fieldOf (a : Fe) : ZMod Config.P := (value a : ZMod Config.P)

/-- The two accumulators of the ladder in field terms: `XZM` = (x2 : z2), `XZM1` = (x3 : z3) (42_ladder.md R171). -/
structure LadderPoint where
  x2 : ZMod Config.P
  z2 : ZMod Config.P
  x3 : ZMod Config.P
  z3 : ZMod Config.P

/-- The accumulators a state holds, in field terms (42_ladder.md R171). -/
def ladderPointOf (s : State) : LadderPoint := ⟨fieldOf s.f[4], fieldOf s.f[5], fieldOf s.f[6], fieldOf s.f[7]⟩

/-- One ladder step in field terms for the pair (x2 : z2) chosen for doubling and the other (x3 : z3): the doubled point and the
sum point (42_ladder.md R174). -/
def doubleAndAdd (x1 : ZMod Config.P) (p : LadderPoint) : LadderPoint where
  x2 := (p.x2 + p.z2) ^ 2 * (p.x2 - p.z2) ^ 2
  z2 := ((p.x2 + p.z2) ^ 2 - (p.x2 - p.z2) ^ 2) *
    ((p.x2 + p.z2) ^ 2 + 121665 * ((p.x2 + p.z2) ^ 2 - (p.x2 - p.z2) ^ 2))
  x3 := ((p.x3 + p.z3) * (p.x2 - p.z2) + (p.x3 - p.z3) * (p.x2 + p.z2)) ^ 2
  z3 := x1 * ((p.x3 + p.z3) * (p.x2 - p.z2) - (p.x3 - p.z3) * (p.x2 + p.z2)) ^ 2

/-- The two pairs exchanged when `b` = 1. -/
def swapPoint (b : Bool) (p : LadderPoint) : LadderPoint := if b then ⟨p.x3, p.z3, p.x2, p.z2⟩ else p

/-- What `F0` and the intermediate registers `F8`..`F29` hold at the end of a ladder step, which are the operands its sub-steps had:
every operand of `MUL` and `SQR` has limbs at most 511, the operand of `MULC` at most 384, every subtrahend of `SUB` is squeezed,
and every minuend and every operand of `ADD` is in byte form (42_ladder.md R177, 70_reset_and_hazards.md R291). These lie below the
bounds under which nothing wraps (40_field_arith.md R136). -/
def StepOperandsBounded (t : State) : Prop :=
  (∀ r ∈ ([0, 16, 17, 18, 19, 20, 21, 24, 25, 26, 27, 29] : List FReg), LimbsAtMost 511 t.f[r]) ∧
  LimbsAtMost 384 t.f[(27 : FReg)] ∧
  (∀ r ∈ ([9, 11, 21, 23] : List FReg), Squeezed t.f[r]) ∧
  (∀ r ∈ ([8, 9, 10, 11, 20, 22, 23, 28] : List FReg), ByteForm t.f[r])

/-- One ladder step in field terms with both selects (42_ladder.md R174). -/
def fieldStep (x1 : ZMod Config.P) (b : Bool) (p : LadderPoint) : LadderPoint :=
  swapPoint b (doubleAndAdd x1 (swapPoint b p))

/-- The steps for bits `n - 1` down to 0 of the scalar `k` (42_ladder.md R173, R176). -/
def fieldLadder (x1 : ZMod Config.P) (k : Nat) : Nat → LadderPoint → LadderPoint
  | 0, p => p
  | n + 1, p => fieldLadder x1 k n (fieldStep x1 (k.testBit n) p)

/-- The end of the whole ladder over X1 = `x1` for the low 255 bits of `k` (42_ladder.md R172, R176). -/
def fieldLadderEnd (x1 : ZMod Config.P) (k : Nat) : LadderPoint := fieldLadder x1 k Config.nStep ⟨1, 0, x1, 1⟩

/-- The result of the scalar multiplication in field terms, X · Z^(P-2) (44_scalarmult.md R204). -/
def x25519 (k : Nat) (u : ZMod Config.P) : ZMod Config.P := (fieldLadderEnd u k).x2 * (fieldLadderEnd u k).z2 ^ (Config.P - 2)

end Sys2Proof.Machine
end

