-- ==== Sys2Proof/Certificates/Slice0/Obligations.lean ====
section
/-! DEFINITION. The statements about LF-X25519 for the provers: `def Obligations.<Name> : Prop`, one for each entry of
OBLIGATIONS.json. The block has no memory (spec/20_memory.md R60), so a frame says what every register keeps: where it reads
`t = { s with f := t.f, cnt := t.cnt }`, every field of the state but the two named is unchanged. -/

open Sys2Proof Sys2Proof.Machine

/-! ## Encoding -/

/-- The worked encodings of 30_encoding.md R107: each command has the word printed, and the word decodes to it. -/
def Obligations.WorkedEncodingsDecode : Prop :=
  ∀ p ∈ ([(.add 3 1 2, 0x10184400), (.mul 2 0 1, 0x12100200), (.sqr 20 16, 0x13A40000), (.frz 2, 0x16100000),
      (.setc 0 9, 0x21000009), (.sel 4 5 2 3 true, 0x30452301), (.recip 1 1, 0x50084000), (.smult, 0x60000000)] :
      List (Instr × Word)),
    encode p.1 = p.2 ∧ decode p.2 = .instr p.1

/-- No bit of an encoding is dropped: decoding the encoding of any command, with any operands, gives it back
(30_encoding.md R90 to R98). -/
def Obligations.DecodeOfEncode : Prop := ∀ i : Instr, decode (encode i) = .instr i

/-- Each word has one meaning: a word that decodes to a command is that command's encoding (30_encoding.md R98 to R100). -/
def Obligations.EncodeOfDecode : Prop := ∀ (w : Word) (i : Instr), decode w = .instr i → encode i = w

/-- 30_encoding.md R99: for any word either exactly one row of the opcode map matches, and it decodes to a command of that row, or
none does, and it decodes to no command. -/
def Obligations.DecodeFollowsOpcodeMap : Prop :=
  ∀ w : Word,
    (∃ o, matchesRow o w = true ∧ (∀ o', matchesRow o' w = true → o' = o) ∧ ∃ i, decode w = .instr i ∧ opcode i = o) ∨
      ((∀ o, matchesRow o w = false) ∧ ∀ i, decode w ≠ .instr i)

/-- 30_encoding.md R100: a word that matches no row, offered when idle and without a recorded error, raises `E_ILLCMD` with the
word and changes nothing else; that covers every opcode in no row, which are 234 of the 256, and every word of a listed opcode with
a non-zero bit in a zero field of its format; the all-zero and the all-ones word are illegal. -/
def Obligations.IllegalWordRefused : Prop :=
  (∀ (s : State) (w : Word), s.busy = false → s.err = .none → (∀ o, matchesRow o w = false) →
      HostWrites s 0x000 w { s with err := .illCmd, errInfo := w }) ∧
    (∀ w : Word, opcodeOf (slice 24 8 w) = none → ∀ o, matchesRow o w = false) ∧
    (∀ (w : Word) (o : Opcode), opcodeOf (slice 24 8 w) = some o → zeroFieldsClear w o.format = false →
      ∀ o', matchesRow o' w = false) ∧
    ((List.range 256).filter fun c => opcodeOf (BitVec.ofNat 8 c) = none).length = 234 ∧
    (∀ o, matchesRow o 0x00000000 = false) ∧ (∀ o, matchesRow o 0xFFFFFFFF = false)

/-! ## Offering and completing a command -/

/-- 60_exceptions.md R244: what a write of `w` to `CMD` does, case by case, and how an accepted command completes. -/
def Obligations.OfferOutcome : Prop :=
  ∀ (s : State) (w : Word),
    (s.busy = true → HostWrites s 0x000 w (s.raise .busy 0x000)) ∧
    (s.busy = false → s.err ≠ .none → HostWrites s 0x000 w s) ∧
    (s.busy = false → s.err = .none →
      ((∀ o, matchesRow o w = false) → HostWrites s 0x000 w (s.raise .illCmd w)) ∧
      (∀ pd qd pr ps b, decode w = .instr (.sel pd qd pr ps b) → pd = qd → HostWrites s 0x000 w (s.raise .operand w)) ∧
      (∀ rd ra : FReg, decode w = .instr (.recip rd ra) → (4 ≤ rd.val ∧ rd.val ≤ 13) ∨ (4 ≤ ra.val ∧ ra.val ≤ 13) →
        HostWrites s 0x000 w (s.raise .operand w)) ∧
      (decode w = .instr .lstep → s.pos = 255 → HostWrites s 0x000 w (s.raise .ladder w)) ∧
      (∀ i, decode w = .instr i → (∀ pd pr ps b, i ≠ .sel pd pd pr ps b) →
        (∀ rd ra : FReg, i = .recip rd ra → ¬(4 ≤ rd.val ∧ rd.val ≤ 13) ∧ ¬(4 ≤ ra.val ∧ ra.val ≤ 13)) →
        (i = .lstep → s.pos ≠ 255) →
        HostWrites s 0x000 w { s with cmdr := w, busy := true, done := false } ∧
        ∃ t, exec i s = .next t ∧
          step { s with cmdr := w, busy := true, done := false, inputs := .coreTurn :: s.inputs } =
            .next { t with cmdr := w, busy := false, done := true }))

/-- 41_select.md R161, 43_recip.md R191 and 30_encoding.md R101: the combinations refused with `E_OPERAND` or `E_LADDER` when
offered to an idle block without a recorded error, and that every other command is accepted there. -/
def Obligations.ForbiddenOperandsRefused : Prop :=
  ∀ s : State, s.busy = false → s.err = .none →
    (∀ p r q b, HostWrites s 0x000 (encode (.sel p p r q b))
      { s with err := .operand, errInfo := encode (.sel p p r q b) }) ∧
    (∀ rd ra : FReg, (4 ≤ rd.val ∧ rd.val ≤ 13) ∨ (4 ≤ ra.val ∧ ra.val ≤ 13) →
      HostWrites s 0x000 (encode (.recip rd ra)) { s with err := .operand, errInfo := encode (.recip rd ra) }) ∧
    (s.pos = 255 → HostWrites s 0x000 0x42000000 { s with err := .ladder, errInfo := 0x42000000 }) ∧
    (∀ i : Instr, (∀ p r q b, i ≠ .sel p p r q b) →
      (∀ rd ra : FReg, i = .recip rd ra → ¬(4 ≤ rd.val ∧ rd.val ≤ 13) ∧ ¬(4 ≤ ra.val ∧ ra.val ≤ 13)) →
      (i = .lstep → s.pos ≠ 255) →
      HostWrites s 0x000 (encode i) { s with cmdr := encode i, busy := true, done := false })

/-- The model's choice of notes/assumptions/6.md, for states no run reaches: a command whose operands or position R244 refuses
raises that error when it is executed, with its own word, and has no data effect. -/
def Obligations.ExecRaisesForbidden : Prop :=
  ∀ s : State,
    (∀ p r q b, exec (.sel p p r q b) s = .next (s.raise .operand (encode (.sel p p r q b)))) ∧
    (∀ rd ra : FReg, (4 ≤ rd.val ∧ rd.val ≤ 13) ∨ (4 ≤ ra.val ∧ ra.val ≤ 13) →
      exec (.recip rd ra) s = .next (s.raise .operand (encode (.recip rd ra)))) ∧
    (s.pos = 255 → exec .lstep s = .next (s.raise .ladder 0x42000000))

/-- 20_memory.md R68: when the core steps, with `BUSY` = 1 and a command in `CMDR`, the step is that command's `exec`, and around it
`BUSY <- 0` and `DONE <- 1`. Two things here are the model's: that the step is the core's when nothing is asked (`inputs` = [])
is its reading of weak fairness (notes/assumptions/2.md, DEDUCED), and that a word placed by `withFetchWord` is latched as an
accepted command with the core's turn next is its choice (notes/assumptions/7.md, DESIGN CHOICE). -/
def Obligations.StepRunsLatchedCommand : Prop :=
  (∀ (s : State) (i : Instr), s.busy = true → decode s.cmdr = .instr i →
      (s.inputs = [] → step s = finishCommand (exec i s)) ∧
      (∀ rest, s.inputs = .coreTurn :: rest → step s = finishCommand (exec i { s with inputs := rest }))) ∧
    (∀ (s : State) (w : Nat) (i : Instr), decodeTableWord 32 w = some i →
      step (s.withFetchWord 32 w) =
        finishCommand (exec i { s with cmdr := BitVec.ofNat 32 w, busy := true, done := false })) ∧
    (∀ t : State, finishCommand (.next t) = .next { t with busy := false, done := true })

/-- 20_memory.md R68: a core step exists exactly when `BUSY` = 1, and when `BUSY` = 0 the core does nothing. That the step is the
core's when nothing is asked (`inputs` = []), busy or idle, in the first and the third clause, is the model's reading of weak
fairness (notes/assumptions/2.md, DEDUCED). From a consistent state the command then completes in that one step. -/
def Obligations.CoreStepCompletes : Prop :=
  (∀ s : State, Consistent s → s.busy = true → s.inputs = [] →
      ∃ i t, decode s.cmdr = .instr i ∧ exec i s = .next t ∧ step s = .next { t with busy := false, done := true }) ∧
    (∀ (s : State) (rest : List Input), s.busy = false → s.inputs = .coreTurn :: rest → step s = .next { s with inputs := rest }) ∧
    (∀ s : State, s.busy = false → s.inputs = [] → step s = .next s)

/-! ## Field arithmetic -/

/-- 40_field_arith.md R124. -/
def Obligations.AddResult : Prop :=
  ∀ (rd ra rb : FReg) (s : State), ∃ t, exec (.add rd ra rb) s = .next t ∧
    CarryLoop 0 (fun j => limb s.f[ra] j + limb s.f[rb] j) t.f[rd] ∧
    (LimbsAtMost (2 ^ 30) s.f[ra] → LimbsAtMost (2 ^ 30) s.f[rb] → value t.f[rd] = value s.f[ra] + value s.f[rb]) ∧
    (∀ j, j < 31 → (limb t.f[rd] j).toNat ≤ 255) ∧
    RegsKept [rd] s t ∧ Counted .add s t ∧ t = { s with f := t.f, cnt := t.cnt }

/-- 40_field_arith.md R125. -/
def Obligations.SubResult : Prop :=
  ∀ (rd ra rb : FReg) (s : State), ∃ t, exec (.sub rd ra rb) s = .next t ∧
    CarryLoop 218 (fun j => if j = 31 then limb s.f[ra] 31 - limb s.f[rb] 31 else limb s.f[ra] j + 65280 - limb s.f[rb] j)
      t.f[rd] ∧
    (LimbsAtMost (2 ^ 30) s.f[ra] → ByteForm s.f[rb] → (limb s.f[rb] 31).toNat ≤ 254 →
      value t.f[rd] + value s.f[rb] = value s.f[ra] + 2 * Config.P) ∧
    (∀ j, j < 31 → (limb t.f[rd] j).toNat ≤ 255) ∧
    (ByteForm s.f[ra] → Squeezed s.f[rb] → (limb t.f[rd] 31).toNat ≤ 256 + (limb s.f[ra] 31).toNat) ∧
    (ra = rb → t.f[rd] = fe3 218 255 255) ∧
    RegsKept [rd] s t ∧ Counted .sub s t ∧ t = { s with f := t.f, cnt := t.cnt }

/-- 40_field_arith.md R126. -/
def Obligations.SqueezeResult : Prop :=
  ∀ (rd : FReg) (s : State), ∃ t, exec (.sqz rd) s = .next t ∧
    SqueezeLoops (limb s.f[rd]) t.f[rd] ∧
    Squeezed t.f[rd] ∧
    (LimbsAtMost (2 ^ 32 - 2 ^ 24) s.f[rd] → fieldOf t.f[rd] = fieldOf s.f[rd] ∧ value t.f[rd] < 2 ^ 255 + 2 ^ 248) ∧
    (s.f[rd] = fe3 0xED 0xFF 0x7F → t.f[rd] = fe3 0xED 0xFF 0x7F) ∧
    RegsKept [rd] s t ∧ Counted .sqz s t ∧ t = { s with f := t.f, cnt := t.cnt }

/-- 40_field_arith.md R127. -/
def Obligations.MulResult : Prop :=
  ∀ (rd ra rb : FReg) (s : State), ∃ t, exec (.mul rd ra rb) s = .next t ∧
    (∃ acc : Fe, (∀ i, i < 32 → limb acc i = convolution s.f[ra] s.f[rb] i) ∧ SqueezeLoops (limb acc) t.f[rd]) ∧
    Squeezed t.f[rd] ∧
    (LimbsAtMost 1900 s.f[ra] → LimbsAtMost 1900 s.f[rb] → fieldOf t.f[rd] = fieldOf s.f[ra] * fieldOf s.f[rb]) ∧
    exec (.mul rd rb ra) s = .next t ∧
    RegsKept [rd] s t ∧ Counted .mul s t ∧ t = { s with f := t.f, cnt := t.cnt }

/-- 40_field_arith.md R128: the result of `MUL` of the register with itself, and for every input, wrapped or not, the halved form's
accumulators. -/
def Obligations.SqrResult : Prop :=
  ∀ (rd ra : FReg) (s : State), ∃ t, exec (.sqr rd ra) s = .next t ∧
    (∃ u, exec (.mul rd ra ra) s = .next u ∧ u.f = t.f) ∧
    (∃ acc : Fe, (∀ i, i < 32 → limb acc i = halvedConvolution s.f[ra] i) ∧ SqueezeLoops (limb acc) t.f[rd]) ∧
    Squeezed t.f[rd] ∧
    (LimbsAtMost 1900 s.f[ra] → fieldOf t.f[rd] = fieldOf s.f[ra] ^ 2) ∧
    RegsKept [rd] s t ∧ Counted .sqr s t ∧ t = { s with f := t.f, cnt := t.cnt }

/-- 40_field_arith.md R129. -/
def Obligations.MulcResult : Prop :=
  ∀ (rd ra : FReg) (s : State), ∃ t, exec (.mulc rd ra) s = .next t ∧
    SqueezeLoops (fun j => 121665 * limb s.f[ra] j) t.f[rd] ∧
    Squeezed t.f[rd] ∧
    (LimbsAtMost 35000 s.f[ra] → fieldOf t.f[rd] = 121665 * fieldOf s.f[ra]) ∧
    RegsKept [rd] s t ∧ Counted .mulc s t ∧ t = { s with f := t.f, cnt := t.cnt }

/-- 40_field_arith.md R130. -/
def Obligations.FreezeResult : Prop :=
  ∀ (rd : FReg) (s : State), ∃ t, exec (.frz rd) s = .next t ∧
    FreezeChooses s.f[rd] t.f[rd] ∧
    (ByteForm s.f[rd] → value s.f[rd] < 2 * Config.P →
      Canonical t.f[rd] ∧ value t.f[rd] = value s.f[rd] % Config.P ∧
        ∃ u, exec (.frz rd) t = .next u ∧ u.f[rd] = t.f[rd]) ∧
    (Squeezed s.f[rd] → value s.f[rd] < 2 * Config.P) ∧
    RegsKept [rd] s t ∧ Counted .frz s t ∧ t = { s with f := t.f, cnt := t.cnt }

/-- The examples and corner cases printed with 40_field_arith.md R124 to R130, as the functions the commands apply. -/
def Obligations.FieldArithmeticExamples : Prop :=
  feAdd (fe3 1 0 0) (fe3 2 0 0) = fe3 3 0 0 ∧
  feAdd (fe3 255 255 255) (fe3 255 255 255) = fe3 254 255 511 ∧
  feAdd (fe3 0 0 0xFFFFFFFF) (fe3 0 0 1) = fe3 0 0 0 ∧
  feAdd (fe3 0xFFFFFFFF 0 0) (fe3 0 0 0) = (((fe3 255 0 0).set 1 255).set 2 255).set 3 255 ∧
  feSub (fe3 5 0 0) (fe3 7 0 0) = fe3 216 255 255 ∧
  feSub (fe3 0 0 0) (fe3 0 0 255) = fe3 218 255 0 ∧
  feSub (fe3 0 0 0) (fe3 0 0 256) = fe3 218 255 0xFFFFFFFF ∧
  feSqueeze (fe3 255 255 255) = fe3 0x12 0 0x80 ∧
  feSqueeze (fe3 0 0 128) = fe3 19 0 0 ∧
  feSqueeze (fe3 0xED 255 255) = fe3 0 0 128 ∧
  feMult (fe3 2 0 0) (fe3 3 0 0) = fe3 6 0 0 ∧
  feMult (fe3 0 0 1) ((fe3 0 0 0).set 1 1) = fe3 38 0 0 ∧
  feMult (fe3 0xED 255 0x7F) (fe3 7 0 0) = fe3 0xED 255 0x7F ∧
  feMult (fe3 255 255 255) (fe3 255 255 255) = (fe3 0x46 0 0x80).set 1 0x05 ∧
  feSquare (fe3 3 0 0) = fe3 9 0 0 ∧
  feMulc (fe3 1 0 0) = ((fe3 0x41 0 0).set 1 0xDB).set 2 0x01 ∧
  feMulc (fe3 0xEC 255 0x7F) = ((fe3 0xAC 255 0x7F).set 1 0x24).set 2 0xFE ∧
  feFreeze (fe3 0 0 0) = fe3 0 0 0 ∧
  feFreeze (fe3 0xEC 255 0x7F) = fe3 0xEC 255 0x7F ∧
  feFreeze (fe3 0xED 255 0x7F) = fe3 0 0 0 ∧
  feFreeze (fe3 0xEE 255 0x7F) = fe3 1 0 0 ∧
  feFreeze (fe3 255 255 0x7F) = fe3 18 0 0 ∧
  feFreeze (fe3 5 0 128) = fe3 24 0 0 ∧
  feFreeze (fe3 0xD9 255 255) = fe3 0xEC 255 0x7F ∧
  feFreeze (fe3 0xDA 255 255) = fe3 0xED 255 0x7F ∧
  feFreeze (fe3 255 255 255) = fe3 255 255 255 ∧
  feFreeze (fe3 0 0 300) = fe3 0 0 44 ∧
  feFreeze (fe3 300 0 0) = fe3 300 0 0

/-! ## Select and moves -/

/-- 41_select.md R160, with R10 and R21: for `PD` ≠ `QD` the two destination pairs take the two source pairs as they were before, in
order when `B` = 0 and exchanged when `B` = 1, bit for bit. -/
def Obligations.SelectResult : Prop :=
  (∀ (pd qd pr ps : PReg) (b : Bool) (s : State), pd ≠ qd → ∃ t, exec (.sel pd qd pr ps b) s = .next t ∧
    t.f[2 * pd.val] = (if b then s.f[2 * ps.val] else s.f[2 * pr.val]) ∧
    t.f[2 * pd.val + 1] = (if b then s.f[2 * ps.val + 1] else s.f[2 * pr.val + 1]) ∧
    t.f[2 * qd.val] = (if b then s.f[2 * pr.val] else s.f[2 * ps.val]) ∧
    t.f[2 * qd.val + 1] = (if b then s.f[2 * pr.val + 1] else s.f[2 * ps.val + 1]) ∧
    (∀ r : FReg, r.val / 2 ≠ pd.val → r.val / 2 ≠ qd.val → t.f[r] = s.f[r]) ∧
    Counted .sel s t ∧ t = { s with f := t.f, cnt := t.cnt }) ∧
  (∀ (r s : Pair) (b : Bool), selectPairs (selectPairs r s b).1 (selectPairs r s b).2 b = (r, s))

/-- 45_move_control.md R220. -/
def Obligations.MovResult : Prop :=
  (∀ (rd ra : FReg) (s : State), ∃ t, exec (.mov rd ra) s = .next t ∧ t.f[rd] = s.f[ra] ∧ (rd = ra → t = s) ∧
    RegsKept [rd] s t ∧ t = { s with f := t.f }) ∧
  decode 0x20010000 = .instr (.mov 0 4)

/-- 45_move_control.md R221. -/
def Obligations.SetcResult : Prop :=
  (∀ (rd : FReg) (imm : Byte) (s : State), ∃ t, exec (.setc rd imm) s = .next t ∧
    limb t.f[rd] 0 = imm.setWidth 32 ∧ (∀ j, 1 ≤ j → j ≤ 31 → limb t.f[rd] j = 0) ∧
    value t.f[rd] = imm.toNat ∧ Canonical t.f[rd] ∧
    RegsKept [rd] s t ∧ t = { s with f := t.f }) ∧
  decode 0x21000009 = .instr (.setc 0 9)

/-- 44_scalarmult.md R200: byte `j` of the point becomes limb `j`, nothing is masked or reduced. -/
def Obligations.LoadPointResult : Prop :=
  ∀ (rd : FReg) (s : State), ∃ t, exec (.ldpt rd) s = .next t ∧
    (∀ j : Fin 32, limb t.f[rd] j.val = (s.pt[j]).setWidth 32) ∧ ByteForm t.f[rd] ∧
    RegsKept [rd] s t ∧ t = { s with f := t.f }

/-- 44_scalarmult.md R201: the low 8 bits of each limb, and for a register in canonical form its integer. -/
def Obligations.StoreResultResult : Prop :=
  ∀ (ra : FReg) (s : State), ∃ t, exec (.stq ra) s = .next t ∧
    (∀ j : Fin 32, t.q[j] = (limb s.f[ra] j.val).setWidth 8) ∧
    (ByteForm s.f[ra] → bytesValue t.q = value s.f[ra]) ∧
    t = { s with q := t.q }

/-! ## Control commands -/

/-- 45_move_control.md R224. -/
def Obligations.NopRuns : Prop :=
  (∀ s : State, exec .nop s = .next s) ∧
  (∀ s : State, s.busy = false → s.err = .none →
    HostWrites s 0x000 0x01000000 { s with cmdr := 0x01000000, busy := true, done := false } ∧
    step { s with cmdr := 0x01000000, busy := true, done := false, inputs := .coreTurn :: s.inputs } =
      .next { s with cmdr := 0x01000000, busy := false, done := true })

/-- 45_move_control.md R225: every data register zero, `POS` 255, and nothing else changed. -/
def Obligations.WipeResult : Prop :=
  ∀ s : State, ∃ t, exec .wipe s = .next t ∧
    (∀ (r : FReg) (j : Fin 32), (t.f[r])[j] = 0) ∧
    (∀ i : Fin 32, t.n[i] = 0 ∧ t.e[i] = 0 ∧ t.pt[i] = 0 ∧ t.q[i] = 0) ∧ t.pos = 255 ∧
    t = { s with f := t.f, n := t.n, e := t.e, pt := t.pt, q := t.q, pos := t.pos } ∧ encode .wipe = 0x02000000

/-- 45_move_control.md R226. -/
def Obligations.ClearCountersResult : Prop :=
  ∀ s : State, ∃ t, exec .clrcnt s = .next t ∧ (∀ k : Fin 9, t.cnt[k] = 0) ∧ t = { s with cnt := t.cnt }

/-! ## Clamping and the ladder -/

/-- 42_ladder.md R170. -/
def Obligations.ClampResult : Prop :=
  (∀ s : State, ∃ t, exec .clamp s = .next t ∧
    t.e[0] = s.n[0] &&& 248 ∧ t.e[31] = (s.n[31] &&& 127) ||| 64 ∧
    (∀ i : Fin 32, 1 ≤ i.val → i.val ≤ 30 → t.e[i] = s.n[i]) ∧
    2 ^ 254 ≤ bytesValue t.e ∧ bytesValue t.e ≤ 2 ^ 255 - 8 ∧ bytesValue t.e % 8 = 0 ∧
    t = { s with e := t.e }) ∧
  State.reset.e = .replicate 32 0 ∧
  (∀ n : Bytes32, clampScalar (clampScalar n) = clampScalar n) ∧
  clampScalar (.replicate 32 0) = (Vector.replicate 32 0).set 31 0x40 ∧
  clampScalar (.replicate 32 0xFF) = ((Vector.replicate 32 0xFF).set 0 0xF8).set 31 0x7F ∧
  clampScalar ((Vector.replicate 32 0).set 0 1) = clampScalar (.replicate 32 0)

/-- 42_ladder.md R173 and 00_scope.md R7: bit `i & 7` of byte `i >> 3` of the clamped scalar is bit `i` of its little-endian
integer, for every position. -/
def Obligations.ScalarBitIsIntegerBit : Prop :=
  ∀ (e : Bytes32) (i : Byte), scalarBit e i = (bytesValue e).testBit i.toNat

/-- 42_ladder.md R172. -/
def Obligations.LadderInitResult : Prop :=
  ∀ s : State, ∃ t, exec .linit s = .next t ∧
    (∃ u, execAll [.setc 4 1, .setc 5 0, .mov 6 0, .setc 7 1] s = .next u ∧ t = { u with pos := 254 }) ∧
    t.f[4] = fe3 1 0 0 ∧ t.f[5] = fe3 0 0 0 ∧ t.f[6] = s.f[0] ∧ t.f[7] = fe3 1 0 0 ∧ t.pos = 254 ∧
    RegsKept [4, 5, 6, 7] s t ∧ t = { s with f := t.f, pos := t.pos }

/-- 42_ladder.md R174: with a step pending, `LSTEP` is the 20 sub-steps of its listing with the bit of `E` that `POS` names as the
bit of both `SEL`s, then `POS` goes down by one and the step is counted. -/
def Obligations.LadderStepRunsItsListing : Prop :=
  ∀ s : State, s.pos ≠ 255 →
    ∃ u, execAll
        [.sel 4 5 2 3 ((bytesValue s.e).testBit s.pos.toNat), .add 16 8 9, .sub 17 8 9, .add 18 10 11, .sub 19 10 11,
         .sqr 20 16, .sqr 21 17, .mul 22 18 17, .mul 23 19 16, .add 24 22 23, .sub 25 22 23, .sqr 26 25, .sub 27 20 21,
         .mulc 28 27, .add 29 28 20, .mul 12 20 21, .mul 13 27 29, .sqr 14 24, .mul 15 26 0,
         .sel 2 3 6 7 ((bytesValue s.e).testBit s.pos.toNat)] s = .next u ∧
      exec .lstep s = .next { u with pos := s.pos - 1, cnt := u.cnt.set 8 (u.cnt[8] + 1) } ∧
      (∀ r : FReg, r.val < 4 ∨ 29 < r.val → u.f[r] = s.f[r]) ∧
      CountedBy [4, 4, 5, 4, 1, 0, 0, 2, 0] s u ∧ u = { s with f := u.f, cnt := u.cnt }

/-- 42_ladder.md R174 in field terms: with X1 and the accumulators bounded as they are in every ladder over a byte-form X1, one step
with `POS` in 0..254 is the doubling and the differential addition of the formulas, and the accumulators come out squeezed. -/
def Obligations.LadderStepFieldFormulas : Prop :=
  ∀ s : State, s.pos ≠ 255 → LimbsAtMost 1900 s.f[0] → ByteForm s.f[4] → Squeezed s.f[5] → ByteForm s.f[6] → Squeezed s.f[7] →
    ∃ t, exec .lstep s = .next t ∧
      ladderPointOf t = fieldStep (fieldOf s.f[0]) ((bytesValue s.e).testBit s.pos.toNat) (ladderPointOf s) ∧
      Squeezed t.f[4] ∧ Squeezed t.f[5] ∧ Squeezed t.f[6] ∧ Squeezed t.f[7] ∧ t.f[0] = s.f[0] ∧ t.pos = s.pos - 1

/-- 42_ladder.md R176: `LADDER` is `LINIT`, 255 times `LSTEP` and two moves, for every content of `E` and `F0`; its result is
squeezed, `POS` ends at 255, and nothing but `F`, `POS` and `CNT` changes. -/
def Obligations.LadderRunsItsListing : Prop :=
  ∀ s : State, ∃ t, exec .ladder s = .next t ∧
    execAll ([.linit] ++ repeated 255 [.lstep] ++ [.mov 0 4, .mov 1 5]) s = .next t ∧
    t.f[0] = t.f[4] ∧ t.f[1] = t.f[5] ∧ Squeezed t.f[0] ∧ Squeezed t.f[1] ∧ t.pos = 255 ∧
    RegsKept [0, 1, 4, 5, 6, 7, 8, 9, 10, 11, 12, 13, 14, 15, 16, 17, 18, 19, 20, 21, 22, 23, 24, 25, 26, 27, 28, 29] s t ∧
    CountedBy [1020, 1020, 1275, 1020, 255, 0, 0, 510, 255] s t ∧ t = { s with f := t.f, pos := t.pos, cnt := t.cnt }

/-- 42_ladder.md R178: the ladder issued by the host as 259 commands, each a write to `CMD` and a core step, gives exactly the state
`CLAMP` then `LADDER` gives, counters included; only `CMDR` differs. -/
def Obligations.HostSteppedLadderAgrees : Prop :=
  ∀ s : State, s.busy = false → s.err = .none →
    ∃ t, Sys2Proof.core.run 518
          { s with inputs := issueAll ([.clamp, .linit] ++ repeated 255 [.lstep] ++ [.mov 0 4, .mov 1 5]) } =
        .next { t with cmdr := 0x20094000 } ∧
      Sys2Proof.core.run 4 { s with inputs := issueAll [.clamp, .ladder] } = .next t

/-- 42_ladder.md R176, R177: over a byte-form X1, and for every content of `E`, the ladder computes X and Z of the field ladder over
the low 255 bits of the integer of `E`, and in each of its 255 steps every operand stays within the bounds of
70_reset_and_hazards.md R291, below which no word wraps. -/
def Obligations.LadderComputesFieldLadder : Prop :=
  ∀ s : State, ByteForm s.f[0] →
    (∃ t, exec .ladder s = .next t ∧
      fieldOf t.f[0] = (fieldLadderEnd (fieldOf s.f[0]) (bytesValue s.e)).x2 ∧
      fieldOf t.f[1] = (fieldLadderEnd (fieldOf s.f[0]) (bytesValue s.e)).z2 ∧
      fieldOf t.f[6] = (fieldLadderEnd (fieldOf s.f[0]) (bytesValue s.e)).x3 ∧
      fieldOf t.f[7] = (fieldLadderEnd (fieldOf s.f[0]) (bytesValue s.e)).z3) ∧
    ∀ n, n < 255 → ∃ u, execAll ([.linit] ++ repeated (n + 1) [.lstep]) s = .next u ∧ StepOperandsBounded u

/-! ## Inversion and scalar multiplication -/

/-- 43_recip.md R190: for operands outside F4..F13, `RECIP` is the 265 squarings and multiplications of its listing; the result is
squeezed, the counters move by 254 and 11, and no register but F4..F13 and the destination changes. -/
def Obligations.RecipRunsItsListing : Prop :=
  ∀ (rd ra : FReg) (s : State), ¬(4 ≤ rd.val ∧ rd.val ≤ 13) → ¬(4 ≤ ra.val ∧ ra.val ≤ 13) →
    ∃ t, exec (.recip rd ra) s = .next t ∧
      execAll
        ([.sqr 4 ra, .sqr 13 4, .sqr 12 13, .mul 5 12 ra, .mul 6 5 4, .sqr 12 6, .mul 7 12 5,
          .sqr 12 7, .sqr 13 12, .sqr 12 13, .sqr 13 12, .sqr 12 13, .mul 8 12 7,
          .sqr 12 8, .sqr 13 12] ++ repeated 4 [.sqr 12 13, .sqr 13 12] ++ [.mul 9 13 8,
          .sqr 12 9, .sqr 13 12] ++ repeated 9 [.sqr 12 13, .sqr 13 12] ++ [.mul 12 13 9,
          .sqr 13 12, .sqr 12 13] ++ repeated 4 [.sqr 13 12, .sqr 12 13] ++ [.mul 10 12 8,
          .sqr 12 10, .sqr 13 12] ++ repeated 24 [.sqr 12 13, .sqr 13 12] ++ [.mul 11 13 10,
          .sqr 13 11, .sqr 12 13] ++ repeated 49 [.sqr 13 12, .sqr 12 13] ++ [.mul 13 12 11,
          .sqr 12 13, .sqr 13 12] ++ repeated 24 [.sqr 12 13, .sqr 13 12] ++ [.mul 12 13 10,
          .sqr 13 12, .sqr 12 13, .sqr 13 12, .sqr 12 13, .sqr 13 12, .mul rd 13 6]) s = .next t ∧
      Squeezed t.f[rd] ∧
      (∀ r : FReg, r ≠ rd → ¬(4 ≤ r.val ∧ r.val ≤ 13) → t.f[r] = s.f[r]) ∧
      CountedBy [0, 0, 11, 254, 0, 0, 0, 0, 0] s t ∧ t = { s with f := t.f, cnt := t.cnt }

/-- 43_recip.md R190 in field terms: with the limbs of z at most 1900, `RECIP` computes z^(P-2), and every scratch register ends with
the power of z its listing names. -/
def Obligations.RecipComputesPower : Prop :=
  ∀ (rd ra : FReg) (s : State), ¬(4 ≤ rd.val ∧ rd.val ≤ 13) → ¬(4 ≤ ra.val ∧ ra.val ≤ 13) → LimbsAtMost 1900 s.f[ra] →
    ∃ t, exec (.recip rd ra) s = .next t ∧
      fieldOf t.f[rd] = fieldOf s.f[ra] ^ (Config.P - 2) ∧
      fieldOf t.f[4] = fieldOf s.f[ra] ^ 2 ∧ fieldOf t.f[5] = fieldOf s.f[ra] ^ 9 ∧
      fieldOf t.f[6] = fieldOf s.f[ra] ^ 11 ∧ fieldOf t.f[7] = fieldOf s.f[ra] ^ (2 ^ 5 - 1) ∧
      fieldOf t.f[8] = fieldOf s.f[ra] ^ (2 ^ 10 - 1) ∧ fieldOf t.f[9] = fieldOf s.f[ra] ^ (2 ^ 20 - 1) ∧
      fieldOf t.f[10] = fieldOf s.f[ra] ^ (2 ^ 50 - 1) ∧ fieldOf t.f[11] = fieldOf s.f[ra] ^ (2 ^ 100 - 1) ∧
      fieldOf t.f[12] = fieldOf s.f[ra] ^ (2 ^ 254 - 16) ∧ fieldOf t.f[13] = fieldOf s.f[ra] ^ (2 ^ 255 - 32)

/-- 44_scalarmult.md R204: `SMULT` is the seven commands of its listing, for every input. -/
def Obligations.ScalarMultRunsItsListing : Prop :=
  ∀ s : State, ∃ t, exec .smult s = .next t ∧
    execAll [.clamp, .ldpt 0, .ladder, .recip 1 1, .mul 2 0 1, .frz 2, .stq 2] s = .next t ∧
    t.e = clampScalar s.n ∧ t.pos = 255 ∧ t.f[2] = feOfBytes t.q ∧ Squeezed t.f[0] ∧ Squeezed t.f[1] ∧
    (∀ r : FReg, r = 3 ∨ r = 30 ∨ r = 31 → t.f[r] = s.f[r]) ∧
    t = { s with f := t.f, e := t.e, q := t.q, pos := t.pos, cnt := t.cnt }

/-- 44_scalarmult.md R204, the result: for every scalar and every point, `Q` is the canonical encoding of X · Z^(P-2), where (X, Z) is
the field ladder's end for the clamped scalar over the point's integer reduced modulo P. -/
def Obligations.ScalarMultComputesX25519 : Prop :=
  ∀ s : State, ∃ t, exec .smult s = .next t ∧
    (bytesValue t.q : ZMod Config.P) = x25519 (bytesValue (clampScalar s.n)) (bytesValue s.pt : ZMod Config.P) ∧
    bytesValue t.q < Config.P

/-- 44_scalarmult.md R205: `SMULTB` is `SMULT`'s listing with `SETC F0, #9` for `LDPT F0`; it gives what `SMULT` gives with `PT` = 9,
and neither reads nor writes `PT`. -/
def Obligations.BaseMultIsScalarMultOfNine : Prop :=
  ∀ s : State, ∃ t u, exec .smultb s = .next t ∧
    execAll [.clamp, .setc 0 9, .ladder, .recip 1 1, .mul 2 0 1, .frz 2, .stq 2] s = .next t ∧
    exec .smult { s with pt := (Vector.replicate 32 0).set 0 9 } = .next u ∧
    t = { u with pt := s.pt } ∧
    ∀ p : Bytes32, exec .smultb { s with pt := p } = .next { t with pt := p }

/-- 44_scalarmult.md R206, its rows with result zero: for every scalar, a point whose integer is 0, 1 or -1 modulo P gives `Q` all
zero. -/
def Obligations.SmallOrderPointsGiveZero : Prop :=
  ∀ s : State,
    ((bytesValue s.pt : ZMod Config.P) = 0 ∨ (bytesValue s.pt : ZMod Config.P) = 1 ∨ (bytesValue s.pt : ZMod Config.P) = -1) →
    ∃ t, exec .smult s = .next t ∧ t.q = .replicate 32 0

/-- 70_reset_and_hazards.md R296: the numbers of primitive executions of each macro command, for every input. -/
def Obligations.OperationCountsFixed : Prop :=
  ∀ s : State,
    (s.pos ≠ 255 → ∃ t, exec .lstep s = .next t ∧ CountedBy [4, 4, 5, 4, 1, 0, 0, 2, 1] s t) ∧
    (∃ t, exec .ladder s = .next t ∧ CountedBy [1020, 1020, 1275, 1020, 255, 0, 0, 510, 255] s t) ∧
    (∀ rd ra : FReg, ¬(4 ≤ rd.val ∧ rd.val ≤ 13) → ¬(4 ≤ ra.val ∧ ra.val ≤ 13) →
      ∃ t, exec (.recip rd ra) s = .next t ∧ CountedBy [0, 0, 11, 254, 0, 0, 0, 0, 0] s t) ∧
    (∃ t, exec .smult s = .next t ∧ CountedBy [1020, 1020, 1287, 1274, 255, 0, 1, 510, 255] s t) ∧
    (∃ t, exec .smultb s = .next t ∧ CountedBy [1020, 1020, 1287, 1274, 255, 0, 1, 510, 255] s t)

/-! ## Which steps write which register -/

/-- 10_state.md R31: what each command leaves in `POS`, and that nothing but a command that completes and reset changes it. That
`LSTEP` at `POS` = 255, which the spec refuses when it is offered, leaves 255 is the model's choice (notes/assumptions/6.md), and
that the core steps when nothing is asked is its reading of fairness (notes/assumptions/2.md). -/
def Obligations.PositionRule : Prop :=
  State.reset.pos = 255 ∧
  (∀ (i : Instr) (s t : State), exec i s = .next t →
    t.pos = (if i = .linit then 254 else if i = .wipe ∨ i = .ladder ∨ i = .smult ∨ i = .smultb then 255
      else if i = .lstep then (if s.pos = 255 then 255 else s.pos - 1) else s.pos)) ∧
  (∀ s t : State, step s = .next t → t.pos ≠ s.pos →
    (∃ rest, s.inputs = .reset :: rest ∧ t.pos = 255) ∨
      (s.busy = true ∧ (s.inputs = [] ∨ ∃ rest, s.inputs = .coreTurn :: rest)))

/-- 10_state.md R24 to R27: what can change `N`, `PT`, `E` and `Q`, over all steps. Beside reset and the core step of `WIPE`, which
leave zero, `N` and `PT` change by a host write to their own slots alone, `E` by the core step of `CLAMP`, `SMULT` or `SMULTB` to
`Clamp(N)` alone, and `Q` by the core step of `STQ`, `SMULT` or `SMULTB` alone. (`CoreRuns` counts an empty `inputs` as the core's
turn, the reading of notes/assumptions/2.md.) -/
def Obligations.ByteRegisterWriters : Prop :=
  ∀ s t : State, step s = .next t →
    (t.n ≠ s.n → (t.n = .replicate 32 0 ∧ (ResetNext s ∨ CoreRuns s .wipe)) ∨
      ∃ off v rest, s.inputs = .hostWrite off v :: rest ∧ s.busy = false ∧ 0x080 ≤ off.toNat ∧ off.toNat < 0x100) ∧
    (t.pt ≠ s.pt → (t.pt = .replicate 32 0 ∧ (ResetNext s ∨ CoreRuns s .wipe)) ∨
      ∃ off v rest, s.inputs = .hostWrite off v :: rest ∧ s.busy = false ∧ 0x100 ≤ off.toNat ∧ off.toNat < 0x180) ∧
    (t.e ≠ s.e → (t.e = .replicate 32 0 ∧ (ResetNext s ∨ CoreRuns s .wipe)) ∨
      (t.e = clampScalar s.n ∧ (CoreRuns s .clamp ∨ CoreRuns s .smult ∨ CoreRuns s .smultb))) ∧
    (t.q ≠ s.q → (t.q = .replicate 32 0 ∧ (ResetNext s ∨ CoreRuns s .wipe)) ∨
      (∃ ra, CoreRuns s (.stq ra)) ∨ CoreRuns s .smult ∨ CoreRuns s .smultb)

/-- 10_state.md R32: `CMDR` holds the last word accepted; it changes only when a command is accepted and at reset, and the host reads
it at the `CMD` offset, busy or not. -/
def Obligations.CommandRegisterRule : Prop :=
  (∀ s t : State, step s = .next t → t.cmdr ≠ s.cmdr →
    (∃ rest, s.inputs = .reset :: rest ∧ t.cmdr = 0) ∨
      (∃ w rest, s.inputs = .hostWrite 0x000 w :: rest ∧ s.busy = false ∧ s.err = .none ∧ t.cmdr = w ∧ t.busy = true)) ∧
  (∀ s : State, HostReads s 0x000 s.cmdr s)

/-- 10_state.md R46: what the counters can do, over all steps. Only reset, which clears them, and the core step change one, so no
host access does (that the core steps when nothing is asked is the reading of notes/assumptions/2.md). Every command but `CLRCNT`
moves each counter by a number that no data register has a part in. That this number may differ between `POS` = 255 and the other
positions is the model's choice of notes/assumptions/6.md (DESIGN CHOICE): the spec refuses `LSTEP` at 255 when it is offered. -/
def Obligations.CounterWriters : Prop :=
  (∀ s t : State, step s = .next t → t.cnt ≠ s.cnt →
    (∃ rest, s.inputs = .reset :: rest ∧ t.cnt = .replicate 9 0) ∨
      (s.busy = true ∧ (s.inputs = [] ∨ ∃ rest, s.inputs = .coreTurn :: rest))) ∧
  (∀ (i : Instr) (s t : State), exec i s = .next t → i ≠ .clrcnt →
    ∃ d : List Nat, (∀ s' t', (s'.pos = 255 ↔ s.pos = 255) → exec i s' = .next t' → CountedBy d s' t') ∧ CountedBy d s t)

/-! ## The register interface -/

/-- 20_memory.md R63, R64: every access when `BUSY` = 0. -/
def Obligations.IdleHostAccess : Prop :=
  ∀ s : State, s.busy = false →
    (HostReads s 0x000 s.cmdr s ∧ HostReads s 0x004 (statusWord s) s ∧ HostReads s 0x008 (s.ctrl.setWidth 32) s ∧
      HostReads s 0x010 (s.pos.setWidth 32) s ∧ HostReads s 0x014 s.errInfo s ∧
      (∀ k : Fin 9, HostReads s (offsetOf 0x040 k.val) s.cnt[k] s) ∧
      (∀ i : Fin 32, HostReads s (offsetOf 0x080 i.val) (s.n[i].setWidth 32) s ∧
        HostReads s (offsetOf 0x100 i.val) (s.pt[i].setWidth 32) s ∧
        HostReads s (offsetOf 0x180 i.val) (s.q[i].setWidth 32) s ∧
        HostReads s (offsetOf 0x200 i.val) (s.e[i].setWidth 32) s) ∧
      (∀ (r : FReg) (j : Fin 32), HostReads s (limbOffset r j) (s.f[r])[j] s)) ∧
    (∀ v : Word, HostWrites s 0x000 v (offer v s) ∧ HostWrites s 0x008 v { s with ctrl := v.setWidth 2 } ∧
      HostWrites s 0x00C v (s.acknowledge v) ∧
      (∀ i : Fin 32, HostWrites s (offsetOf 0x080 i.val) v { s with n := s.n.set i (v.setWidth 8) } ∧
        HostWrites s (offsetOf 0x100 i.val) v { s with pt := s.pt.set i (v.setWidth 8) }) ∧
      (∀ (r : FReg) (j : Fin 32), HostWrites s (limbOffset r j) v { s with f := s.f.set r ((s.f[r]).set j v) })) ∧
    (∀ off v : Word, (¬ MapReads off → HostReads s off 0 (s.raise .addr off)) ∧
      (¬ MapWrites off → HostWrites s off v (s.raise .addr off)))

/-- 20_memory.md R65: every access when `BUSY` = 1, and that the running command completes as if the access had not happened. -/
def Obligations.BusyHostAccess : Prop :=
  (∀ s : State, s.busy = true →
    HostReads s 0x000 s.cmdr s ∧ HostReads s 0x004 (statusWord s) s ∧ HostReads s 0x008 (s.ctrl.setWidth 32) s ∧
    (∀ v : Word, HostWrites s 0x008 v { s with ctrl := v.setWidth 2 } ∧ HostWrites s 0x00C v (s.acknowledge v)) ∧
    (∀ off v : Word,
      (MapReads off → off ≠ 0x000 → off ≠ 0x004 → off ≠ 0x008 → HostReads s off 0 (s.raise .busy off)) ∧
      (MapWrites off → off ≠ 0x008 → off ≠ 0x00C → HostWrites s off v (s.raise .busy off)) ∧
      (¬ MapReads off → HostReads s off 0 (s.raise .addr off)) ∧
      (¬ MapWrites off → HostWrites s off v (s.raise .addr off)))) ∧
  (∀ (s t : State) (c : ErrCode) (info : Word), Consistent s → s.busy = true → coreStep s = .next t →
    coreStep (s.raise c info) = .next (t.raise c info))

/-- 20_memory.md R66: a read changes nothing, unless it is an error, which is recorded and returns 0; a write repeated changes nothing
more, but for a write to `CMD`, which starts a command when it is accepted. -/
def Obligations.AccessSideEffects : Prop :=
  (∀ (s : State) (off : Word), ∃ w t, HostReads s off w t ∧
    ((MapReads off → s.busy = false → t = s) ∧ (t = s ∨ (w = 0 ∧ ∃ c, t = s.raise c off)))) ∧
  (∀ (s t : State) (off v : Word), off ≠ 0x000 → HostWrites s off v t → HostWrites t off v t) ∧
  (∀ (s t : State) (w : Word), HostWrites s 0x000 w t → t.cmdr = w → t.busy = true → s.busy = false →
    HostWrites t 0x000 w (t.raise .busy 0x000))

/-- 60_exceptions.md R246 and R251: an error is recorded, with its information word, only where none is recorded yet, and nothing else
happens; once recorded it stays through every step but an acknowledge with bit 1 set and reset, which clear it. -/
def Obligations.FirstErrorKept : Prop :=
  (∀ (s : State) (c : ErrCode) (info : Word),
    (s.err = .none → s.raise c info = { s with err := c, errInfo := info }) ∧ (s.err ≠ .none → s.raise c info = s)) ∧
  (∀ s t : State, step s = .next t → s.err ≠ .none →
    (t.err = s.err ∧ t.errInfo = s.errInfo) ∨
      (t.err = .none ∧ t.errInfo = 0 ∧
        ((∃ rest, s.inputs = .reset :: rest) ∨
          ∃ v rest, s.inputs = .hostWrite 0x00C v :: rest ∧ v.getLsbD 1 = true)))

/-- 10_state.md R42: a write to `ACK`, busy or not, and a read of it. -/
def Obligations.AcknowledgeRule : Prop :=
  ∀ (s : State) (v : Word),
    HostWrites s 0x00C v
      { s with
        done := s.done && !v.getLsbD 0
        err := if v.getLsbD 1 then .none else s.err
        errInfo := if v.getLsbD 1 then 0 else s.errInfo } ∧
    HostReads s 0x00C 0 (s.raise .addr 0x00C)

/-- 10_state.md R40 with 60_exceptions.md R240: the bits of `STATUS`, which the host reads busy or not and can never write; `BUSY` is
1 from the acceptance of a command until the core completes it or reset; `DONE` is set when the core completes a command, and
cleared when one is accepted, by `ACK` bit 0 and at reset; `ERR`, once recorded, stays until `ACK` bit 1 or reset. -/
def Obligations.StatusRegisterRule : Prop :=
  (∀ (s : State) (i : Nat), (statusWord s).getLsbD i =
    (if i = 0 then s.busy else if i = 1 then s.done else if 8 ≤ i ∧ i ≤ 11 then (errNumber s.err).getLsbD (i - 8) else false)) ∧
  (errNumber .none = 0 ∧ errNumber .illCmd = 1 ∧ errNumber .operand = 2 ∧ errNumber .busy = 3 ∧ errNumber .ladder = 4 ∧
    errNumber .addr = 5) ∧
  (∀ (s : State) (v : Word), HostReads s 0x004 (statusWord s) s ∧ HostWrites s 0x004 v (s.raise .addr 0x004)) ∧
  (∀ s t : State, step s = .next t →
    (s.busy = true → t.busy = false →
      (∃ rest, s.inputs = .reset :: rest) ∨
        (t.done = true ∧ (s.inputs = [] ∨ ∃ rest, s.inputs = .coreTurn :: rest))) ∧
    (s.busy = false → t.busy = true → t.done = false ∧ ∃ w rest, s.inputs = .hostWrite 0x000 w :: rest ∧ t.cmdr = w) ∧
    (s.done = false → t.done = true → s.busy = true ∧ t.busy = false) ∧
    (s.done = true → t.done = false →
      (∃ rest, s.inputs = .reset :: rest) ∨ (s.busy = false ∧ t.busy = true) ∨
        ∃ v rest, s.inputs = .hostWrite 0x00C v :: rest ∧ v.getLsbD 0 = true) ∧
    (s.err ≠ .none → t.err ≠ s.err →
      t.err = .none ∧ ((∃ rest, s.inputs = .reset :: rest) ∨
        ∃ v rest, s.inputs = .hostWrite 0x00C v :: rest ∧ v.getLsbD 1 = true))) ∧
  (∀ (s : State) (v : Word), v.getLsbD 0 = true → ∃ t, HostWrites s 0x00C v t ∧ t.done = false) ∧
  (∀ (s : State) (v : Word), v.getLsbD 1 = true → ∃ t, HostWrites s 0x00C v t ∧ t.err = .none) ∧
  (∀ (s : State) (rest : List Input), s.inputs = .reset :: rest → ∃ t, step s = .next t ∧ statusWord t = 0)

/-- 60_exceptions.md R250: the interrupt level, a function of the state, 0 after reset, and how the host enables and clears it. -/
def Obligations.InterruptLevel : Prop :=
  (∀ s : State, irq s = true ↔
    (s.done = true ∧ s.ctrl.getLsbD 0 = true) ∨ (s.err ≠ .none ∧ s.ctrl.getLsbD 1 = true)) ∧
  irq State.reset = false ∧
  (∀ (s t : State) (v : Word), HostWrites s 0x008 v t →
    (irq t = true ↔ (s.done = true ∧ v.getLsbD 0 = true) ∨ (s.err ≠ .none ∧ v.getLsbD 1 = true)) ∧ t.done = s.done ∧
      t.err = s.err) ∧
  (∀ (s t : State) (v : Word), HostWrites s 0x00C v t → v.getLsbD 0 = true → v.getLsbD 1 = true → irq t = false) ∧
  (∀ (s t : State) (w : Word), HostWrites s 0x000 w t → s.busy = false → t.busy = true → irq t = false)

/-! ## Reset and invariants -/

/-- 10_state.md R55: the value of every piece of the block's state after reset. -/
def Obligations.ResetValues : Prop :=
  (∀ (r : FReg) (j : Fin 32), (State.reset.f[r])[j] = 0) ∧
  (∀ i : Fin 32, State.reset.n[i] = 0 ∧ State.reset.e[i] = 0 ∧ State.reset.pt[i] = 0 ∧ State.reset.q[i] = 0) ∧
  State.reset.pos = 255 ∧ State.reset.cmdr = 0 ∧ State.reset.busy = false ∧ State.reset.done = false ∧
  State.reset.err = .none ∧ State.reset.errInfo = 0 ∧ State.reset.ctrl = 0 ∧ (∀ k : Fin 9, State.reset.cnt[k] = 0) ∧
  irq State.reset = false

/-- 70_reset_and_hazards.md R281: reset, at any time and whatever the state before, leaves every register of the block at its reset
value, with no trace of a running command. -/
def Obligations.ResetAtAnyTime : Prop :=
  ∀ (s : State) (rest : List Input), s.inputs = .reset :: rest →
    ∃ t, step s = .next t ∧ { t with inputs := [], replies := [] } = State.reset

/-- The consistency of states (Safety.lean, `Consistent`) holds after reset. -/
def Obligations.ConsistentAtReset : Prop := Consistent State.reset

/-- Every step from a consistent state that answers a next state leaves a consistent state. -/
def Obligations.StepKeepsConsistent : Prop := ∀ s t : State, Consistent s → step s = .next t → Consistent t

/-- No step from a consistent state faults or is refused: every host access at every moment has a defined outcome
(20_memory.md R74), and the core step always completes (R68). -/
def Obligations.ConsistentNeverStops : Prop := ∀ s : State, Consistent s → ∃ t, step s = .next t

/-- 60_exceptions.md R241: no command raises anything while it executes; a core step from a consistent state records no error. -/
def Obligations.CoreStepRaisesNothing : Prop :=
  ∀ s t : State, Consistent s → coreStep s = .next t → t.err = s.err ∧ t.errInfo = s.errInfo

/-- 42_ladder.md R170, over all steps: `E` stays all zero or clamped, and is all zero after reset. -/
def Obligations.ScalarStaysClamped : Prop :=
  ScalarZeroOrClamped State.reset.e ∧
  (∀ s t : State, ScalarZeroOrClamped s.e → step s = .next t → ScalarZeroOrClamped t.e)

/-- 00_scope.md R14 in the form a model without time can carry it: what a step does to the position, the command register, the
handshake, the errors, the enables and the counters, and whether it stops, depends on no data register. In states no run reaches
this rests on the model's choices of notes/assumptions/5.md and 6.md. -/
def Obligations.ControlIndependentOfData : Prop :=
  ∀ s t s' : State, SameControl s t → step s = .next s' → ∃ t', step t = .next t' ∧ SameControl s' t'
end

