-- ==== Sys2Proof/Laws/State.lean ====
section
/-! SUPPORT. One lemma per field per update of the state (Machine/Ops.lean), true by definition, and what reading a register after
writing one gives. Later proofs cite these and unfold no record update. -/

namespace Sys2Proof.Machine

/-! ### setF -/

@[simp] theorem State.setF_f (s : State) (r : FReg) (v : Fe) : (s.setF r v).f = s.f.set r v := rfl
@[simp] theorem State.setF_n (s : State) (r : FReg) (v : Fe) : (s.setF r v).n = s.n := rfl
@[simp] theorem State.setF_e (s : State) (r : FReg) (v : Fe) : (s.setF r v).e = s.e := rfl
@[simp] theorem State.setF_pt (s : State) (r : FReg) (v : Fe) : (s.setF r v).pt = s.pt := rfl
@[simp] theorem State.setF_q (s : State) (r : FReg) (v : Fe) : (s.setF r v).q = s.q := rfl
@[simp] theorem State.setF_pos (s : State) (r : FReg) (v : Fe) : (s.setF r v).pos = s.pos := rfl
@[simp] theorem State.setF_cmdr (s : State) (r : FReg) (v : Fe) : (s.setF r v).cmdr = s.cmdr := rfl
@[simp] theorem State.setF_busy (s : State) (r : FReg) (v : Fe) : (s.setF r v).busy = s.busy := rfl
@[simp] theorem State.setF_done (s : State) (r : FReg) (v : Fe) : (s.setF r v).done = s.done := rfl
@[simp] theorem State.setF_err (s : State) (r : FReg) (v : Fe) : (s.setF r v).err = s.err := rfl
@[simp] theorem State.setF_errInfo (s : State) (r : FReg) (v : Fe) : (s.setF r v).errInfo = s.errInfo := rfl
@[simp] theorem State.setF_ctrl (s : State) (r : FReg) (v : Fe) : (s.setF r v).ctrl = s.ctrl := rfl
@[simp] theorem State.setF_cnt (s : State) (r : FReg) (v : Fe) : (s.setF r v).cnt = s.cnt := rfl
@[simp] theorem State.setF_inputs (s : State) (r : FReg) (v : Fe) : (s.setF r v).inputs = s.inputs := rfl
@[simp] theorem State.setF_replies (s : State) (r : FReg) (v : Fe) : (s.setF r v).replies = s.replies := rfl

/-! ### setE -/

@[simp] theorem State.setE_f (s : State) (v : Bytes32) : (s.setE v).f = s.f := rfl
@[simp] theorem State.setE_n (s : State) (v : Bytes32) : (s.setE v).n = s.n := rfl
@[simp] theorem State.setE_e (s : State) (v : Bytes32) : (s.setE v).e = v := rfl
@[simp] theorem State.setE_pt (s : State) (v : Bytes32) : (s.setE v).pt = s.pt := rfl
@[simp] theorem State.setE_q (s : State) (v : Bytes32) : (s.setE v).q = s.q := rfl
@[simp] theorem State.setE_pos (s : State) (v : Bytes32) : (s.setE v).pos = s.pos := rfl
@[simp] theorem State.setE_cmdr (s : State) (v : Bytes32) : (s.setE v).cmdr = s.cmdr := rfl
@[simp] theorem State.setE_busy (s : State) (v : Bytes32) : (s.setE v).busy = s.busy := rfl
@[simp] theorem State.setE_done (s : State) (v : Bytes32) : (s.setE v).done = s.done := rfl
@[simp] theorem State.setE_err (s : State) (v : Bytes32) : (s.setE v).err = s.err := rfl
@[simp] theorem State.setE_errInfo (s : State) (v : Bytes32) : (s.setE v).errInfo = s.errInfo := rfl
@[simp] theorem State.setE_ctrl (s : State) (v : Bytes32) : (s.setE v).ctrl = s.ctrl := rfl
@[simp] theorem State.setE_cnt (s : State) (v : Bytes32) : (s.setE v).cnt = s.cnt := rfl
@[simp] theorem State.setE_inputs (s : State) (v : Bytes32) : (s.setE v).inputs = s.inputs := rfl
@[simp] theorem State.setE_replies (s : State) (v : Bytes32) : (s.setE v).replies = s.replies := rfl

/-! ### setQ -/

@[simp] theorem State.setQ_f (s : State) (v : Bytes32) : (s.setQ v).f = s.f := rfl
@[simp] theorem State.setQ_n (s : State) (v : Bytes32) : (s.setQ v).n = s.n := rfl
@[simp] theorem State.setQ_e (s : State) (v : Bytes32) : (s.setQ v).e = s.e := rfl
@[simp] theorem State.setQ_pt (s : State) (v : Bytes32) : (s.setQ v).pt = s.pt := rfl
@[simp] theorem State.setQ_q (s : State) (v : Bytes32) : (s.setQ v).q = v := rfl
@[simp] theorem State.setQ_pos (s : State) (v : Bytes32) : (s.setQ v).pos = s.pos := rfl
@[simp] theorem State.setQ_cmdr (s : State) (v : Bytes32) : (s.setQ v).cmdr = s.cmdr := rfl
@[simp] theorem State.setQ_busy (s : State) (v : Bytes32) : (s.setQ v).busy = s.busy := rfl
@[simp] theorem State.setQ_done (s : State) (v : Bytes32) : (s.setQ v).done = s.done := rfl
@[simp] theorem State.setQ_err (s : State) (v : Bytes32) : (s.setQ v).err = s.err := rfl
@[simp] theorem State.setQ_errInfo (s : State) (v : Bytes32) : (s.setQ v).errInfo = s.errInfo := rfl
@[simp] theorem State.setQ_ctrl (s : State) (v : Bytes32) : (s.setQ v).ctrl = s.ctrl := rfl
@[simp] theorem State.setQ_cnt (s : State) (v : Bytes32) : (s.setQ v).cnt = s.cnt := rfl
@[simp] theorem State.setQ_inputs (s : State) (v : Bytes32) : (s.setQ v).inputs = s.inputs := rfl
@[simp] theorem State.setQ_replies (s : State) (v : Bytes32) : (s.setQ v).replies = s.replies := rfl

/-! ### setPos -/

@[simp] theorem State.setPos_f (s : State) (v : Byte) : (s.setPos v).f = s.f := rfl
@[simp] theorem State.setPos_n (s : State) (v : Byte) : (s.setPos v).n = s.n := rfl
@[simp] theorem State.setPos_e (s : State) (v : Byte) : (s.setPos v).e = s.e := rfl
@[simp] theorem State.setPos_pt (s : State) (v : Byte) : (s.setPos v).pt = s.pt := rfl
@[simp] theorem State.setPos_q (s : State) (v : Byte) : (s.setPos v).q = s.q := rfl
@[simp] theorem State.setPos_pos (s : State) (v : Byte) : (s.setPos v).pos = v := rfl
@[simp] theorem State.setPos_cmdr (s : State) (v : Byte) : (s.setPos v).cmdr = s.cmdr := rfl
@[simp] theorem State.setPos_busy (s : State) (v : Byte) : (s.setPos v).busy = s.busy := rfl
@[simp] theorem State.setPos_done (s : State) (v : Byte) : (s.setPos v).done = s.done := rfl
@[simp] theorem State.setPos_err (s : State) (v : Byte) : (s.setPos v).err = s.err := rfl
@[simp] theorem State.setPos_errInfo (s : State) (v : Byte) : (s.setPos v).errInfo = s.errInfo := rfl
@[simp] theorem State.setPos_ctrl (s : State) (v : Byte) : (s.setPos v).ctrl = s.ctrl := rfl
@[simp] theorem State.setPos_cnt (s : State) (v : Byte) : (s.setPos v).cnt = s.cnt := rfl
@[simp] theorem State.setPos_inputs (s : State) (v : Byte) : (s.setPos v).inputs = s.inputs := rfl
@[simp] theorem State.setPos_replies (s : State) (v : Byte) : (s.setPos v).replies = s.replies := rfl

/-! ### setPair -/

@[simp] theorem State.setPair_n (s : State) (k : PReg) (v : Pair) : (s.setPair k v).n = s.n := rfl
@[simp] theorem State.setPair_e (s : State) (k : PReg) (v : Pair) : (s.setPair k v).e = s.e := rfl
@[simp] theorem State.setPair_pt (s : State) (k : PReg) (v : Pair) : (s.setPair k v).pt = s.pt := rfl
@[simp] theorem State.setPair_q (s : State) (k : PReg) (v : Pair) : (s.setPair k v).q = s.q := rfl
@[simp] theorem State.setPair_pos (s : State) (k : PReg) (v : Pair) : (s.setPair k v).pos = s.pos := rfl
@[simp] theorem State.setPair_cmdr (s : State) (k : PReg) (v : Pair) : (s.setPair k v).cmdr = s.cmdr := rfl
@[simp] theorem State.setPair_busy (s : State) (k : PReg) (v : Pair) : (s.setPair k v).busy = s.busy := rfl
@[simp] theorem State.setPair_done (s : State) (k : PReg) (v : Pair) : (s.setPair k v).done = s.done := rfl
@[simp] theorem State.setPair_err (s : State) (k : PReg) (v : Pair) : (s.setPair k v).err = s.err := rfl
@[simp] theorem State.setPair_errInfo (s : State) (k : PReg) (v : Pair) : (s.setPair k v).errInfo = s.errInfo := rfl
@[simp] theorem State.setPair_ctrl (s : State) (k : PReg) (v : Pair) : (s.setPair k v).ctrl = s.ctrl := rfl
@[simp] theorem State.setPair_cnt (s : State) (k : PReg) (v : Pair) : (s.setPair k v).cnt = s.cnt := rfl
@[simp] theorem State.setPair_inputs (s : State) (k : PReg) (v : Pair) : (s.setPair k v).inputs = s.inputs := rfl
@[simp] theorem State.setPair_replies (s : State) (k : PReg) (v : Pair) : (s.setPair k v).replies = s.replies := rfl

/-! ### count -/

@[simp] theorem State.count_f (s : State) (c : Counter) : (s.count c).f = s.f := rfl
@[simp] theorem State.count_n (s : State) (c : Counter) : (s.count c).n = s.n := rfl
@[simp] theorem State.count_e (s : State) (c : Counter) : (s.count c).e = s.e := rfl
@[simp] theorem State.count_pt (s : State) (c : Counter) : (s.count c).pt = s.pt := rfl
@[simp] theorem State.count_q (s : State) (c : Counter) : (s.count c).q = s.q := rfl
@[simp] theorem State.count_pos (s : State) (c : Counter) : (s.count c).pos = s.pos := rfl
@[simp] theorem State.count_cmdr (s : State) (c : Counter) : (s.count c).cmdr = s.cmdr := rfl
@[simp] theorem State.count_busy (s : State) (c : Counter) : (s.count c).busy = s.busy := rfl
@[simp] theorem State.count_done (s : State) (c : Counter) : (s.count c).done = s.done := rfl
@[simp] theorem State.count_err (s : State) (c : Counter) : (s.count c).err = s.err := rfl
@[simp] theorem State.count_errInfo (s : State) (c : Counter) : (s.count c).errInfo = s.errInfo := rfl
@[simp] theorem State.count_ctrl (s : State) (c : Counter) : (s.count c).ctrl = s.ctrl := rfl
@[simp] theorem State.count_cnt (s : State) (c : Counter) : (s.count c).cnt = s.cnt.set c.index (s.cnt[c.index] + 1) := rfl
@[simp] theorem State.count_inputs (s : State) (c : Counter) : (s.count c).inputs = s.inputs := rfl
@[simp] theorem State.count_replies (s : State) (c : Counter) : (s.count c).replies = s.replies := rfl

/-! ### clearCounters -/

@[simp] theorem State.clearCounters_f (s : State) : (s.clearCounters).f = s.f := rfl
@[simp] theorem State.clearCounters_n (s : State) : (s.clearCounters).n = s.n := rfl
@[simp] theorem State.clearCounters_e (s : State) : (s.clearCounters).e = s.e := rfl
@[simp] theorem State.clearCounters_pt (s : State) : (s.clearCounters).pt = s.pt := rfl
@[simp] theorem State.clearCounters_q (s : State) : (s.clearCounters).q = s.q := rfl
@[simp] theorem State.clearCounters_pos (s : State) : (s.clearCounters).pos = s.pos := rfl
@[simp] theorem State.clearCounters_cmdr (s : State) : (s.clearCounters).cmdr = s.cmdr := rfl
@[simp] theorem State.clearCounters_busy (s : State) : (s.clearCounters).busy = s.busy := rfl
@[simp] theorem State.clearCounters_done (s : State) : (s.clearCounters).done = s.done := rfl
@[simp] theorem State.clearCounters_err (s : State) : (s.clearCounters).err = s.err := rfl
@[simp] theorem State.clearCounters_errInfo (s : State) : (s.clearCounters).errInfo = s.errInfo := rfl
@[simp] theorem State.clearCounters_ctrl (s : State) : (s.clearCounters).ctrl = s.ctrl := rfl
@[simp] theorem State.clearCounters_cnt (s : State) : (s.clearCounters).cnt = .replicate 9 0 := rfl
@[simp] theorem State.clearCounters_inputs (s : State) : (s.clearCounters).inputs = s.inputs := rfl
@[simp] theorem State.clearCounters_replies (s : State) : (s.clearCounters).replies = s.replies := rfl

/-! ### wipe -/

@[simp] theorem State.wipe_f (s : State) : (s.wipe).f = .replicate 32 (.replicate 32 0) := rfl
@[simp] theorem State.wipe_n (s : State) : (s.wipe).n = .replicate 32 0 := rfl
@[simp] theorem State.wipe_e (s : State) : (s.wipe).e = .replicate 32 0 := rfl
@[simp] theorem State.wipe_pt (s : State) : (s.wipe).pt = .replicate 32 0 := rfl
@[simp] theorem State.wipe_q (s : State) : (s.wipe).q = .replicate 32 0 := rfl
@[simp] theorem State.wipe_pos (s : State) : (s.wipe).pos = 255 := rfl
@[simp] theorem State.wipe_cmdr (s : State) : (s.wipe).cmdr = s.cmdr := rfl
@[simp] theorem State.wipe_busy (s : State) : (s.wipe).busy = s.busy := rfl
@[simp] theorem State.wipe_done (s : State) : (s.wipe).done = s.done := rfl
@[simp] theorem State.wipe_err (s : State) : (s.wipe).err = s.err := rfl
@[simp] theorem State.wipe_errInfo (s : State) : (s.wipe).errInfo = s.errInfo := rfl
@[simp] theorem State.wipe_ctrl (s : State) : (s.wipe).ctrl = s.ctrl := rfl
@[simp] theorem State.wipe_cnt (s : State) : (s.wipe).cnt = s.cnt := rfl
@[simp] theorem State.wipe_inputs (s : State) : (s.wipe).inputs = s.inputs := rfl
@[simp] theorem State.wipe_replies (s : State) : (s.wipe).replies = s.replies := rfl

/-! ### raise -/

@[simp] theorem State.raise_f (s : State) (c : ErrCode) (info : Word) : (s.raise c info).f = s.f := rfl
@[simp] theorem State.raise_n (s : State) (c : ErrCode) (info : Word) : (s.raise c info).n = s.n := rfl
@[simp] theorem State.raise_e (s : State) (c : ErrCode) (info : Word) : (s.raise c info).e = s.e := rfl
@[simp] theorem State.raise_pt (s : State) (c : ErrCode) (info : Word) : (s.raise c info).pt = s.pt := rfl
@[simp] theorem State.raise_q (s : State) (c : ErrCode) (info : Word) : (s.raise c info).q = s.q := rfl
@[simp] theorem State.raise_pos (s : State) (c : ErrCode) (info : Word) : (s.raise c info).pos = s.pos := rfl
@[simp] theorem State.raise_cmdr (s : State) (c : ErrCode) (info : Word) : (s.raise c info).cmdr = s.cmdr := rfl
@[simp] theorem State.raise_busy (s : State) (c : ErrCode) (info : Word) : (s.raise c info).busy = s.busy := rfl
@[simp] theorem State.raise_done (s : State) (c : ErrCode) (info : Word) : (s.raise c info).done = s.done := rfl
@[simp] theorem State.raise_err (s : State) (c : ErrCode) (info : Word) : (s.raise c info).err = if s.err = .none then c else s.err := rfl
@[simp] theorem State.raise_errInfo (s : State) (c : ErrCode) (info : Word) : (s.raise c info).errInfo = if s.err = .none then info else s.errInfo := rfl
@[simp] theorem State.raise_ctrl (s : State) (c : ErrCode) (info : Word) : (s.raise c info).ctrl = s.ctrl := rfl
@[simp] theorem State.raise_cnt (s : State) (c : ErrCode) (info : Word) : (s.raise c info).cnt = s.cnt := rfl
@[simp] theorem State.raise_inputs (s : State) (c : ErrCode) (info : Word) : (s.raise c info).inputs = s.inputs := rfl
@[simp] theorem State.raise_replies (s : State) (c : ErrCode) (info : Word) : (s.raise c info).replies = s.replies := rfl

/-! ### acknowledge -/

@[simp] theorem State.acknowledge_f (s : State) (v : Word) : (s.acknowledge v).f = s.f := rfl
@[simp] theorem State.acknowledge_n (s : State) (v : Word) : (s.acknowledge v).n = s.n := rfl
@[simp] theorem State.acknowledge_e (s : State) (v : Word) : (s.acknowledge v).e = s.e := rfl
@[simp] theorem State.acknowledge_pt (s : State) (v : Word) : (s.acknowledge v).pt = s.pt := rfl
@[simp] theorem State.acknowledge_q (s : State) (v : Word) : (s.acknowledge v).q = s.q := rfl
@[simp] theorem State.acknowledge_pos (s : State) (v : Word) : (s.acknowledge v).pos = s.pos := rfl
@[simp] theorem State.acknowledge_cmdr (s : State) (v : Word) : (s.acknowledge v).cmdr = s.cmdr := rfl
@[simp] theorem State.acknowledge_busy (s : State) (v : Word) : (s.acknowledge v).busy = s.busy := rfl
@[simp] theorem State.acknowledge_done (s : State) (v : Word) : (s.acknowledge v).done = if v.getLsbD 0 then false else s.done := rfl
@[simp] theorem State.acknowledge_err (s : State) (v : Word) : (s.acknowledge v).err = if v.getLsbD 1 then .none else s.err := rfl
@[simp] theorem State.acknowledge_errInfo (s : State) (v : Word) : (s.acknowledge v).errInfo = if v.getLsbD 1 then 0 else s.errInfo := rfl
@[simp] theorem State.acknowledge_ctrl (s : State) (v : Word) : (s.acknowledge v).ctrl = s.ctrl := rfl
@[simp] theorem State.acknowledge_cnt (s : State) (v : Word) : (s.acknowledge v).cnt = s.cnt := rfl
@[simp] theorem State.acknowledge_inputs (s : State) (v : Word) : (s.acknowledge v).inputs = s.inputs := rfl
@[simp] theorem State.acknowledge_replies (s : State) (v : Word) : (s.acknowledge v).replies = s.replies := rfl

/-! ### accept -/

@[simp] theorem State.accept_f (s : State) (w : Word) : (s.accept w).f = s.f := rfl
@[simp] theorem State.accept_n (s : State) (w : Word) : (s.accept w).n = s.n := rfl
@[simp] theorem State.accept_e (s : State) (w : Word) : (s.accept w).e = s.e := rfl
@[simp] theorem State.accept_pt (s : State) (w : Word) : (s.accept w).pt = s.pt := rfl
@[simp] theorem State.accept_q (s : State) (w : Word) : (s.accept w).q = s.q := rfl
@[simp] theorem State.accept_pos (s : State) (w : Word) : (s.accept w).pos = s.pos := rfl
@[simp] theorem State.accept_cmdr (s : State) (w : Word) : (s.accept w).cmdr = w := rfl
@[simp] theorem State.accept_busy (s : State) (w : Word) : (s.accept w).busy = true := rfl
@[simp] theorem State.accept_done (s : State) (w : Word) : (s.accept w).done = false := rfl
@[simp] theorem State.accept_err (s : State) (w : Word) : (s.accept w).err = s.err := rfl
@[simp] theorem State.accept_errInfo (s : State) (w : Word) : (s.accept w).errInfo = s.errInfo := rfl
@[simp] theorem State.accept_ctrl (s : State) (w : Word) : (s.accept w).ctrl = s.ctrl := rfl
@[simp] theorem State.accept_cnt (s : State) (w : Word) : (s.accept w).cnt = s.cnt := rfl
@[simp] theorem State.accept_inputs (s : State) (w : Word) : (s.accept w).inputs = s.inputs := rfl
@[simp] theorem State.accept_replies (s : State) (w : Word) : (s.accept w).replies = s.replies := rfl

/-! ### complete -/

@[simp] theorem State.complete_f (s : State) : (s.complete).f = s.f := rfl
@[simp] theorem State.complete_n (s : State) : (s.complete).n = s.n := rfl
@[simp] theorem State.complete_e (s : State) : (s.complete).e = s.e := rfl
@[simp] theorem State.complete_pt (s : State) : (s.complete).pt = s.pt := rfl
@[simp] theorem State.complete_q (s : State) : (s.complete).q = s.q := rfl
@[simp] theorem State.complete_pos (s : State) : (s.complete).pos = s.pos := rfl
@[simp] theorem State.complete_cmdr (s : State) : (s.complete).cmdr = s.cmdr := rfl
@[simp] theorem State.complete_busy (s : State) : (s.complete).busy = false := rfl
@[simp] theorem State.complete_done (s : State) : (s.complete).done = true := rfl
@[simp] theorem State.complete_err (s : State) : (s.complete).err = s.err := rfl
@[simp] theorem State.complete_errInfo (s : State) : (s.complete).errInfo = s.errInfo := rfl
@[simp] theorem State.complete_ctrl (s : State) : (s.complete).ctrl = s.ctrl := rfl
@[simp] theorem State.complete_cnt (s : State) : (s.complete).cnt = s.cnt := rfl
@[simp] theorem State.complete_inputs (s : State) : (s.complete).inputs = s.inputs := rfl
@[simp] theorem State.complete_replies (s : State) : (s.complete).replies = s.replies := rfl

/-! ### applyReset -/

theorem State.applyReset_eq (s : State) :
    s.applyReset = { State.reset with inputs := s.inputs, replies := s.replies } := rfl

@[simp] theorem State.applyReset_inputs (s : State) : s.applyReset.inputs = s.inputs := rfl
@[simp] theorem State.applyReset_replies (s : State) : s.applyReset.replies = s.replies := rfl

/-! ### Reading after writing -/

theorem State.getF_eq (s : State) (r : FReg) : s.getF r = s.f[r] := rfl

/-- A register written holds the value, every other register what it held. -/
theorem State.getF_setF (s : State) (r r' : FReg) (v : Fe) :
    (s.setF r v).getF r' = if r = r' then v else s.getF r' := by
  simp [State.getF, Vector.getElem_set, Fin.ext_iff]

@[simp] theorem State.getF_setF_self (s : State) (r : FReg) (v : Fe) : (s.setF r v).getF r = v := by
  simp [State.getF_setF]

theorem State.getF_setF_of_ne (s : State) (r r' : FReg) (v : Fe) (h : r ≠ r') :
    (s.setF r v).getF r' = s.getF r' := by
  simp [State.getF_setF, h]

@[simp] theorem State.getF_setE (s : State) (v : Bytes32) (r : FReg) : (s.setE v).getF r = s.getF r := rfl
@[simp] theorem State.getF_setQ (s : State) (v : Bytes32) (r : FReg) : (s.setQ v).getF r = s.getF r := rfl
@[simp] theorem State.getF_setPos (s : State) (v : Byte) (r : FReg) : (s.setPos v).getF r = s.getF r := rfl
@[simp] theorem State.getF_count (s : State) (c : Counter) (r : FReg) : (s.count c).getF r = s.getF r := rfl
@[simp] theorem State.getF_clearCounters (s : State) (r : FReg) : s.clearCounters.getF r = s.getF r := rfl
@[simp] theorem State.getF_raise (s : State) (c : ErrCode) (w : Word) (r : FReg) : (s.raise c w).getF r = s.getF r := rfl

/-- A counter counts itself and no other. -/
theorem State.cnt_count (s : State) (c : Counter) (k : Fin 9) :
    (s.count c).cnt[k] = if k = c.index then s.cnt[k] + 1 else s.cnt[k] := by
  by_cases h : k = c.index
  · subst h; simp [State.count]
  · have h' : c.index.val ≠ k.val := fun e => h (Fin.ext e.symm)
    simp [State.count, h, h']

/-! ### Errors -/

theorem State.raise_of_none (s : State) (c : ErrCode) (info : Word) (h : s.err = .none) :
    s.raise c info = { s with err := c, errInfo := info } := by
  simp [State.raise, h]

/-- The first error is kept (60_exceptions.md R246). -/
theorem State.raise_of_ne_none (s : State) (c : ErrCode) (info : Word) (h : s.err ≠ .none) :
    s.raise c info = s := by
  simp [State.raise, h]

end Sys2Proof.Machine
end

