-- ==== Sys2Proof/Laws/Effects.lean ====
section
/-! SUPPORT. What the data effects can do: the registers and counters a sub-step touches, the frame of a list of sub-steps, and the
frames of the macro commands built of them. Proofs cite these and unfold no effect. -/

namespace Sys2Proof.Machine

/-! ### Pairs -/

/-- The X half of a pair. -/
def lowHalf (v : Pair) : Fe := .ofFn fun j => v[j.val]

/-- The Z half of a pair. -/
def highHalf (v : Pair) : Fe := .ofFn fun j => v[j.val + 32]

/-- Writing a pair writes its two registers and no other (10_state.md R21). -/
theorem State.getF_setPair (s : State) (k : PReg) (v : Pair) (r : FReg) :
    (s.setPair k v).getF r =
      if r.val = 2 * k.val then lowHalf v else if r.val = 2 * k.val + 1 then highHalf v else s.getF r := by
  simp only [State.getF, State.setPair, lowHalf, highHalf, Fin.getElem_fin, Vector.getElem_set]
  by_cases h1 : r.val = 2 * k.val
  · simp [h1]
  · by_cases h2 : r.val = 2 * k.val + 1
    · simp [h2]
    · simp [h1, h2, Ne.symm h1, Ne.symm h2]

/-- The X half of the pair register is the even register. -/
theorem lowHalf_getPair (s : State) (k : PReg) : lowHalf (s.getPair k) = s.f[2 * k.val] := by
  ext1 j hj
  simp [lowHalf, State.getPair]

/-- The Z half of the pair register is the odd register. -/
theorem highHalf_getPair (s : State) (k : PReg) : highHalf (s.getPair k) = s.f[2 * k.val + 1] := by
  ext1 j hj
  simp [highHalf, State.getPair]

/-- `Select` gives (R, S) when `b` = 0 and (S, R) when `b` = 1 (41_select.md R160). -/
theorem selectPairs_eq (r s : Pair) (b : Bool) : selectPairs r s b = if b then (s, r) else (r, s) := by
  have x1 (x y : Word) : x ^^^ (y ^^^ x) = y := by rw [BitVec.xor_comm y x, ← BitVec.xor_assoc]; simp
  have x2 (x y : Word) : x ^^^ (x ^^^ y) = y := by rw [← BitVec.xor_assoc]; simp
  have m (w : Word) : (4294967295#32) &&& w = w := BitVec.allOnes_and
  cases b
  · simp only [selectPairs, selectMask, bitWord]
    refine Prod.ext ?_ ?_ <;> ext1 j hj <;> simp [x1, x2, m]
  · simp only [selectPairs, selectMask, bitWord]
    refine Prod.ext ?_ ?_ <;> ext1 j hj <;> simp

/-! ### Sub-steps -/

/-- The registers a sub-step writes. -/
def primDests : Prim → List FReg
  | .add rd _ _ => [rd]
  | .sub rd _ _ => [rd]
  | .mul rd _ _ => [rd]
  | .sqr rd _ => [rd]
  | .mulc rd _ => [rd]
  | .frz rd => [rd]
  | .sel pd qd _ _ _ =>
    [⟨2 * pd.val, by omega⟩, ⟨2 * pd.val + 1, by omega⟩, ⟨2 * qd.val, by omega⟩, ⟨2 * qd.val + 1, by omega⟩]
  | .mov rd _ => [rd]
  | .setc rd _ => [rd]
  | .ldpt rd => [rd]
  | .stq _ => []
  | .clamp => []

/-- The counter a sub-step moves. -/
def primCounter : Prim → Option Counter
  | .add _ _ _ => some .add
  | .sub _ _ _ => some .sub
  | .mul _ _ _ => some .mul
  | .sqr _ _ => some .sqr
  | .mulc _ _ => some .mulc
  | .frz _ => some .frz
  | .sel _ _ _ _ _ => some .sel
  | .mov _ _ => none
  | .setc _ _ => none
  | .ldpt _ => none
  | .stq _ => none
  | .clamp => none

/-- A sub-step touches `F`, `E`, `Q` and `CNT` alone. -/
theorem primEffect_frame (p : Prim) (s : State) :
    primEffect p s =
      { s with f := (primEffect p s).f, e := (primEffect p s).e, q := (primEffect p s).q, cnt := (primEffect p s).cnt } := by
  cases p <;> simp only [primEffect, addEffect, subEffect, mulEffect, sqrEffect, mulcEffect, frzEffect, selEffect, movEffect,
    setcEffect, ldptEffect, stqEffect, clampEffect, State.setF, State.setPair, State.setE, State.setQ, State.count]

/-- A register that is no destination of the sub-step holds what it held. -/
theorem getF_primEffect (p : Prim) (s : State) (r : FReg) (h : r ∉ primDests p) :
    (primEffect p s).getF r = s.getF r := by
  cases p <;>
    simp_all [primEffect, primDests, addEffect, subEffect, mulEffect, sqrEffect, mulcEffect, frzEffect, selEffect, movEffect,
      setcEffect, ldptEffect, stqEffect, clampEffect, State.getF_setPair, Fin.ext_iff, State.getF_setF, eq_comm]

/-- `E` is written by `CLAMP` alone. -/
theorem primEffect_e (p : Prim) (s : State) :
    (primEffect p s).e = if p = .clamp then clampScalar s.n else s.e := by
  cases p <;> simp [primEffect, addEffect, subEffect, mulEffect, sqrEffect, mulcEffect, frzEffect, selEffect, movEffect,
    setcEffect, ldptEffect, stqEffect, clampEffect, State.setF, State.setPair, State.setE, State.setQ, State.count]

/-- The sub-step moves its own counter by one. -/
theorem cnt_primEffect (p : Prim) (s : State) (k : Fin 9) :
    (primEffect p s).cnt[k] = if (primCounter p).map Counter.index = some k then s.cnt[k] + 1 else s.cnt[k] := by
  have count (t : State) (c : Counter) :
      (t.count c).cnt[k] = if some c.index = some k then t.cnt[k] + 1 else t.cnt[k] := by
    rw [State.cnt_count]
    simp only [Option.some.injEq, eq_comm]
  cases p <;>
    simp [primEffect, primCounter, addEffect, subEffect, mulEffect, sqrEffect, mulcEffect, frzEffect, selEffect, movEffect,
      setcEffect, ldptEffect, stqEffect, clampEffect, -State.count_cnt, count]

theorem runPrims_append (ps qs : List Prim) (s : State) : runPrims (ps ++ qs) s = runPrims qs (runPrims ps s) := by
  induction ps generalizing s with
  | nil => rfl
  | cons p ps ih => exact ih _

/-- A list of sub-steps touches `F`, `E`, `Q` and `CNT` alone. -/
theorem runPrims_frame (ps : List Prim) (s : State) :
    runPrims ps s = { s with f := (runPrims ps s).f, e := (runPrims ps s).e, q := (runPrims ps s).q, cnt := (runPrims ps s).cnt } := by
  induction ps generalizing s with
  | nil => rfl
  | cons p ps ih =>
    simp only [runPrims]
    rw [ih, primEffect_frame]

@[simp] theorem runPrims_n (ps : List Prim) (s : State) : (runPrims ps s).n = s.n := by rw [runPrims_frame]
@[simp] theorem runPrims_pt (ps : List Prim) (s : State) : (runPrims ps s).pt = s.pt := by rw [runPrims_frame]
@[simp] theorem runPrims_pos (ps : List Prim) (s : State) : (runPrims ps s).pos = s.pos := by rw [runPrims_frame]
@[simp] theorem runPrims_cmdr (ps : List Prim) (s : State) : (runPrims ps s).cmdr = s.cmdr := by rw [runPrims_frame]
@[simp] theorem runPrims_busy (ps : List Prim) (s : State) : (runPrims ps s).busy = s.busy := by rw [runPrims_frame]
@[simp] theorem runPrims_done (ps : List Prim) (s : State) : (runPrims ps s).done = s.done := by rw [runPrims_frame]
@[simp] theorem runPrims_err (ps : List Prim) (s : State) : (runPrims ps s).err = s.err := by rw [runPrims_frame]
@[simp] theorem runPrims_errInfo (ps : List Prim) (s : State) : (runPrims ps s).errInfo = s.errInfo := by rw [runPrims_frame]
@[simp] theorem runPrims_ctrl (ps : List Prim) (s : State) : (runPrims ps s).ctrl = s.ctrl := by rw [runPrims_frame]
@[simp] theorem runPrims_inputs (ps : List Prim) (s : State) : (runPrims ps s).inputs = s.inputs := by rw [runPrims_frame]
@[simp] theorem runPrims_replies (ps : List Prim) (s : State) : (runPrims ps s).replies = s.replies := by rw [runPrims_frame]

/-- A register that is no destination of any sub-step of the list holds what it held. -/
theorem getF_runPrims (ps : List Prim) (s : State) (r : FReg) (h : ∀ p ∈ ps, r ∉ primDests p) :
    (runPrims ps s).getF r = s.getF r := by
  induction ps generalizing s with
  | nil => rfl
  | cons p ps ih =>
    simp only [List.mem_cons, forall_eq_or_imp] at h
    rw [runPrims, ih _ h.2, getF_primEffect p s r h.1]

/-- The sub-step writes neither `E` nor `Q`. -/
def keepsBytes : Prim → Bool
  | .add _ _ _ => true
  | .sub _ _ _ => true
  | .mul _ _ _ => true
  | .sqr _ _ => true
  | .mulc _ _ => true
  | .frz _ => true
  | .sel _ _ _ _ _ => true
  | .mov _ _ => true
  | .setc _ _ => true
  | .ldpt _ => true
  | .stq _ => false
  | .clamp => false

theorem primEffect_keepsBytes (p : Prim) (s : State) (h : keepsBytes p = true) :
    (primEffect p s).e = s.e ∧ (primEffect p s).q = s.q := by
  cases p <;> simp_all [keepsBytes, primEffect, addEffect, subEffect, mulEffect, sqrEffect, mulcEffect, frzEffect, selEffect,
    movEffect, setcEffect, ldptEffect]

/-- A list without `CLAMP` and `STQ` touches `F` and `CNT` alone. -/
theorem runPrims_keepsBytes (ps : List Prim) (s : State) (h : ps.all keepsBytes = true) :
    runPrims ps s = { s with f := (runPrims ps s).f, cnt := (runPrims ps s).cnt } := by
  have eq : (runPrims ps s).e = s.e ∧ (runPrims ps s).q = s.q := by
    induction ps generalizing s with
    | nil => exact ⟨rfl, rfl⟩
    | cons p ps ih =>
      simp only [List.all_cons, Bool.and_eq_true] at h
      have k := primEffect_keepsBytes p s h.1
      rw [runPrims, (ih _ h.2).1, (ih _ h.2).2]
      exact k
  conv_lhs => rw [runPrims_frame, eq.1, eq.2]

/-- How many sub-steps of the list move counter `k`. -/
def countPrims (k : Fin 9) (ps : List Prim) : Nat := ps.countP fun p => (primCounter p).map Counter.index = some k

/-- Each counter moves by the number of sub-steps that count there (10_state.md R46). -/
theorem cnt_runPrims (ps : List Prim) (s : State) (k : Fin 9) :
    (runPrims ps s).cnt[k] = s.cnt[k] + BitVec.ofNat 32 (countPrims k ps) := by
  induction ps generalizing s with
  | nil => simp [runPrims, countPrims]
  | cons p ps ih =>
    rw [runPrims, ih, cnt_primEffect]
    simp only [countPrims, List.countP_cons, decide_eq_true_eq]
    split
    · rw [Nat.add_comm (List.countP _ ps), BitVec.ofNat_add, ← BitVec.add_assoc]; rfl
    · simp

/-! ### Macro commands -/

/-- `LSTEP`'s effect touches `F`, `POS` and `CNT` alone. -/
theorem lstepEffect_frame (s : State) :
    lstepEffect s = { s with f := (lstepEffect s).f, cnt := (lstepEffect s).cnt, pos := s.pos - 1 } := by
  simp only [lstepEffect, State.count, State.setPos]
  rw [runPrims_keepsBytes _ s rfl]

/-- `LINIT`'s effect touches `F` and `POS` alone. -/
theorem linitEffect_frame (s : State) : linitEffect s = { s with f := (linitEffect s).f, pos := 254 } := by
  simp only [linitEffect, linitPrims, runPrims, primEffect, setcEffect, movEffect, State.setF, State.setPos]

/-- `n` ladder steps touch `F`, `POS` and `CNT` alone. -/
theorem lstepIterate_frame (n : Nat) (s : State) :
    Nat.iterate lstepEffect n s =
      { s with
        f := (Nat.iterate lstepEffect n s).f
        cnt := (Nat.iterate lstepEffect n s).cnt
        pos := s.pos - BitVec.ofNat 8 n } := by
  induction n generalizing s with
  | zero => simp [Nat.iterate]
  | succ n ih =>
    rw [Nat.iterate, ih, lstepEffect_frame]
    simp only [BitVec.ofNat_add, BitVec.sub_sub, BitVec.add_comm, BitVec.ofNat_eq_ofNat]

/-- `LADDER`'s effect touches `F`, `POS` and `CNT` alone, and ends with `POS` = 255. -/
theorem ladderEffect_frame (s : State) :
    ladderEffect s = { s with f := (ladderEffect s).f, cnt := (ladderEffect s).cnt, pos := 255 } := by
  have p : (254 : Byte) - BitVec.ofNat 8 Config.nStep = 255 := by decide
  simp only [ladderEffect]
  rw [runPrims_keepsBytes _ _ rfl, lstepIterate_frame, linitEffect_frame]
  simp only [p]

theorem sqrPairs_keepsBytes (n : Nat) (x y : FReg) : (sqrPairs n x y).all keepsBytes = true := by
  induction n with
  | zero => rfl
  | succ n ih => simpa [sqrPairs, keepsBytes] using ih

/-- `RECIP`'s effect touches `F` and `CNT` alone. -/
theorem recipEffect_frame (rd ra : FReg) (s : State) :
    recipEffect rd ra s = { s with f := (recipEffect rd ra s).f, cnt := (recipEffect rd ra s).cnt } := by
  refine runPrims_keepsBytes _ s ?_
  simp only [recipPrims, recipTo5, recipTo10, recipTo20, recipTo40, recipTo50, recipTo100, recipTo200, recipTo250, recipEnd,
    List.all_append, List.all_cons, List.all_nil, sqrPairs_keepsBytes, keepsBytes, Bool.and_self]

end Sys2Proof.Machine
end

