-- ==== Sys2Proof/Laws/Port.lean ====
section
/-! SUPPORT. What the host's accesses can do, said once: which error an access meets, and what it changes. -/

namespace Sys2Proof.Machine

/-- An access is free of error exactly on a slot that has the direction and, while busy, allows it (20_memory.md R64, R65). -/
theorem accessError_eq_none (allowed whileBusy : Slot → Bool) (off : Word) (busy : Bool) :
    accessError allowed whileBusy off busy = none ↔
      ∃ sl, slotAt off = some sl ∧ allowed sl = true ∧ (busy = true → whileBusy sl = true) := by
  unfold accessError
  cases slotAt off with
  | none => simp
  | some sl => cases h1 : allowed sl <;> cases h2 : whileBusy sl <;> cases busy <;> simp_all

/-- An access meets no error but `E_ADDR` and `E_BUSY` (60_exceptions.md R245). -/
theorem accessError_some (allowed whileBusy : Slot → Bool) (off : Word) (busy : Bool) (c : ErrCode)
    (h : accessError allowed whileBusy off busy = some c) : c = .addr ∨ (c = .busy ∧ busy = true) := by
  unfold accessError at h
  split at h
  · exact .inl (Option.some.inj h).symm
  · split at h
    · exact .inl (Option.some.inj h).symm
    · split at h
      · rename_i k
        exact .inr ⟨(Option.some.inj h).symm, by simp_all⟩
      · cases h

/-- A read is either an error, which is recorded and returns 0, or changes nothing and returns its slot's word
(20_memory.md R63 to R66). -/
theorem hostRead_cases (off : Word) (s : State) :
    (∃ c, accessError slotReadable readableWhileBusy off s.busy = some c ∧ hostRead off s = (s.raise c off, 0)) ∨
      (∃ sl, slotAt off = some sl ∧ accessError slotReadable readableWhileBusy off s.busy = none ∧
        hostRead off s = (s, slotWord s sl)) := by
  unfold hostRead
  cases h : accessError slotReadable readableWhileBusy off s.busy with
  | some c => exact .inl ⟨c, rfl, rfl⟩
  | none =>
    obtain ⟨sl, hs, -⟩ := (accessError_eq_none _ _ _ _).mp h
    exact .inr ⟨sl, hs, rfl, by simp [hs]⟩

/-- A write is either an error, which is recorded, or the write of its slot (20_memory.md R63 to R65). -/
theorem hostWrite_cases (off v : Word) (s : State) :
    (∃ c, accessError slotWritable writableWhileBusy off s.busy = some c ∧ hostWrite off v s = s.raise c off) ∨
      (∃ sl, slotAt off = some sl ∧ accessError slotWritable writableWhileBusy off s.busy = none ∧
        hostWrite off v s = writeSlot v s sl) := by
  unfold hostWrite
  cases h : accessError slotWritable writableWhileBusy off s.busy with
  | some c => exact .inl ⟨c, rfl, rfl⟩
  | none =>
    obtain ⟨sl, hs, -⟩ := (accessError_eq_none _ _ _ _).mp h
    exact .inr ⟨sl, hs, rfl, by simp [hs]⟩

/-- A word offered is dropped, refused with an error, or accepted, and nothing else (60_exceptions.md R244). -/
theorem offer_cases (w : Word) (s : State) :
    (s.busy = true ∧ offer w s = s.raise .busy 0) ∨
      (s.busy = false ∧ s.err ≠ .none ∧ offer w s = s) ∨
      (s.busy = false ∧ s.err = .none ∧ (∀ i, decode w ≠ .instr i) ∧ offer w s = s.raise .illCmd w) ∨
      (s.busy = false ∧ s.err = .none ∧ ∃ i c, decode w = .instr i ∧ offerError i s.pos = some c ∧ offer w s = s.raise c w) ∨
      (s.busy = false ∧ s.err = .none ∧ ∃ i, decode w = .instr i ∧ offerError i s.pos = none ∧ offer w s = s.accept w) := by
  cases hb : s.busy with
  | true => exact .inl ⟨rfl, by simp [offer, hb]⟩
  | false =>
    by_cases he : s.err = .none
    · cases hd : decode w with
      | unusedOpcode c => exact .inr (.inr (.inl ⟨rfl, he, by simp, by simp [offer, hb, he, hd]⟩))
      | reservedBits o => exact .inr (.inr (.inl ⟨rfl, he, by simp, by simp [offer, hb, he, hd]⟩))
      | instr i =>
        cases ho : offerError i s.pos with
        | some c => exact .inr (.inr (.inr (.inl ⟨rfl, he, i, c, rfl, ho, by simp [offer, hb, he, hd, ho]⟩)))
        | none => exact .inr (.inr (.inr (.inr ⟨rfl, he, i, rfl, ho, by simp [offer, hb, he, hd, ho]⟩)))
    · exact .inr (.inl ⟨rfl, he, by simp [offer, hb, he]⟩)

end Sys2Proof.Machine
end

