-- ==== Sys2Proof/Laws/Exec.lean ====
section
/-! SUPPORT. What `exec` and `step` can do, said once: an instruction whose operands are refused raises its error and does nothing
else, any other completes and leaves the control registers alone; and a step is one of its five kinds. -/

namespace Sys2Proof.Machine

/-- What a data effect keeps: everything but `F`, `N`, `E`, `PT`, `Q`, `POS` and `CNT`. -/
structure KeepsControl (s t : State) : Prop where
  cmdr : t.cmdr = s.cmdr
  busy : t.busy = s.busy
  done : t.done = s.done
  err : t.err = s.err
  errInfo : t.errInfo = s.errInfo
  ctrl : t.ctrl = s.ctrl
  inputs : t.inputs = s.inputs
  replies : t.replies = s.replies

theorem KeepsControl.refl (s : State) : KeepsControl s s := ⟨rfl, rfl, rfl, rfl, rfl, rfl, rfl, rfl⟩

theorem KeepsControl.trans {s t u : State} (h : KeepsControl s t) (k : KeepsControl t u) : KeepsControl s u :=
  ⟨k.cmdr.trans h.cmdr, k.busy.trans h.busy, k.done.trans h.done, k.err.trans h.err, k.errInfo.trans h.errInfo,
    k.ctrl.trans h.ctrl, k.inputs.trans h.inputs, k.replies.trans h.replies⟩

theorem keepsControl_prim (p : Prim) (s : State) : KeepsControl s (primEffect p s) := by
  rw [primEffect_frame]; constructor <;> rfl

theorem keepsControl_runPrims (ps : List Prim) (s : State) : KeepsControl s (runPrims ps s) := by
  constructor <;> simp

theorem keepsControl_lstep (s : State) : KeepsControl s (lstepEffect s) := by
  rw [lstepEffect_frame]; constructor <;> rfl

theorem keepsControl_ladder (s : State) : KeepsControl s (ladderEffect s) := by
  rw [ladderEffect_frame]; constructor <;> rfl

theorem keepsControl_recip (rd ra : FReg) (s : State) : KeepsControl s (recipEffect rd ra s) :=
  keepsControl_runPrims _ s

theorem keepsControl_scalarMultEnd (s : State) : KeepsControl s (scalarMultEnd s) :=
  (keepsControl_recip _ _ s).trans (keepsControl_runPrims _ _)

/-- An instruction whose operands or position are refused raises the error with its own word, and that is all
(60_exceptions.md R244, 30_encoding.md R101). -/
theorem exec_of_offerError (i : Instr) (s : State) (c : ErrCode) (h : offerError i s.pos = some c) :
    exec i s = .next (s.raise c (encode i)) := by
  cases i <;> simp_all [offerError, wellFormed, exec, execSel, execRecip, execLstep]

/-- Any other instruction completes, and its effect leaves the control registers alone. -/
theorem exec_next (i : Instr) (s : State) (h : offerError i s.pos = none) :
    ∃ t, exec i s = .next t ∧ KeepsControl s t := by
  cases i with
  | nop => exact ⟨_, rfl, ⟨rfl, rfl, rfl, rfl, rfl, rfl, rfl, rfl⟩⟩
  | wipe => exact ⟨_, rfl, ⟨rfl, rfl, rfl, rfl, rfl, rfl, rfl, rfl⟩⟩
  | clrcnt => exact ⟨_, rfl, ⟨rfl, rfl, rfl, rfl, rfl, rfl, rfl, rfl⟩⟩
  | add rd ra rb => exact ⟨addEffect rd ra rb s, rfl, keepsControl_prim (.add rd ra rb) s⟩
  | sub rd ra rb => exact ⟨subEffect rd ra rb s, rfl, keepsControl_prim (.sub rd ra rb) s⟩
  | mul rd ra rb => exact ⟨mulEffect rd ra rb s, rfl, keepsControl_prim (.mul rd ra rb) s⟩
  | sqr rd ra => exact ⟨sqrEffect rd ra s, rfl, keepsControl_prim (.sqr rd ra) s⟩
  | mulc rd ra => exact ⟨mulcEffect rd ra s, rfl, keepsControl_prim (.mulc rd ra) s⟩
  | sqz rd => exact ⟨sqzEffect rd s, rfl, by constructor <;> simp [sqzEffect]⟩
  | frz rd => exact ⟨frzEffect rd s, rfl, keepsControl_prim (.frz rd) s⟩
  | mov rd ra => exact ⟨movEffect rd ra s, rfl, keepsControl_prim (.mov rd ra) s⟩
  | setc rd imm => exact ⟨setcEffect rd imm s, rfl, keepsControl_prim (.setc rd imm) s⟩
  | ldpt rd => exact ⟨ldptEffect rd s, rfl, keepsControl_prim (.ldpt rd) s⟩
  | stq ra => exact ⟨stqEffect ra s, rfl, keepsControl_prim (.stq ra) s⟩
  | sel pd qd pr ps b =>
    have hd : pd ≠ qd := by intro e; simp [offerError, wellFormed, e] at h
    exact ⟨selEffect pd qd pr ps b s, by simp [exec, execSel, hd], keepsControl_prim (.sel pd qd pr ps b) s⟩
  | clamp => exact ⟨clampEffect s, rfl, keepsControl_prim .clamp s⟩
  | linit => exact ⟨linitEffect s, rfl, by constructor <;> simp [linitEffect]⟩
  | lstep =>
    have hp : s.pos ≠ 255 := by intro e; simp [offerError, wellFormed, e] at h
    exact ⟨lstepEffect s, by simp only [exec, execLstep, hp, if_false], keepsControl_lstep s⟩
  | ladder => exact ⟨ladderEffect s, rfl, keepsControl_ladder s⟩
  | recip rd ra =>
    have hr : (inRecipScratch rd || inRecipScratch ra) = false := by
      cases h1 : inRecipScratch rd <;> cases h2 : inRecipScratch ra <;> simp_all [offerError, wellFormed]
    exact ⟨recipEffect rd ra s, by simp [exec, execRecip, hr], keepsControl_recip rd ra s⟩
  | smult =>
    exact ⟨smultEffect s, rfl,
      ((keepsControl_runPrims _ s).trans (keepsControl_ladder _)).trans (keepsControl_scalarMultEnd _)⟩
  | smultb =>
    exact ⟨smultbEffect s, rfl,
      ((keepsControl_runPrims _ s).trans (keepsControl_ladder _)).trans (keepsControl_scalarMultEnd _)⟩

/-- `exec` always answers a next state. -/
theorem exec_total (i : Instr) (s : State) : ∃ t, exec i s = .next t := by
  cases h : offerError i s.pos with
  | some c => exact ⟨_, exec_of_offerError i s c h⟩
  | none => exact (exec_next i s h).imp fun _ k => k.1

/-- The core's turn, said once (20_memory.md R68). -/
theorem coreStep_cases (s t : State) (h : coreStep s = .next t) :
    (s.busy = false ∧ t = s) ∨
      (s.busy = true ∧ ∃ i u, decode s.cmdr = .instr i ∧ exec i s = .next u ∧ t = u.complete) := by
  unfold coreStep at h
  split at h
  · rename_i hb
    split at h
    · rename_i i hi
      obtain ⟨u, hu⟩ := exec_total i s
      rw [hu] at h
      exact .inr ⟨hb, i, u, hi, hu, (Host.Outcome.next.inj h).symm⟩
    · cases h
    · cases h
  · rename_i hb
    exact .inl ⟨by simpa using hb, (Host.Outcome.next.inj h).symm⟩

/-- A step is the core's turn, a host access or a reset, as the first input says (20_memory.md R68). -/
theorem step_cases (s t : State) (h : step s = .next t) :
    (s.inputs = [] ∧ coreStep s = .next t) ∨
      (∃ rest, s.inputs = .coreTurn :: rest ∧ coreStep { s with inputs := rest } = .next t) ∨
      (∃ off rest, s.inputs = .hostRead off :: rest ∧ t = hostReadStep off { s with inputs := rest }) ∨
      (∃ off v rest, s.inputs = .hostWrite off v :: rest ∧ t = hostWrite off v { s with inputs := rest }) ∨
      (∃ rest, s.inputs = .reset :: rest ∧ t = ({ s with inputs := rest } : State).applyReset) := by
  unfold step at h
  split at h
  · exact .inl ⟨‹_›, h⟩
  · exact .inr (.inl ⟨_, ‹_›, h⟩)
  · exact .inr (.inr (.inl ⟨_, _, ‹_›, (Host.Outcome.next.inj h).symm⟩))
  · exact .inr (.inr (.inr (.inl ⟨_, _, _, ‹_›, (Host.Outcome.next.inj h).symm⟩)))
  · exact .inr (.inr (.inr (.inr ⟨_, ‹_›, (Host.Outcome.next.inj h).symm⟩)))

/-- A step is the core step of a command, an idle turn, a host access or a reset; each takes the first input off the list
(20_memory.md R68, 70_reset_and_hazards.md R281). -/
theorem step_cases_coreRuns (s t : State) (h : step s = .next t) :
    (∃ i u, CoreRuns s i ∧ exec i { s with inputs := s.inputs.tail } = .next u ∧ t = u.complete) ∨
      (s.busy = false ∧ t = { s with inputs := s.inputs.tail }) ∨
      (∃ off rest, s.inputs = .hostRead off :: rest ∧ t = hostReadStep off { s with inputs := rest }) ∨
      (∃ off v rest, s.inputs = .hostWrite off v :: rest ∧ t = hostWrite off v { s with inputs := rest }) ∨
      (ResetNext s ∧ t = ({ s with inputs := s.inputs.tail } : State).applyReset) := by
  have turn (he : s.inputs = [] ∨ ∃ rest, s.inputs = .coreTurn :: rest)
      (hc : coreStep { s with inputs := s.inputs.tail } = .next t) :
      (∃ i u, CoreRuns s i ∧ exec i { s with inputs := s.inputs.tail } = .next u ∧ t = u.complete) ∨
        (s.busy = false ∧ t = { s with inputs := s.inputs.tail }) := by
    obtain ⟨hb, e⟩ | ⟨hb, i, u, hd, hu, e⟩ := coreStep_cases _ _ hc
    · exact .inr ⟨hb, e⟩
    · exact .inl ⟨i, u, ⟨hb, hd, he⟩, hu, e⟩
  obtain ⟨he, hc⟩ | ⟨rest, he, hc⟩ | hr | hw | ⟨rest, he, hx⟩ := step_cases s t h
  · exact (turn (.inl he) (by rw [he, List.tail_nil, ← he]; exact hc)).imp_right .inl
  · exact (turn (.inr ⟨rest, he⟩) (by rw [he]; exact hc)).imp_right .inl
  · exact .inr (.inr (.inl hr))
  · exact .inr (.inr (.inr (.inl hw)))
  · exact .inr (.inr (.inr (.inr ⟨⟨rest, he⟩, by rw [he]; exact hx⟩)))

end Sys2Proof.Machine
end

