-- ==== Sys2Proof/Laws/Field.lean ====
section
/-! SUPPORT. What a carry pass does (Machine/Field.lean), said once: its loop, its forms, and its value when nothing wraps. Every
value law of spec/40_field_arith.md R136 goes through these. -/

namespace Sys2Proof.Machine

theorem limb_of_lt (a : Fe) (j : Nat) (h : j < 32) : limb a j = a[j] := by simp [limb, h]

/-- A register is its limbs. -/
theorem fe_ext (a b : Fe) (h : ∀ j, j < 32 → limb a j = limb b j) : a = b := by
  ext1 j hj
  simpa [limb_of_lt, hj] using h j hj

theorem limb_ofFn (g : Fin 32 → Word) (j : Nat) (h : j < 32) : limb (.ofFn g) j = g ⟨j, h⟩ := by
  simp [limb_of_lt, h]

/-- The carries of the loop: `u` before each limb. -/
def carriesOf (u0 : Word) (term : Nat → Word) : Nat → Word
  | 0 => u0
  | j + 1 => (carriesOf u0 term j + term j) >>> 8

theorem carriesOf_succ (u0 : Word) (term : Nat → Word) (j : Nat) :
    carriesOf ((u0 + term 0) >>> 8) (fun k => term (k + 1)) j = carriesOf u0 term (j + 1) := by
  induction j with
  | zero => rfl
  | succ j ih => simp only [carriesOf] at ih ⊢; rw [ih]

/-- The limbs a carry pass over a list leaves: a low byte each, the last the whole sum. -/
theorem carryLimbs_getElem? (u : Word) (ts : List Word) (j : Nat) (h : j < ts.length) :
    (carryLimbs u ts)[j]? =
      some (if j + 1 = ts.length then carriesOf u (fun k => ts.getD k 0) j + ts.getD j 0
        else (carriesOf u (fun k => ts.getD k 0) j + ts.getD j 0) &&& 255) := by
  induction u, ts using carryLimbs.induct generalizing j with
  | case1 => simp at h
  | case2 u t =>
    have : j = 0 := by simpa using h
    subst this
    simp [carryLimbs, carriesOf]
  | case3 u t t' ts ih =>
    cases j with
    | zero => simp [carryLimbs, carriesOf]
    | succ j =>
      have hj : j < (t' :: ts).length := by simpa using h
      have c := carriesOf_succ u (fun k => (t :: t' :: ts).getD k 0) j
      simp only [List.getD_cons_zero, List.getD_cons_succ] at c
      simp only [carryLimbs, List.getElem?_cons_succ, ih j hj, List.getD_cons_succ, List.length_cons, Nat.add_right_cancel_iff,
        ← c]

theorem getElem_carryPass (u : Word) (t : Fe) (j : Nat) (h : j < 32) :
    limb (carryPass u t) j =
      if j = 31 then carriesOf u (limb t) j + limb t j else (carriesOf u (limb t) j + limb t j) &&& 255 := by
  have hl : t.toList.length = 32 := by simp
  have g : (fun k => t.toList.getD k 0) = limb t := by
    funext k
    by_cases hk : k < 32 <;> simp [limb, hk, List.getD_eq_getElem?_getD]
  have e := carryLimbs_getElem? u t.toList j (by omega)
  rw [hl, g] at e
  have g' : t.toList.getD j 0 = limb t j := congrFun g j
  simp only [g', show (j + 1 = 32) = (j = 31) by simp] at e
  rw [limb_of_lt _ j h]
  simp only [carryPass]
  rw [List.getElem?_eq_some_iff] at e
  obtain ⟨_, e⟩ := e
  simpa using e

/-- A carry pass is the loop of the spec (40_field_arith.md R124). -/
theorem carryPass_loop (u : Word) (t : Fe) : CarryLoop u (limb t) (carryPass u t) := by
  refine ⟨carriesOf u (limb t), rfl, fun j hj => ⟨?_, rfl⟩, ?_⟩
  · rw [getElem_carryPass u t j (by omega), if_neg (by omega)]
  · rw [getElem_carryPass u t 31 (by omega), if_pos rfl]

theorem and_255_toNat (w : Word) : (w &&& 255).toNat = w.toNat % 256 := by
  rw [BitVec.toNat_and]
  exact Nat.and_two_pow_sub_one_eq_mod w.toNat 8

theorem shift_8_toNat (w : Word) : (w >>> 8).toNat = w.toNat / 256 := by
  rw [BitVec.toNat_ushiftRight, Nat.shiftRight_eq_div_pow]

/-- Limbs 0..30 of a carry pass are bytes, whatever wraps. -/
theorem carryPass_bytes (u : Word) (t : Fe) (j : Nat) (h : j < 31) : (limb (carryPass u t) j).toNat ≤ 255 := by
  rw [getElem_carryPass u t j (by omega), if_neg (by omega), and_255_toNat]
  omega

/-- When no sum can wrap, a carry pass keeps the value and adds the carry it starts from. -/
theorem limbsValue_carryLimbs (u : Word) (ts : List Word) (hu : ∀ t ∈ ts, u.toNat + t.toNat < 2 ^ 32)
    (ht : ∀ t ∈ ts, t.toNat ≤ 2 ^ 32 - 2 ^ 24) (hne : ts ≠ []) :
    limbsValue (carryLimbs u ts) = u.toNat + limbsValue ts := by
  induction u, ts using carryLimbs.induct with
  | case1 => exact absurd rfl hne
  | case2 u t =>
    have := hu t (by simp)
    simp only [carryLimbs, limbsValue, BitVec.toNat_add]
    omega
  | case3 u t t' ts ih =>
    have h0 := hu t (by simp)
    have s : (u + t).toNat = u.toNat + t.toNat := by
      rw [BitVec.toNat_add]; omega
    have ih' := ih
      (fun x hx => by
        have := ht x (List.mem_cons_of_mem _ hx)
        rw [shift_8_toNat]
        omega)
      (fun x hx => ht x (List.mem_cons_of_mem _ hx)) (by simp)
    simp only [carryLimbs, limbsValue, and_255_toNat, shift_8_toNat, s] at ih' ⊢
    omega

/-- The value of a carry pass, when no sum can wrap. -/
theorem value_carryPass (u : Word) (t : Fe) (hu : ∀ j : Fin 32, u.toNat + t[j].toNat < 2 ^ 32)
    (ht : LimbsAtMost (2 ^ 32 - 2 ^ 24) t) : value (carryPass u t) = u.toNat + value t := by
  have hm : ∀ x ∈ t.toList, x.toNat ≤ 2 ^ 32 - 2 ^ 24 ∧ u.toNat + x.toNat < 2 ^ 32 := by
    intro x hx
    obtain ⟨j, hj, rfl⟩ := List.getElem_of_mem hx
    have hj' : j < 32 := by simpa using hj
    exact ⟨by simpa using ht ⟨j, hj'⟩, by simpa using hu ⟨j, hj'⟩⟩
  have hne : t.toList ≠ [] := by
    intro e
    have := congrArg List.length e
    simp at this
  simpa [value, carryPass] using limbsValue_carryLimbs u t.toList (fun x hx => (hm x hx).2) (fun x hx => (hm x hx).1) hne

/-- `Mulc` is `Squeeze` with every limb multiplied on the way in (40_field_arith.md R129). -/
theorem feMulc_eq_squeeze (a : Fe) : feMulc a = feSqueeze (.ofFn fun j => Config.a24 * a[j]) := rfl

end Sys2Proof.Machine
end

