-- ==== Sys2Proof/Laws/PerInstr.lean ====
section
/-! SUPPORT. One lemma per instruction: the word of a command is its opcode above its operands, and the zero fields of its format
are zero (spec/30_encoding.md R90 to R98). -/

namespace Sys2Proof.Laws.OperandsFit

/-- In the operand part of a word of this format, the zero fields are zero (30_encoding.md R91 to R96). -/
def zeroFields (n : Nat) : Format → Prop
  | .z => n = 0
  | .r3 => n % 2 ^ 9 = 0
  | .r2 => n % 2 ^ 14 = 0
  | .r1 => n % 2 ^ 19 = 0
  | .ri => n % 2 ^ 19 < 2 ^ 8
  | .ps => n % 2 ^ 8 < 2

/-- The operands fit below the opcode, so that the word is the one above the other, and leave the zero fields alone. -/
def Statement (i : Instr) : Prop :=
  (encode i).toNat = (opcode i).code.toNat * 2 ^ 24 + operandBits i ∧ operandBits i < 2 ^ 24 ∧
    zeroFields (operandBits i) (opcode i).format

/-- What is left to show once the operands are known to fit: an opcode is one byte. -/
theorem of_lt (i : Instr) (h : operandBits i < 2 ^ 24) (hz : zeroFields (operandBits i) (opcode i).format) : Statement i := by
  refine ⟨?_, h, hz⟩
  have hc := (opcode i).code.isLt
  simp only [encode, BitVec.toNat_ofNat]
  omega

theorem nop : Statement .nop :=
  of_lt _ (by decide) rfl

theorem wipe : Statement .wipe :=
  of_lt _ (by decide) rfl

theorem clrcnt : Statement .clrcnt :=
  of_lt _ (by decide) rfl

theorem clamp : Statement .clamp :=
  of_lt _ (by decide) rfl

theorem linit : Statement .linit :=
  of_lt _ (by decide) rfl

theorem lstep : Statement .lstep :=
  of_lt _ (by decide) rfl

theorem ladder : Statement .ladder :=
  of_lt _ (by decide) rfl

theorem smult : Statement .smult :=
  of_lt _ (by decide) rfl

theorem smultb : Statement .smultb :=
  of_lt _ (by decide) rfl

theorem add (rd ra rb : FReg) : Statement (.add rd ra rb) :=
  of_lt _ (by simp only [operandBits]; omega) (by simp only [zeroFields, opcode, Opcode.format, operandBits]; omega)

theorem sub (rd ra rb : FReg) : Statement (.sub rd ra rb) :=
  of_lt _ (by simp only [operandBits]; omega) (by simp only [zeroFields, opcode, Opcode.format, operandBits]; omega)

theorem mul (rd ra rb : FReg) : Statement (.mul rd ra rb) :=
  of_lt _ (by simp only [operandBits]; omega) (by simp only [zeroFields, opcode, Opcode.format, operandBits]; omega)

theorem sqr (rd ra : FReg) : Statement (.sqr rd ra) :=
  of_lt _ (by simp only [operandBits]; omega) (by simp only [zeroFields, opcode, Opcode.format, operandBits]; omega)

theorem mulc (rd ra : FReg) : Statement (.mulc rd ra) :=
  of_lt _ (by simp only [operandBits]; omega) (by simp only [zeroFields, opcode, Opcode.format, operandBits]; omega)

theorem mov (rd ra : FReg) : Statement (.mov rd ra) :=
  of_lt _ (by simp only [operandBits]; omega) (by simp only [zeroFields, opcode, Opcode.format, operandBits]; omega)

theorem recip (rd ra : FReg) : Statement (.recip rd ra) :=
  of_lt _ (by simp only [operandBits]; omega) (by simp only [zeroFields, opcode, Opcode.format, operandBits]; omega)

theorem sqz (r : FReg) : Statement (.sqz r) :=
  of_lt _ (by simp only [operandBits]; omega) (by simp only [zeroFields, opcode, Opcode.format, operandBits]; omega)

theorem frz (r : FReg) : Statement (.frz r) :=
  of_lt _ (by simp only [operandBits]; omega) (by simp only [zeroFields, opcode, Opcode.format, operandBits]; omega)

theorem ldpt (r : FReg) : Statement (.ldpt r) :=
  of_lt _ (by simp only [operandBits]; omega) (by simp only [zeroFields, opcode, Opcode.format, operandBits]; omega)

theorem stq (r : FReg) : Statement (.stq r) :=
  of_lt _ (by simp only [operandBits]; omega) (by simp only [zeroFields, opcode, Opcode.format, operandBits]; omega)

theorem setc (rd : FReg) (imm : Byte) : Statement (.setc rd imm) :=
  of_lt _ (by simp only [operandBits]; omega) (by simp only [zeroFields, opcode, Opcode.format, operandBits]; omega)

theorem sel (pd qd pr ps : PReg) (b : Bool) : Statement (.sel pd qd pr ps b) :=
  of_lt _ (by have := b.toNat_lt; simp only [operandBits]; omega)
    (by have := b.toNat_lt; simp only [zeroFields, opcode, Opcode.format, operandBits]; omega)

end Sys2Proof.Laws.OperandsFit
end

