-- ==== Sys2Proof/Tests/Slice0.lean ====
section
/-! SUPPORT. The model's own tests. Words and values come from spec/30_encoding.md R107 and spec/95_test_vectors.md, or are written
out from the format of spec/30_encoding.md R91 to R96. The theorems test_witness_… show states and operands that meet all the
hypotheses of the statement they are named after. -/

open Sys2Proof Sys2Proof.Machine

namespace Sys2Proof.Tests

set_option Elab.async false

/-! ## WellFormed -/

theorem test_sel_same_pair_is_ill_formed : wellFormed (.sel 4 4 2 3 true) = false := by decide
theorem test_sel_two_pairs_is_well_formed : wellFormed (.sel 15 14 15 14 true) = true := by decide
theorem test_recip_scratch_destination_is_ill_formed : wellFormed (.recip 4 1) = false ∧ wellFormed (.recip 13 1) = false := by
  decide
theorem test_recip_scratch_source_is_ill_formed : wellFormed (.recip 1 4) = false ∧ wellFormed (.recip 1 13) = false := by decide
theorem test_recip_beside_scratch_is_well_formed : wellFormed (.recip 3 14) = true ∧ wellFormed (.recip 14 3) = true := by decide

/-! ## Decoding, one word per constructor (95_test_vectors.md 2.1) -/

theorem test_decode_nop : decode 0x01000000 = .instr .nop := by decide
theorem test_decode_wipe : decode 0x02000000 = .instr .wipe := by decide
theorem test_decode_clrcnt : decode 0x03000000 = .instr .clrcnt := by decide
theorem test_decode_add : decode 0x10184400 = .instr (.add 3 1 2) := by decide
theorem test_decode_sub : decode 0x11FFBE00 = .instr (.sub 31 30 31) := by decide
theorem test_decode_mul : decode 0x1218FC00 = .instr (.mul 3 3 30) := by decide
theorem test_decode_sqr : decode 0x13A40000 = .instr (.sqr 20 16) := by decide
theorem test_decode_mulc : decode 0x14E6C000 = .instr (.mulc 28 27) := by decide
theorem test_decode_sqz : decode 0x15F80000 = .instr (.sqz 31) := by decide
theorem test_decode_frz : decode 0x16180000 = .instr (.frz 3) := by decide
theorem test_decode_mov : decode 0x20094000 = .instr (.mov 1 5) := by decide
theorem test_decode_setc : decode 0x21000009 = .instr (.setc 0 9) := by decide
/-- `OPC` 0x22, `RD` 5 in bits 23:19 (30_encoding.md R94). -/
theorem test_decode_ldpt : decode 0x22280000 = .instr (.ldpt 5) := by decide
theorem test_decode_stq : decode 0x23F80000 = .instr (.stq 31) := by decide
theorem test_decode_sel : decode 0x30FEDC01 = .instr (.sel 15 14 13 12 true) := by decide
theorem test_decode_sel_zero : decode 0x30236700 = .instr (.sel 2 3 6 7 false) := by decide
theorem test_decode_clamp : decode 0x40000000 = .instr .clamp := by decide
theorem test_decode_linit : decode 0x41000000 = .instr .linit := by decide
theorem test_decode_lstep : decode 0x42000000 = .instr .lstep := by decide
theorem test_decode_ladder : decode 0x43000000 = .instr .ladder := by decide
theorem test_decode_recip : decode 0x5070C000 = .instr (.recip 14 3) := by decide
theorem test_decode_smult : decode 0x60000000 = .instr .smult := by decide
theorem test_decode_smultb : decode 0x61000000 = .instr .smultb := by decide

/-- Unused opcodes, beside used ones (95_test_vectors.md 2.1). -/
theorem test_unused_opcodes_rejected :
    decode 0x00000000 = .unusedOpcode 0x00 ∧ decode 0xFFFFFFFF = .unusedOpcode 0xFF ∧ decode 0x44000000 = .unusedOpcode 0x44 ∧
    decode 0x62000000 = .unusedOpcode 0x62 ∧ decode 0x04000000 = .unusedOpcode 0x04 ∧ decode 0x17000000 = .unusedOpcode 0x17 ∧
    decode 0x24000000 = .unusedOpcode 0x24 ∧ decode 0x31000000 = .unusedOpcode 0x31 := by decide

/-- A non-zero bit in a zero field of each format (95_test_vectors.md 2.1). -/
theorem test_reserved_bits_rejected :
    decode 0x01000001 = .reservedBits .nop ∧ decode 0x10184401 = .reservedBits .add ∧ decode 0x10184500 = .reservedBits .add ∧
    decode 0x13A42000 = .reservedBits .sqr ∧ decode 0x15180001 = .reservedBits .sqz ∧ decode 0x21000109 = .reservedBits .setc ∧
    decode 0x30452303 = .reservedBits .sel ∧ decode 0x30452381 = .reservedBits .sel ∧ decode 0x60000001 = .reservedBits .smult := by
  decide

theorem test_encode_sel : encode (.sel 4 5 2 3 true) = 0x30452301 := by decide
theorem test_encode_recip : encode (.recip 1 1) = 0x50084000 := by decide
theorem test_cswap_is_sel : encode (pseudoCswap 2 3 true) = 0x30232301 := by decide
theorem test_asm_of_stq : asmText (.stq 31) = "STQ F31" := by
  simp [asmText, asmLine, fregText]
  decide

/-! ## Field arithmetic (95_test_vectors.md 2.2 to 2.7) -/

/-- A register with all limbs alike. -/
def every (w : Word) : Fe := .replicate 32 w

theorem test_add_keeps_top_sum : feAdd (every 255) (every 255) = fe3 254 255 0x1FF := by decide +kernel
theorem test_add_wraps_in_limb_0 : feAdd (fe3 0xFFFFFFFF 0 0) (fe3 1 0 0) = fe3 0 0 0 := by decide +kernel
theorem test_sub_below_zero_mod_P : feSub (fe3 5 0 0) (fe3 7 0 0) = fe3 0xD8 255 255 := by decide +kernel
/-- Limb 0 of `b` above a byte: `u + 65280 - 65499` wraps at limb 0 (95_test_vectors.md 2.3, last row). -/
theorem test_sub_wraps_in_limb_0 :
    feSub (fe3 0 0 0) (fe3 65499 0 0) = ((((fe3 0 0 0x100).set 0 255).set 1 255).set 2 254).set 3 255 := by decide +kernel
theorem test_squeeze_folds_top : feSqueeze (every 255) = fe3 0x12 0 0x80 := by decide +kernel
theorem test_squeeze_can_leave_128 : feSqueeze (fe3 0xED 255 255) = fe3 0 0 128 := by decide +kernel
theorem test_mult_folds_by_38 : feMult (fe3 0 0 1) ((fe3 0 0 0).set 1 1) = fe3 0x26 0 0 := by decide +kernel
theorem test_square_of_all_255 : feSquare (every 255) = (fe3 0x46 0 0x80).set 1 5 := by decide +kernel
theorem test_mulc_of_minus_one : feMulc (fe3 0xEC 255 0x7F) = ((fe3 0xAC 255 0x7F).set 1 0x24).set 2 0xFE := by decide +kernel
theorem test_mulc_wraps : feMulc (fe3 0 0 40000) =
    ((((fe3 0x08 0 0x40).set 1 0xBC).set 2 0x0E).set 3 0x05) := by decide +kernel
theorem test_freeze_of_P : feFreeze (fe3 0xED 255 0x7F) = fe3 0 0 0 := by decide +kernel
theorem test_freeze_outside_domain : feFreeze (fe3 0 0 300) = fe3 0 0 44 := by decide +kernel

/-! ## Commands, one step each -/

/-- The reset state with one register set. -/
def withF (r : FReg) (a : Fe) : State := State.reset.setF r a

/-- The reset state with the command of a word accepted. -/
def latched (w : Word) : State := State.reset.accept w

/-- What a step leaves, the state itself where it stops. -/
def after (o : Host.Outcome State Fault Refusal) (s : State) : State :=
  match o with
  | .next t => t
  | .fault _ => s
  | .refused _ => s

/-- The reset state after the data effect of a command on `s`. -/
def run1 (i : Instr) (s : State) : State := after (exec i s) s

theorem test_add_aliased : (run1 (.add 1 1 1) (withF 1 (every 200))).f[1] = fe3 144 145 0x191 := by decide +kernel
theorem test_add_counts : (run1 (.add 1 1 1) State.reset).cnt.toList = [1, 0, 0, 0, 0, 0, 0, 0, 0] := by decide +kernel
theorem test_sub_of_itself : (run1 (.sub 1 1 1) (withF 1 (every 200))).f[1] = fe3 0xDA 255 255 := by decide +kernel
theorem test_mul_aliased : (run1 (.mul 1 1 1) (withF 1 (fe3 3 0 0))).f[1] = fe3 9 0 0 := by decide +kernel
theorem test_sqr_counts : (run1 (.sqr 31 2) State.reset).cnt.toList = [0, 0, 0, 1, 0, 0, 0, 0, 0] := by decide +kernel
theorem test_mulc_of_one : (run1 (.mulc 28 27) (withF 27 (fe3 1 0 0))).f[28] = ((fe3 0x41 0 0).set 1 0xDB).set 2 1 := by decide +kernel
theorem test_sqz_in_place : (run1 (.sqz 3) (withF 3 (fe3 0 0 256))).f[3] = fe3 0x26 0 0 := by decide +kernel
theorem test_frz_in_place : (run1 (.frz 2) (withF 2 (fe3 5 0 0x80))).f[2] = fe3 0x18 0 0 := by decide +kernel

/-- The start of 95_test_vectors.md 2.8. -/
def selStart : State := (((State.reset.setF 4 (every 1)).setF 5 (every 2)).setF 6 (every 3)).setF 7 (every 0xFFFFFFFF)

theorem test_sel_exchanges : ((run1 (.sel 4 5 2 3 true) selStart).f[8], (run1 (.sel 4 5 2 3 true) selStart).f[11]) =
    (every 3, every 2) := by decide +kernel
theorem test_sel_in_place_swap : ((run1 (.sel 2 3 2 3 true) selStart).f[5], (run1 (.sel 2 3 2 3 true) selStart).f[6]) =
    (every 0xFFFFFFFF, every 1) := by decide +kernel
theorem test_mov_copies_all_bits : (run1 (.mov 0 4) (withF 4 (every 0xABCDEF12))).f[0] = every 0xABCDEF12 := by decide +kernel
theorem test_setc_nine : (run1 (.setc 0 9) (withF 0 (every 7))).f[0] = fe3 9 0 0 := by decide +kernel
theorem test_ldpt_keeps_bit_255 : (run1 (.ldpt 5) { State.reset with pt := .replicate 32 255 }).f[5] = every 255 := by decide +kernel
theorem test_stq_truncates : (run1 (.stq 3) (withF 3 (((fe3 0x1FF 0 0x180).set 1 0x100).set 2 0xABCDEF12))).q =
    ((((Vector.replicate 32 0).set 0 0xFF).set 2 0x12).set 31 0x80) := by decide +kernel
theorem test_nop_changes_nothing : run1 .nop selStart = selStart := by decide +kernel
theorem test_wipe_keeps_counters : (run1 .wipe (run1 (.add 1 1 1) selStart)).cnt.toList = [1, 0, 0, 0, 0, 0, 0, 0, 0] := by decide +kernel
theorem test_wipe_clears_registers : (run1 .wipe selStart).f = State.reset.f := by decide +kernel
theorem test_clrcnt_clears : (run1 .clrcnt (run1 (.add 1 1 1) selStart)).cnt.toList = [0, 0, 0, 0, 0, 0, 0, 0, 0] := by decide +kernel
theorem test_clamp_of_ff : (run1 .clamp { State.reset with n := .replicate 32 0xFF }).e =
    ((Vector.replicate 32 0xFF).set 0 0xF8).set 31 0x7F := by decide +kernel
theorem test_linit_arms : (run1 .linit (withF 0 (fe3 9 0 0))).pos = 254 ∧ (run1 .linit (withF 0 (fe3 9 0 0))).f[4] = fe3 1 0 0 ∧
    (run1 .linit (withF 0 (fe3 9 0 0))).f[6] = fe3 9 0 0 := by decide +kernel

/-- V-L1 of 95_test_vectors.md 2.10 with the top byte of `E` as there. -/
def ladderStart : State := run1 .linit { withF 0 (fe3 9 0 0) with e := (Vector.replicate 32 0).set 31 0x6A }

/-- V-L2: bit 254 is 1, so the accumulator doubled is `XZM1`. -/
theorem test_lstep_first : (run1 .lstep ladderStart).pos = 253 ∧ (run1 .lstep ladderStart).f[16] = fe3 0x0A 0 0 ∧
    (run1 .lstep ladderStart).f[17] = fe3 0xE2 255 255 := by decide +kernel
theorem test_lstep_refused_at_255 : run1 .lstep State.reset = { State.reset with err := .ladder, errInfo := 0x42000000 } := by
  decide +kernel
theorem test_ladder_is_listed : linitPrims.length = 4 ∧ (lstepPrims true).length = 20 ∧ Config.nStep = 255 := by decide +kernel
theorem test_recip_counts : countPrims 3 (recipPrims 1 1) = 254 ∧ countPrims 2 (recipPrims 1 1) = 11 := by decide +kernel
theorem test_recip_refused : run1 (.recip 1 4) State.reset = { State.reset with err := .operand, errInfo := 0x50090000 } := by decide +kernel
theorem test_smult_completes : step (State.reset.withFetchWord 32 0x60000000) =
    .next (smultEffect (latched 0x60000000)).complete := rfl
theorem test_smultb_completes : step (State.reset.withFetchWord 32 0x61000000) =
    .next (smultbEffect (latched 0x61000000)).complete := rfl

/-! ## Host accesses (95_test_vectors.md 2.14) -/

/-- The state after one host write. -/
def write (off v : Word) (s : State) : State := after (step { s with inputs := [.hostWrite off v] }) s

/-- The state after one host read. -/
def read (off : Word) (s : State) : State := after (step { s with inputs := [.hostRead off] }) s

theorem test_illegal_word_recorded : statusWord (write 0 0 State.reset) = 0x100 ∧ (write 0 0x10184401 State.reset).errInfo = 0x10184401 := by
  decide +kernel
theorem test_command_dropped_while_error : write 0 0x01000000 (write 0 0 State.reset) = write 0 0 State.reset := by decide +kernel
theorem test_nop_accepted : statusWord (write 0 0x01000000 State.reset) = 0x001 ∧ (write 0 0x01000000 State.reset).cmdr = 0x01000000 := by
  decide +kernel
theorem test_nop_done : statusWord (after (step (write 0 0x01000000 State.reset)) State.reset) = 0x002 := by decide +kernel
theorem test_operand_error : statusWord (write 0 0x30442301 State.reset) = 0x200 := by decide +kernel
theorem test_ladder_error : statusWord (write 0 0x42000000 State.reset) = 0x400 := by decide +kernel
theorem test_busy_read_refused : statusWord (read 0x1000 (latched 0x5070C000)) = 0x301 ∧
    (read 0x1000 (latched 0x5070C000)).errInfo = 0x1000 ∧ (read 0x1000 (latched 0x5070C000)).replies = [0] := by decide +kernel
theorem test_unmapped_read_refused : statusWord (read 0x018 State.reset) = 0x500 ∧ (read 0x1002 State.reset).errInfo = 0x1002 := by decide +kernel
theorem test_result_not_writable : statusWord (write 0x180 1 State.reset) = 0x500 := by decide +kernel
theorem test_irq_by_error : irq (read 0x018 (write 0x008 3 State.reset)) = true := by decide +kernel
theorem test_byte_register_keeps_8_bits : (read 0x080 (write 0x080 0x1FF State.reset)).replies = [0xFF] := by decide +kernel
theorem test_limb_keeps_32_bits : ((write 0x11FC 0xDEADBEEF State.reset).f[3])[31] = 0xDEADBEEF := by decide +kernel
theorem test_acknowledge_clears : write 0x00C 3 (write 0 0 State.reset) = State.reset := by decide +kernel

/-! ## Witnesses: states and operands that meet the hypotheses of the statements, clause by clause at the ends of the ranges -/

/-- The reset state with one step asked for. -/
def asks (i : Input) (s : State) : State := { s with inputs := [i] }

/-- The reset state with a position. -/
def at_ (p : Byte) : State := { State.reset with pos := p }

/-- An error recorded after reset. -/
def failed : State := State.reset.raise .illCmd 0x44000000

theorem step_write (off v : Word) (s : State) : step (asks (.hostWrite off v) s) = .next (hostWrite off v { s with inputs := [] }) := rfl
theorem step_read (off : Word) (s : State) : step (asks (.hostRead off) s) = .next (hostReadStep off { s with inputs := [] }) := rfl
theorem step_reset (s : State) : step (asks .reset s) = .next ({ s with inputs := [] } : State).applyReset := rfl
theorem host_write (off v : Word) (s : State) : HostWrites s off v (hostWrite off v s) := rfl

/-- The step of an accepted command. -/
theorem step_core (s t : State) (i : Instr) (h : s.busy = true ∧ s.inputs = [] ∧ decode s.cmdr = .instr i)
    (he : exec i s = .next t) : step s = .next t.complete := by
  obtain ⟨hb, hi, hd⟩ := h
  simp [step, hi, coreStep, hb, hd, he, finishCommand]

theorem test_witness_EncodeOfDecode : decode 0x50684000 = .instr (.recip 13 1) := by decide
theorem test_witness_IllegalWordRefused : State.reset.busy = false ∧ State.reset.err = .none ∧ (∀ o, matchesRow o 0x44000000 = false) ∧
    (∀ o, matchesRow o 0x30452303 = false) ∧ opcodeOf (slice 24 8 0x44000000) = none ∧
    opcodeOf (slice 24 8 0x30452303) = some .sel ∧ zeroFieldsClear 0x30452303 Opcode.sel.format = false := by
  refine ⟨rfl, rfl, fun o => ?_, fun o => ?_, by decide, by decide, by decide⟩ <;> cases o <;> decide

theorem test_witness_OfferOutcome_busy : (latched 0x01000000).busy = true := rfl
theorem test_witness_OfferOutcome_dropped : failed.busy = false ∧ failed.err ≠ .none := by decide
theorem test_witness_OfferOutcome_illegal : (at_ 0).busy = false ∧ (at_ 0).err = .none ∧ ∀ o, matchesRow o 0xFFFFFFFF = false :=
  ⟨rfl, rfl, fun o => by cases o <;> decide⟩
theorem test_witness_OfferOutcome_sel : (at_ 0).busy = false ∧ (at_ 0).err = .none ∧
    decode 0x30442301 = .instr (.sel 4 4 2 3 true) ∧ decode 0x30FFFF00 = .instr (.sel 15 15 15 15 false) := by decide
theorem test_witness_OfferOutcome_recip : (at_ 0).busy = false ∧ (at_ 0).err = .none ∧
    decode 0x50204000 = .instr (.recip 4 1) ∧ decode 0x50684000 = .instr (.recip 13 1) ∧
    decode 0x50090000 = .instr (.recip 1 4) ∧ decode 0x500B4000 = .instr (.recip 1 13) := by decide
theorem test_witness_OfferOutcome_lstep : (at_ 255).busy = false ∧ (at_ 255).err = .none ∧ decode 0x42000000 = .instr .lstep ∧
    (at_ 255).pos = 255 := by decide
theorem test_witness_OfferOutcome_accepted_lstep : decode 0x42000000 = .instr .lstep ∧ (at_ 0).pos ≠ 255 ∧ (at_ 254).pos ≠ 255 := by
  decide
theorem test_witness_OfferOutcome_accepted_recip : decode 0x501B8000 = .instr (.recip 3 14) ∧
    decode 0x5070C000 = .instr (.recip 14 3) ∧ ∀ r : FReg, r = 3 ∨ r = 14 → ¬(4 ≤ r.val ∧ r.val ≤ 13) := by decide
theorem test_witness_OfferOutcome_accepted_sel : ∀ pd pr ps b, Instr.sel 0 15 2 3 true ≠ .sel pd pd pr ps b := by
  intro pd pr ps b h
  injection h with h1 h2
  exact absurd (h1.trans h2.symm) (by decide)

theorem test_witness_ForbiddenOperandsRefused : (at_ 255).busy = false ∧ (at_ 255).err = .none ∧ (at_ 255).pos = 255 ∧
    (∀ r : FReg, r = 4 ∨ r = 13 → 4 ≤ r.val ∧ r.val ≤ 13) ∧ ∀ r : FReg, r = 3 ∨ r = 14 → ¬(4 ≤ r.val ∧ r.val ≤ 13) := by decide
theorem test_witness_ForbiddenOperandsRefused_accepted : (∀ p r q b, Instr.lstep ≠ .sel p p r q b) ∧
    (∀ rd ra : FReg, Instr.lstep = .recip rd ra → ¬(4 ≤ rd.val ∧ rd.val ≤ 13) ∧ ¬(4 ≤ ra.val ∧ ra.val ≤ 13)) ∧
    (Instr.lstep = .lstep → (at_ 254).pos ≠ 255) :=
  ⟨by simp, by simp, by decide⟩
theorem test_witness_ExecRaisesForbidden : (at_ 255).pos = 255 ∧ 4 ≤ (4 : FReg).val ∧ (4 : FReg).val ≤ 13 ∧ 4 ≤ (13 : FReg).val ∧
    (13 : FReg).val ≤ 13 := by decide
theorem test_witness_StepRunsLatchedCommand : (latched 0x40000000).busy = true ∧ decode (latched 0x40000000).cmdr = .instr .clamp ∧
    (latched 0x40000000).inputs = [] ∧ (asks .coreTurn (latched 0x40000000)).inputs = [.coreTurn] ∧
    decodeTableWord 32 0x40000000 = some .clamp := by decide

/-- A command accepted after reset, with the position its rule wants, is a consistent state. -/
theorem consistent_latched (i : Instr) (p : Byte) (h : decode (encode i) = .instr i) (ho : offerError i p = none) :
    Consistent ({ at_ p with cmdr := encode i, busy := true } : State) where
  busyLatched := fun _ => ⟨i, h, ho⟩
  busyNotDone := fun _ => rfl
  noErrNoInfo := fun _ => rfl
  cmdrCommand := .inr ⟨i, h, by
    cases hw : wellFormed i
    · simp [offerError, hw] at ho
    · rfl⟩

/-- The last ladder step pending, accepted. -/
def lastStep : State := { at_ 0 with cmdr := 0x42000000, busy := true }

theorem test_witness_Consistent_busy : Consistent lastStep := consistent_latched .lstep 0 (by decide) (by decide)
theorem test_witness_Consistent_idle : Consistent State.reset := ⟨by simp [State.reset], by simp [State.reset], fun _ => rfl, .inl rfl⟩
theorem test_witness_Consistent_failed : Consistent failed :=
  ⟨fun h => absurd h (by decide), fun h => absurd h (by decide), fun h => absurd h (by decide), .inl rfl⟩

theorem test_witness_CoreStepCompletes : Consistent lastStep ∧ lastStep.busy = true ∧ lastStep.inputs = [] ∧
    State.reset.busy = false ∧ State.reset.inputs = [] ∧ (asks .coreTurn State.reset).inputs = [.coreTurn] :=
  ⟨test_witness_Consistent_busy, rfl, rfl, rfl, rfl, rfl⟩

/-! Limbs at their bounds. -/

theorem test_witness_AddResult : LimbsAtMost (2 ^ 30) (withF 1 (every 0x40000000)).f[(1 : FReg)] := by decide +kernel
theorem test_witness_SubResult_value : LimbsAtMost (2 ^ 30) (withF 1 (every 0x40000000)).f[(1 : FReg)] ∧
    ByteForm (withF 2 (fe3 255 255 254)).f[(2 : FReg)] ∧ (limb (withF 2 (fe3 255 255 254)).f[(2 : FReg)] 31).toNat ≤ 254 := by
  decide +kernel
theorem test_witness_SubResult_bound : ByteForm (withF 1 (every 255)).f[(1 : FReg)] ∧
    Squeezed (withF 2 (fe3 255 255 128)).f[(2 : FReg)] := by decide +kernel
theorem test_witness_SqueezeResult : LimbsAtMost (2 ^ 32 - 2 ^ 24) (withF 3 (every 0xFF000000)).f[(3 : FReg)] := by decide +kernel
theorem test_witness_SqueezeResult_P : (withF 3 (fe3 0xED 0xFF 0x7F)).f[(3 : FReg)] = fe3 0xED 0xFF 0x7F := by decide +kernel
theorem test_witness_MulResult : LimbsAtMost 1900 (withF 1 (every 1900)).f[(1 : FReg)] := by decide +kernel
theorem test_witness_SqrResult : LimbsAtMost 1900 (withF 2 (every 1900)).f[(2 : FReg)] := by decide +kernel
theorem test_witness_MulcResult : LimbsAtMost 35000 (withF 27 (every 35000)).f[(27 : FReg)] := by decide +kernel
theorem test_witness_FreezeResult : ByteForm (withF 2 (fe3 0xD9 255 255)).f[(2 : FReg)] ∧
    value (withF 2 (fe3 0xD9 255 255)).f[(2 : FReg)] = 2 * Config.P - 1 := by decide +kernel
theorem test_witness_FreezeResult_squeezed : Squeezed (withF 2 (fe3 255 255 128)).f[(2 : FReg)] := by decide +kernel
theorem test_witness_SelectResult : (4 : PReg) ≠ 5 ∧ (0 : PReg) ≠ 15 ∧ (2 : FReg).val / 2 ≠ (0 : PReg).val ∧
    (29 : FReg).val / 2 ≠ (15 : PReg).val := by decide
theorem test_witness_StoreResultResult : ByteForm (withF 3 (every 255)).f[(3 : FReg)] := by decide +kernel
theorem test_witness_NopRuns : State.reset.busy = false ∧ State.reset.err = .none := by decide
theorem test_witness_LadderStepRunsItsListing : (at_ 254).pos ≠ 255 ∧ (at_ 0).pos ≠ 255 := by decide

/-- The registers a ladder step needs, at the bounds of their forms. -/
def stepBounds : State :=
  ((((({ State.reset with pos := 254 } : State).setF 0 (every 1900)).setF 4 (every 255)).setF 5 (fe3 255 255 128)).setF 6
    (every 255)).setF 7 (fe3 255 255 128)

theorem test_witness_LadderStepFieldFormulas : stepBounds.pos ≠ 255 ∧ LimbsAtMost 1900 stepBounds.f[(0 : FReg)] ∧
    ByteForm stepBounds.f[(4 : FReg)] ∧ Squeezed stepBounds.f[(5 : FReg)] ∧ ByteForm stepBounds.f[(6 : FReg)] ∧
    Squeezed stepBounds.f[(7 : FReg)] := by decide +kernel
theorem test_witness_HostSteppedLadderAgrees : State.reset.busy = false ∧ State.reset.err = .none := by decide
theorem test_witness_LadderComputesFieldLadder : ByteForm (withF 0 (every 255)).f[(0 : FReg)] ∧ 0 < 255 ∧ 254 < 255 := by
  decide +kernel
theorem test_witness_LadderStepFieldFormulas_last : ({ stepBounds with pos := 0 } : State).pos ≠ 255 ∧
    Squeezed ({ stepBounds with pos := 0 } : State).f[(7 : FReg)] := by decide +kernel
theorem test_witness_RecipRunsItsListing : ¬(4 ≤ (3 : FReg).val ∧ (3 : FReg).val ≤ 13) ∧
    ¬(4 ≤ (14 : FReg).val ∧ (14 : FReg).val ≤ 13) := by decide
theorem test_witness_RecipComputesPower : ¬(4 ≤ (3 : FReg).val ∧ (3 : FReg).val ≤ 13) ∧
    ¬(4 ≤ (14 : FReg).val ∧ (14 : FReg).val ≤ 13) ∧ LimbsAtMost 1900 (withF 14 (every 1900)).f[(14 : FReg)] := by decide +kernel

theorem bytesValue_zero : bytesValue (.replicate 32 0) = 0 := by decide +kernel
theorem bytesValue_one : bytesValue ((Vector.replicate 32 0).set 0 1) = 1 := by decide +kernel
/-- The little-endian bytes of `P` - 1. -/
def minusOneBytes : Bytes32 := ((Vector.replicate 32 0xFF).set 0 0xEC).set 31 0x7F
theorem bytesValue_minus_one : bytesValue minusOneBytes + 1 = Config.P := by decide +kernel

theorem test_witness_SmallOrderPointsGiveZero :
    (bytesValue ({ State.reset with pt := .replicate 32 0 } : State).pt : ZMod Config.P) = 0 ∧
    (bytesValue ({ State.reset with pt := (Vector.replicate 32 0).set 0 1 } : State).pt : ZMod Config.P) = 1 ∧
    (bytesValue ({ State.reset with pt := minusOneBytes } : State).pt : ZMod Config.P) = -1 := by
  refine ⟨?_, ?_, eq_neg_of_add_eq_zero_left ?_⟩
  · exact congrArg Nat.cast bytesValue_zero |>.trans Nat.cast_zero
  · exact congrArg Nat.cast bytesValue_one |>.trans Nat.cast_one
  have h := congrArg (Nat.cast : Nat → ZMod Config.P) bytesValue_minus_one
  simpa using h
theorem test_witness_OperationCountsFixed : (at_ 254).pos ≠ 255 ∧ ¬(4 ≤ (3 : FReg).val ∧ (3 : FReg).val ≤ 13) ∧
    ¬(4 ≤ (14 : FReg).val ∧ (14 : FReg).val ≤ 13) := by decide

/-! Steps that change each register. -/

theorem test_witness_PositionRule_exec : (∃ t, exec .linit State.reset = .next t) ∧ (∃ t, exec .ladder State.reset = .next t) ∧
    (∃ t, exec .lstep (at_ 255) = .next t) ∧ (∃ t, exec .lstep (at_ 0) = .next t) ∧ ∃ t, exec .nop (at_ 7) = .next t :=
  ⟨exec_total _ _, exec_total _ _, exec_total _ _, exec_total _ _, exec_total _ _⟩
theorem test_witness_PositionRule_reset : ∃ t, step (asks .reset (at_ 254)) = .next t ∧ t.pos ≠ (at_ 254).pos :=
  ⟨_, step_reset _, by decide⟩
theorem test_witness_PositionRule_core : ∃ t, step (latched 0x41000000) = .next t ∧ t.pos ≠ (latched 0x41000000).pos :=
  ⟨_, step_core _ _ .linit (by decide) rfl, by decide +kernel⟩

/-- Every byte register written. -/
def fullBytes : State :=
  { State.reset with n := .replicate 32 0xFF, e := .replicate 32 0xFF, pt := .replicate 32 0xFF, q := .replicate 32 0xFF }

theorem test_witness_ByteRegisterWriters_reset : ∃ t, step (asks .reset fullBytes) = .next t ∧ t.n ≠ fullBytes.n ∧
    t.e ≠ fullBytes.e ∧ t.pt ≠ fullBytes.pt ∧ t.q ≠ fullBytes.q := ⟨_, step_reset _, by decide +kernel⟩
theorem test_witness_ByteRegisterWriters_wipe : ∃ t, step (fullBytes.accept 0x02000000) = .next t ∧ t.n ≠ fullBytes.n ∧
    t.e ≠ fullBytes.e ∧ t.pt ≠ fullBytes.pt ∧ t.q ≠ fullBytes.q := ⟨_, step_core _ _ .wipe (by decide) rfl, by decide +kernel⟩
theorem test_witness_ByteRegisterWriters_host_n_first : ∃ t, step (asks (.hostWrite 0x080 1) State.reset) = .next t ∧
    t.n ≠ State.reset.n := ⟨_, step_write _ _ _, by decide +kernel⟩
theorem test_witness_ByteRegisterWriters_host_n_last : ∃ t, step (asks (.hostWrite 0x0FC 1) State.reset) = .next t ∧
    t.n ≠ State.reset.n := ⟨_, step_write _ _ _, by decide +kernel⟩
theorem test_witness_ByteRegisterWriters_host_pt_first : ∃ t, step (asks (.hostWrite 0x100 1) State.reset) = .next t ∧
    t.pt ≠ State.reset.pt := ⟨_, step_write _ _ _, by decide +kernel⟩
theorem test_witness_ByteRegisterWriters_host_pt_last : ∃ t, step (asks (.hostWrite 0x17C 1) State.reset) = .next t ∧
    t.pt ≠ State.reset.pt := ⟨_, step_write _ _ _, by decide +kernel⟩
theorem test_witness_ByteRegisterWriters_clamp : ∃ t, step (latched 0x40000000) = .next t ∧ t.e ≠ (latched 0x40000000).e :=
  ⟨_, step_core _ _ .clamp (by decide) rfl, by decide +kernel⟩
theorem test_witness_ByteRegisterWriters_stq : ∃ t, step ((withF 31 (every 255)).accept 0x23F80000) = .next t ∧
    t.q ≠ (withF 31 (every 255)).q := ⟨_, step_core _ _ (.stq 31) (by decide) rfl, by decide +kernel⟩

theorem test_witness_CommandRegisterRule_reset : ∃ t, step (asks .reset (latched 0x01000000)) = .next t ∧
    t.cmdr ≠ (latched 0x01000000).cmdr := ⟨_, step_reset _, by decide⟩
theorem test_witness_CommandRegisterRule_accept : ∃ t, step (asks (.hostWrite 0 0x01000000) State.reset) = .next t ∧
    t.cmdr ≠ State.reset.cmdr := ⟨_, step_write _ _ _, by decide +kernel⟩

theorem test_witness_CounterWriters_reset : ∃ t, step (asks .reset { State.reset with cnt := .replicate 9 0xFFFFFFFF }) = .next t ∧
    t.cnt ≠ .replicate 9 0xFFFFFFFF := ⟨_, step_reset _, by decide⟩
theorem test_witness_CounterWriters_core : ∃ t, step (latched 0x10184400) = .next t ∧ t.cnt ≠ (latched 0x10184400).cnt :=
  ⟨_, step_core _ _ (.add 3 1 2) (by decide) rfl, by decide +kernel⟩
theorem test_witness_CounterWriters_exec : (∃ t, exec .lstep (at_ 255) = .next t) ∧ (∃ t, exec .lstep (at_ 0) = .next t) ∧
    Instr.lstep ≠ .clrcnt ∧ ((at_ 0).pos = 255 ↔ (at_ 254).pos = 255) := ⟨exec_total _ _, exec_total _ _, by decide, by decide⟩

/-! Host accesses, at the ends of the ranges of the map. -/

theorem test_witness_IdleHostAccess : State.reset.busy = false ∧ (¬ MapReads 0x00C) ∧ (¬ MapReads 0x018) ∧ (¬ MapReads 0x064) ∧
    (¬ MapReads 0x280) ∧ (¬ MapReads 0x2000) ∧ (¬ MapReads 0x001) ∧ (¬ MapWrites 0x004) ∧ (¬ MapWrites 0x010) ∧
    (¬ MapWrites 0x180) ∧ (¬ MapWrites 0xFFC) ∧ (¬ MapWrites 0x2000) := by
  unfold MapReads MapWrites
  and_intros <;> decide +kernel
theorem test_witness_BusyHostAccess : lastStep.busy = true ∧ MapReads 0x010 ∧ MapReads 0x060 ∧ MapReads 0x080 ∧ MapReads 0x27C ∧
    MapReads 0x1000 ∧ MapReads 0x1FFC ∧ MapWrites 0x000 ∧ MapWrites 0x080 ∧ MapWrites 0x17C ∧ MapWrites 0x1000 ∧
    MapWrites 0x1FFC ∧ (¬ MapReads 0x00C) ∧ (¬ MapReads 0x280) ∧ (¬ MapWrites 0x004) ∧ (¬ MapWrites 0x180) := by
  unfold MapReads MapWrites
  and_intros <;> decide +kernel
theorem test_witness_BusyHostAccess_completes : Consistent lastStep ∧ lastStep.busy = true ∧ ∃ t, coreStep lastStep = .next t :=
  ⟨test_witness_Consistent_busy, rfl, by
    obtain ⟨t, h⟩ := exec_total .lstep lastStep
    exact ⟨t.complete, by simp [coreStep, show decode lastStep.cmdr = .instr .lstep by decide, show lastStep.busy = true from rfl, h,
      finishCommand]⟩⟩
theorem test_witness_AccessSideEffects_read : MapReads 0x000 ∧ MapReads 0x1FFC ∧ State.reset.busy = false := by
  unfold MapReads
  decide +kernel
theorem test_witness_AccessSideEffects_write : (∃ t, HostWrites State.reset 0x008 3 t) ∧ (∃ t, HostWrites State.reset 0x1FFC 3 t) ∧
    ∃ t, HostWrites lastStep 0x080 3 t := ⟨⟨_, host_write _ _ _⟩, ⟨_, host_write _ _ _⟩, ⟨_, host_write _ _ _⟩⟩
theorem test_witness_AccessSideEffects_cmd : ∃ t, HostWrites State.reset 0x000 0x01000000 t ∧ t.cmdr = 0x01000000 ∧ t.busy = true ∧
    State.reset.busy = false := ⟨_, host_write _ _ _, by decide +kernel⟩
theorem test_witness_FirstErrorKept : State.reset.err = .none ∧ failed.err ≠ .none := by decide
theorem test_witness_FirstErrorKept_steps : failed.err ≠ .none ∧ (∃ t, step (asks .reset failed) = .next t) ∧
    (∃ t, step (asks (.hostWrite 0x00C 2) failed) = .next t) ∧ ∃ t, step (asks (.hostRead 0x018) failed) = .next t :=
  ⟨by decide, ⟨_, step_reset _⟩, ⟨_, step_write _ _ _⟩, ⟨_, step_read _ _⟩⟩

theorem test_witness_StatusRegisterRule_completed : ∃ t, step (latched 0x01000000) = .next t ∧ (latched 0x01000000).busy = true ∧
    t.busy = false ∧ (latched 0x01000000).done = false ∧ t.done = true :=
  ⟨_, step_core _ _ .nop (by decide) rfl, by decide +kernel⟩
theorem test_witness_StatusRegisterRule_aborted : ∃ t, step (asks .reset (latched 0x01000000)) = .next t ∧ t.busy = false :=
  ⟨_, step_reset _, rfl⟩
theorem test_witness_StatusRegisterRule_accepted : ∃ t, step (asks (.hostWrite 0 0x01000000) { State.reset with done := true }) = .next t ∧
    t.busy = true ∧ t.done = false := ⟨_, step_write _ _ _, by decide +kernel⟩
theorem test_witness_StatusRegisterRule_cleared : (∃ t, step (asks .reset { State.reset with done := true }) = .next t ∧ t.done = false) ∧
    ∃ t, step (asks (.hostWrite 0x00C 1) { State.reset with done := true }) = .next t ∧ t.done = false :=
  ⟨⟨_, step_reset _, rfl⟩, ⟨_, step_write _ _ _, by decide +kernel⟩⟩

theorem test_witness_StatusRegisterRule_error : (∃ t, step (asks (.hostWrite 0x00C 2) failed) = .next t ∧ failed.err ≠ .none ∧
    t.err ≠ failed.err) ∧ (3 : Word).getLsbD 0 = true ∧ (3 : Word).getLsbD 1 = true ∧ (asks .reset failed).inputs = [.reset] :=
  ⟨⟨_, step_write _ _ _, by decide +kernel⟩, by decide, by decide, rfl⟩

theorem test_witness_InterruptLevel : (∃ t, HostWrites failed 0x008 2 t) ∧
    (∃ t, HostWrites failed 0x00C 3 t) ∧ (3 : Word).getLsbD 0 = true ∧ (3 : Word).getLsbD 1 = true ∧
    ∃ t, HostWrites State.reset 0x000 0x01000000 t ∧ State.reset.busy = false ∧ t.busy = true :=
  ⟨⟨_, host_write _ _ _⟩, ⟨_, host_write _ _ _⟩, by decide, by decide, _, host_write _ _ _, by decide +kernel⟩

/-! Whole steps. -/

theorem test_witness_ResetAtAnyTime : (asks .reset lastStep).inputs = [.reset] := rfl
theorem test_witness_StepKeepsConsistent : Consistent failed ∧ ∃ t, step (asks (.hostWrite 0x00C 3) failed) = .next t :=
  ⟨test_witness_Consistent_failed, _, step_write _ _ _⟩
theorem test_witness_ConsistentNeverStops : Consistent lastStep ∧ Consistent State.reset :=
  ⟨test_witness_Consistent_busy, test_witness_Consistent_idle⟩
theorem test_witness_CoreStepRaisesNothing : Consistent lastStep ∧ ∃ t, coreStep lastStep = .next t :=
  ⟨test_witness_Consistent_busy, test_witness_BusyHostAccess_completes.2.2⟩
theorem test_witness_ScalarStaysClamped : ScalarZeroOrClamped (latched 0x40000000).e ∧
    ScalarZeroOrClamped (clampScalar (.replicate 32 0xFF)) ∧ ∃ t, step (latched 0x40000000) = .next t :=
  ⟨.inl rfl, .inr (by decide +kernel), _, step_core _ _ .clamp (by decide) rfl⟩
theorem test_witness_ControlIndependentOfData : SameControl (latched 0x60000000) ((withF 0 (every 255)).accept 0x60000000) ∧
    ∃ t, step (latched 0x60000000) = .next t := ⟨⟨rfl, rfl, rfl, rfl, rfl, rfl, rfl, rfl, rfl⟩, _,
  step_core _ (smultEffect (latched 0x60000000)) .smult (by decide) rfl⟩

end Sys2Proof.Tests
end

section
/-! PROOFS of the statements about the state (spec/10_state.md): the reset values (R55), the acknowledge register (R42), the
command register (R32) and the status register (R40). The part they share says once what a step does to the handshake (`CMDR`, `BUSY`,
`DONE`) and to a recorded error. -/

open Sys2Proof Sys2Proof.Machine

namespace Sys2Proof.Proofs.StateRules

/-! ## Host accesses -/

theorem slotAt_cmd : slotAt 0x000 = some .cmd := rfl
theorem slotAt_status : slotAt 0x004 = some .status := rfl
theorem slotAt_ack : slotAt 0x00C = some .ack := rfl

/-- No other row of the map (20_memory.md R61) is `CMD`. -/
theorem slotAt_eq_cmd {off : Word} (h : slotAt off = some .cmd) : off = 0x000 := by
  by_contra hne
  have h0 : off.toNat ≠ 0x000 := fun e => hne (BitVec.eq_of_toNat_eq e)
  simp [slotAt, h0, ite_eq_iff, dite_eq_iff] at h

/-- No other row of the map (20_memory.md R61) is `ACK`. -/
theorem slotAt_eq_ack {off : Word} (h : slotAt off = some .ack) : off = 0x00C := by
  by_contra hne
  have h0 : off.toNat ≠ 0x00C := fun e => hne (BitVec.eq_of_toNat_eq e)
  simp [slotAt, h0, ite_eq_iff, dite_eq_iff] at h

/-- A write access always answers, with the state `hostWrite` gives. -/
theorem hostWrites_hostWrite (s : State) (off v : Word) : HostWrites s off v (hostWrite off v s) := rfl

/-- A read access always answers, with the state and the word `hostRead` gives. -/
theorem hostReads_of_hostRead_eq {s t : State} {off w : Word} (h : hostRead off s = (t, w)) : HostReads s off w t := by
  have hstep : HostReads s off (hostRead off s).2 (hostRead off s).1 := rfl
  rwa [h] at hstep

/-- A slot that may be read as `BUSY` stands is read without a side effect (20_memory.md R64, R66). -/
theorem hostReads_slot {s : State} {off : Word} {sl : Slot} (hs : slotAt off = some sl) (hr : slotReadable sl = true)
    (hb : s.busy = true → readableWhileBusy sl = true) : HostReads s off (slotWord s sl) s := by
  have hnone := (accessError_eq_none slotReadable readableWhileBusy off s.busy).mpr ⟨sl, hs, hr, hb⟩
  exact hostReads_of_hostRead_eq (by simp [hostRead, hnone, hs])

/-- A slot that may be written as `BUSY` stands is written (20_memory.md R64). -/
theorem hostWrites_slot {s : State} {off : Word} {sl : Slot} (v : Word) (hs : slotAt off = some sl)
    (hw : slotWritable sl = true) (hb : s.busy = true → writableWhileBusy sl = true) :
    HostWrites s off v (writeSlot v s sl) := by
  have hnone := (accessError_eq_none slotWritable writableWhileBusy off s.busy).mpr ⟨sl, hs, hw, hb⟩
  have heq : hostWrite off v s = writeSlot v s sl := by simp [hostWrite, hnone, hs]
  exact heq ▸ hostWrites_hostWrite s off v

/-- A read of a slot without that direction is `E_ADDR`, busy or not, and returns 0 (20_memory.md R63, R65). -/
theorem hostReads_not_readable {s : State} {off : Word} {sl : Slot} (hs : slotAt off = some sl)
    (hr : slotReadable sl = false) : HostReads s off 0 (s.raise .addr off) :=
  hostReads_of_hostRead_eq (by simp [hostRead, accessError, hs, hr])

/-- A write to a slot without that direction is `E_ADDR`, busy or not (20_memory.md R63, R65). -/
theorem hostWrites_not_writable {s : State} {off : Word} {sl : Slot} (v : Word) (hs : slotAt off = some sl)
    (hw : slotWritable sl = false) : HostWrites s off v (s.raise .addr off) := by
  have heq : hostWrite off v s = s.raise .addr off := by simp [hostWrite, accessError, hs, hw]
  exact heq ▸ hostWrites_hostWrite s off v

theorem hostWrites_ack (s : State) (v : Word) : HostWrites s 0x00C v (s.acknowledge v) :=
  hostWrites_slot v slotAt_ack rfl fun _ => rfl

/-! ## What a step does to the handshake -/

/-- The command register and the handshake bits are the same, and an error recorded before is still recorded. -/
structure KeepsHandshake (s t : State) : Prop where
  cmdr : t.cmdr = s.cmdr
  busy : t.busy = s.busy
  done : t.done = s.done
  err : s.err ≠ .none → t.err = s.err
  errInfo : s.err ≠ .none → t.errInfo = s.errInfo

theorem KeepsHandshake.refl (s : State) : KeepsHandshake s s := ⟨rfl, rfl, rfl, fun _ => rfl, fun _ => rfl⟩

/-- An error raised leaves the handshake alone, and a recorded error too (60_exceptions.md R246). -/
theorem keepsHandshake_raise (s : State) (c : ErrCode) (info : Word) : KeepsHandshake s (s.raise c info) :=
  ⟨rfl, rfl, rfl, fun he => by simp [he], fun he => by simp [he]⟩

/-- No data effect touches the handshake or a recorded error (20_memory.md R68). -/
theorem keepsHandshake_exec {i : Instr} {s t : State} (h : exec i s = .next t) : KeepsHandshake s t := by
  cases ho : offerError i s.pos with
  | some c =>
    rw [exec_of_offerError i s c ho, Host.Outcome.next.injEq] at h
    exact h ▸ keepsHandshake_raise s c _
  | none =>
    obtain ⟨u, hu, hk⟩ := exec_next i s ho
    rw [hu, Host.Outcome.next.injEq] at h
    subst h
    exact ⟨hk.cmdr, hk.busy, hk.done, fun _ => hk.err, fun _ => hk.errInfo⟩

theorem keepsHandshake_hostReadStep (off : Word) (s : State) : KeepsHandshake s (hostReadStep off s) := by
  obtain ⟨c, -, h⟩ | ⟨sl, -, -, h⟩ := hostRead_cases off s
  · have hr := keepsHandshake_raise s c off
    simp only [hostReadStep, h]
    exact ⟨hr.cmdr, hr.busy, hr.done, hr.err, hr.errInfo⟩
  · simp only [hostReadStep, h]
    exact ⟨rfl, rfl, rfl, fun _ => rfl, fun _ => rfl⟩

/-- Only an accepted command and an acknowledge touch the handshake among the host's writes (60_exceptions.md R244, R251). -/
theorem hostWrite_handshake (off v : Word) (s : State) :
    KeepsHandshake s (hostWrite off v s) ∨
      (off = 0x000 ∧ s.busy = false ∧ s.err = .none ∧ hostWrite off v s = s.accept v) ∨
      (off = 0x00C ∧ hostWrite off v s = s.acknowledge v) := by
  obtain ⟨c, -, h⟩ | ⟨sl, hs, -, h⟩ := hostWrite_cases off v s
  · exact .inl (h ▸ keepsHandshake_raise s c off)
  rw [h]
  cases sl with
  | cmd =>
    change KeepsHandshake s (offer v s) ∨ _
    obtain ⟨-, ho⟩ | ⟨-, -, ho⟩ | ⟨-, -, -, ho⟩ | ⟨-, -, _, c, -, -, ho⟩ | ⟨hb, he, -, -, -, ho⟩ := offer_cases v s
    · exact .inl (ho ▸ keepsHandshake_raise s _ _)
    · exact .inl (ho.symm ▸ .refl s)
    · exact .inl (ho ▸ keepsHandshake_raise s _ _)
    · exact .inl (ho ▸ keepsHandshake_raise s _ _)
    · exact .inr (.inl ⟨slotAt_eq_cmd hs, hb, he, ho⟩)
  | ack => exact .inr (.inr ⟨slotAt_eq_ack hs, rfl⟩)
  | status | ctrl | posr | errInfo | cnt | n | pt | q | e | f =>
    exact .inl ⟨rfl, rfl, rfl, fun _ => rfl, fun _ => rfl⟩

/-- What one step can do to the handshake and to a recorded error. -/
inductive HandshakeStep (s t : State) : Prop
  /-- Nothing: an idle core's turn, a read, a write refused or to a slot outside the handshake, an offer dropped or refused. -/
  | keeps (h : KeepsHandshake s t)
  /-- The core completes the latched command (20_memory.md R68). -/
  | completes (i : Instr) (runs : CoreRuns s i) (cmdr : t.cmdr = s.cmdr) (busy : t.busy = false) (done : t.done = true)
      (err : s.err ≠ .none → t.err = s.err ∧ t.errInfo = s.errInfo)
  /-- A command is accepted (60_exceptions.md R244). -/
  | accepts (w : Word) (rest : List Input) (asked : s.inputs = .hostWrite 0x000 w :: rest) (idle : s.busy = false)
      (clear : s.err = .none) (eq : t = { s.accept w with inputs := rest })
  /-- The host writes `ACK` (60_exceptions.md R251). -/
  | acknowledges (v : Word) (rest : List Input) (asked : s.inputs = .hostWrite 0x00C v :: rest)
      (eq : t = { s.acknowledge v with inputs := rest })
  /-- Reset (70_reset_and_hazards.md R281). -/
  | resets (rest : List Input) (asked : s.inputs = .reset :: rest)
      (eq : t = { State.reset with inputs := rest, replies := s.replies })

theorem step_handshake {s t : State} (h : step s = .next t) : HandshakeStep s t := by
  obtain ⟨i, u, hr, hx, rfl⟩ | ⟨-, rfl⟩ | ⟨off, rest, -, rfl⟩ | ⟨off, v, rest, hi, rfl⟩ | ⟨⟨rest, hi⟩, rfl⟩ :=
    step_cases_coreRuns s t h
  · have hk := keepsHandshake_exec hx
    exact .completes i hr hk.cmdr rfl rfl fun he => ⟨hk.err he, hk.errInfo he⟩
  · exact .keeps ⟨rfl, rfl, rfl, fun _ => rfl, fun _ => rfl⟩
  · have hk := keepsHandshake_hostReadStep off { s with inputs := rest }
    exact .keeps ⟨hk.cmdr, hk.busy, hk.done, hk.err, hk.errInfo⟩
  · obtain hk | ⟨rfl, hb, he, hw⟩ | ⟨rfl, hw⟩ := hostWrite_handshake off v { s with inputs := rest }
    · exact .keeps ⟨hk.cmdr, hk.busy, hk.done, hk.err, hk.errInfo⟩
    · exact .accepts v rest hi hb he hw
    · exact .acknowledges v rest hi hw
  · exact .resets rest hi (by simp [State.applyReset_eq, hi])

/-! ## The rules of STATUS, one per change of a bit -/

section
variable {s t : State} (h : step s = .next t)
include h

theorem step_clears_busy (hs : s.busy = true) (ht : t.busy = false) :
    (∃ rest, s.inputs = .reset :: rest) ∨
      (t.done = true ∧ (s.inputs = [] ∨ ∃ rest, s.inputs = .coreTurn :: rest)) := by
  cases step_handshake h with
  | keeps k => simp [k.busy, hs] at ht
  | completes i runs _ _ done =>
    obtain ⟨-, -, turn⟩ := runs
    exact .inr ⟨done, turn⟩
  | accepts w rest _ idle => simp [idle] at hs
  | acknowledges v rest _ eq => simp [eq, hs] at ht
  | resets rest asked => exact .inl ⟨rest, asked⟩

theorem step_sets_busy (hs : s.busy = false) (ht : t.busy = true) :
    t.done = false ∧ ∃ w rest, s.inputs = .hostWrite 0x000 w :: rest ∧ t.cmdr = w := by
  cases step_handshake h with
  | keeps k => simp [k.busy, hs] at ht
  | completes i _ _ busy => simp [busy] at ht
  | accepts w rest asked _ _ eq => exact ⟨by rw [eq]; rfl, w, rest, asked, by rw [eq]; rfl⟩
  | acknowledges v rest _ eq => simp [eq, hs] at ht
  | resets rest _ eq => simp [eq, State.reset] at ht

theorem step_sets_done (hs : s.done = false) (ht : t.done = true) : s.busy = true ∧ t.busy = false := by
  cases step_handshake h with
  | keeps k => simp [k.done, hs] at ht
  | completes i runs _ busy => exact ⟨runs.1, busy⟩
  | accepts w rest _ _ _ eq => simp [eq] at ht
  | acknowledges v rest _ eq => simp [eq, hs] at ht
  | resets rest _ eq => simp [eq, State.reset] at ht

theorem step_clears_done (hs : s.done = true) (ht : t.done = false) :
    (∃ rest, s.inputs = .reset :: rest) ∨ (s.busy = false ∧ t.busy = true) ∨
      ∃ v rest, s.inputs = .hostWrite 0x00C v :: rest ∧ v.getLsbD 0 = true := by
  cases step_handshake h with
  | keeps k => simp [k.done, hs] at ht
  | completes i _ _ _ done => simp [done] at ht
  | accepts w rest _ idle _ eq => exact .inr (.inl ⟨idle, by rw [eq]; rfl⟩)
  | acknowledges v rest asked eq =>
    have hv : v.getLsbD 0 = true := by simpa [eq, hs] using ht
    exact .inr (.inr ⟨v, rest, asked, hv⟩)
  | resets rest asked => exact .inl ⟨rest, asked⟩

theorem step_changes_err (hs : s.err ≠ .none) (ht : t.err ≠ s.err) :
    t.err = .none ∧ ((∃ rest, s.inputs = .reset :: rest) ∨
      ∃ v rest, s.inputs = .hostWrite 0x00C v :: rest ∧ v.getLsbD 1 = true) := by
  cases step_handshake h with
  | keeps k => exact absurd (k.err hs) ht
  | completes i _ _ _ _ err => exact absurd (err hs).1 ht
  | accepts w rest _ _ clear => exact absurd clear hs
  | acknowledges v rest asked eq =>
    have hv : v.getLsbD 1 = true := by
      by_contra hv
      exact ht (by rw [eq]; exact if_neg hv)
    exact ⟨by simp [eq, hv], .inr ⟨v, rest, asked, hv⟩⟩
  | resets rest asked eq => exact ⟨by rw [eq]; rfl, .inl ⟨rest, asked⟩⟩

end

theorem getLsbD_bitWord (b : Bool) (i : Nat) : (bitWord b).getLsbD i = (decide (i = 0) && b) := by
  cases b <;> simp [bitWord, BitVec.getLsbD_one]

theorem getLsbD_statusWord (s : State) (i : Nat) : (statusWord s).getLsbD i =
    (if i = 0 then s.busy else if i = 1 then s.done else
      if 8 ≤ i ∧ i ≤ 11 then (errNumber s.err).getLsbD (i - 8) else false) := by
  simp only [statusWord, BitVec.getLsbD_or, BitVec.getLsbD_shiftLeft, BitVec.getLsbD_setWidth, getLsbD_bitWord]
  by_cases h0 : i = 0
  · simp [h0]
  by_cases h1 : i = 1
  · simp [h1]
  by_cases hlow : i < 8
  · simp [h0, h1, hlow, show ¬ (8 ≤ i ∧ i ≤ 11) by omega, show i - 1 ≠ 0 by omega]
  by_cases herr : i ≤ 11
  · simp [h0, h1, hlow, herr, show 8 ≤ i by omega, show i - 1 ≠ 0 by omega, show i < 32 by omega, show i - 8 < 32 by omega]
  · have hhigh : (errNumber s.err).getLsbD (i - 8) = false := BitVec.getLsbD_of_ge _ _ (by omega)
    simp [h0, h1, herr, hhigh, show i - 1 ≠ 0 by omega]

theorem statusWord_applyReset (s : State) : statusWord s.applyReset = 0 := by
  simp [statusWord, State.applyReset_eq, State.reset, bitWord, errNumber]

/-! ## The statements -/

/-- Settles O53: every piece of state is the constant that `State.reset` writes out (10_state.md R55). -/
theorem resetValues : Obligations.ResetValues := by
  unfold Obligations.ResetValues
  exact ⟨fun r j => by simp [State.reset], fun i => by simp [State.reset], rfl, rfl, rfl, rfl, rfl, rfl, rfl,
    fun k => by simp [State.reset], rfl⟩

/-- Settles O50: `ACK` is a slot that is written busy or not and never read (10_state.md R42). -/
theorem acknowledgeRule : Obligations.AcknowledgeRule := by
  unfold Obligations.AcknowledgeRule
  intro s v
  have hdone : (s.done && !v.getLsbD 0) = if v.getLsbD 0 then false else s.done := by cases v.getLsbD 0 <;> simp
  refine ⟨?_, hostReads_not_readable slotAt_ack rfl⟩
  rw [hdone]
  exact hostWrites_ack s v

/-- Settles O44: of the ways a step treats the handshake, only acceptance and reset write `CMDR` (10_state.md R32). -/
theorem commandRegisterRule : Obligations.CommandRegisterRule := by
  unfold Obligations.CommandRegisterRule
  refine ⟨fun s t h hne => ?_, fun s => hostReads_slot slotAt_cmd rfl fun _ => rfl⟩
  cases step_handshake h with
  | keeps k => exact absurd k.cmdr hne
  | completes i _ cmdr => exact absurd cmdr hne
  | accepts w rest asked idle clear eq =>
    exact .inr ⟨w, rest, asked, idle, clear, by rw [eq]; rfl, by rw [eq]; rfl⟩
  | acknowledges v rest _ eq => exact absurd (by rw [eq]; rfl) hne
  | resets rest asked eq => exact .inl ⟨rest, asked, by rw [eq]; rfl⟩

/-- Settles O51: the bits of the status word, its accesses, and the rule of each change of a bit (10_state.md R40). -/
theorem statusRegisterRule : Obligations.StatusRegisterRule := by
  unfold Obligations.StatusRegisterRule
  refine ⟨getLsbD_statusWord, by decide, fun s v => ⟨?read, ?write⟩,
    fun s t h => ⟨step_clears_busy h, step_sets_busy h, step_sets_done h, step_clears_done h, step_changes_err h⟩,
    fun s v hv => ?ackDone, fun s v hv => ?ackErr, fun s rest hi => ?reset⟩
  case read => exact hostReads_slot slotAt_status rfl fun _ => rfl
  case write => exact hostWrites_not_writable v slotAt_status rfl
  case ackDone => exact ⟨_, hostWrites_ack s v, by simp [hv]⟩
  case ackErr => exact ⟨_, hostWrites_ack s v, by simp [hv]⟩
  case reset =>
    exact ⟨({ s with inputs := rest } : State).applyReset, by simp [step, hi], statusWord_applyReset _⟩

end Sys2Proof.Proofs.StateRules
end

section
/-! PROOFS of the statements about the register interface (spec/20_memory.md): every access idle (R63, R64), every access busy (R65),
and an access repeated (R66). They share the map read both ways (`slotOffset`) and the errors an access can meet. That an access
leaves the running command alone rests on one fact: recording an error commutes with every data effect. -/

open Sys2Proof Sys2Proof.Machine Sys2Proof.Proofs.StateRules

namespace Sys2Proof.Proofs.HostAccess

/-! ## The map (20_memory.md R61) -/

/-- The byte offset of a slot, as the rows of the map print it. -/
def slotOffset : Slot → Nat
  | .cmd => 0x000
  | .status => 0x004
  | .ctrl => 0x008
  | .ack => 0x00C
  | .posr => 0x010
  | .errInfo => 0x014
  | .cnt k => 0x040 + 4 * k.val
  | .n i => 0x080 + 4 * i.val
  | .pt i => 0x100 + 4 * i.val
  | .q i => 0x180 + 4 * i.val
  | .e i => 0x200 + 4 * i.val
  | .f r j => 0x1000 + 128 * r.val + 4 * j.val

/-- The slot at an offset is the one whose row prints that offset. -/
theorem toNat_of_slotAt {off : Word} {sl : Slot} (h : slotAt off = some sl) : off.toNat = slotOffset sl := by
  cases sl
  all_goals
    simp [slotAt, ite_eq_iff, dite_eq_iff, Fin.ext_iff] at h
    simp only [slotOffset]
    omega

/-- At a row's printed offset stands that row's slot. -/
theorem slotAt_of_toNat {off : Word} {sl : Slot} (h : off.toNat = slotOffset sl) : slotAt off = some sl := by
  cases sl with
  | cmd | status | ctrl | ack | posr | errInfo => simp [slotAt, h, slotOffset]
  | cnt i | n i | pt i | q i | e i =>
    simp (disch := omega) only [slotAt, h, slotOffset, if_neg, dif_neg, dif_pos]
    simp
  | f r j =>
    simp (disch := omega) only [slotAt, h, slotOffset, if_neg, dif_neg, dif_pos]
    simp only [Option.some.injEq, Slot.f.injEq, Fin.ext_iff]
    omega

/-- Where the map has no slot: a misaligned offset, or one of its gaps. -/
theorem gap_of_slotAt_eq_none {off : Word} (h : slotAt off = none) :
    off.toNat % 4 ≠ 0 ∨ (0x018 ≤ off.toNat ∧ off.toNat < 0x040) ∨ (0x064 ≤ off.toNat ∧ off.toNat < 0x080) ∨
      (0x280 ≤ off.toNat ∧ off.toNat < 0x1000) ∨ 0x2000 ≤ off.toNat := by
  simp [slotAt, ite_eq_iff, dite_eq_iff] at h
  omega

/-- The readable offsets are the offsets of the slots with column `R`. -/
theorem mapReads_iff (off : Word) : MapReads off ↔ ∃ sl, slotAt off = some sl ∧ slotReadable sl = true := by
  cases h : slotAt off with
  | none =>
    have gap := gap_of_slotAt_eq_none h
    simp only [MapReads, reduceCtorEq, false_and, exists_false, iff_false]
    omega
  | some sl =>
    have hoff := toNat_of_slotAt h
    simp only [MapReads, Option.some.injEq, exists_eq_left']
    cases sl
    all_goals
      simp only [slotOffset] at hoff
      simp only [slotReadable, Bool.false_eq_true, iff_true, iff_false]
      omega

/-- The writable offsets are the offsets of the slots with column `W`. -/
theorem mapWrites_iff (off : Word) : MapWrites off ↔ ∃ sl, slotAt off = some sl ∧ slotWritable sl = true := by
  cases h : slotAt off with
  | none =>
    have gap := gap_of_slotAt_eq_none h
    simp only [MapWrites, reduceCtorEq, false_and, exists_false, iff_false]
    omega
  | some sl =>
    have hoff := toNat_of_slotAt h
    simp only [MapWrites, Option.some.injEq, exists_eq_left']
    cases sl
    all_goals
      simp only [slotOffset] at hoff
      simp only [slotWritable, Bool.false_eq_true, iff_true, iff_false]
      omega

/-- The slots open while `BUSY` = 1 for a read are the first three of the map (20_memory.md R65). -/
theorem offset_of_readableWhileBusy {off : Word} {sl : Slot} (h : slotAt off = some sl)
    (hb : readableWhileBusy sl = true) : off = 0x000 ∨ off = 0x004 ∨ off = 0x008 := by
  have hoff := toNat_of_slotAt h
  cases sl with
  | cmd => exact .inl (BitVec.eq_of_toNat_eq hoff)
  | status => exact .inr (.inl (BitVec.eq_of_toNat_eq hoff))
  | ctrl => exact .inr (.inr (BitVec.eq_of_toNat_eq hoff))
  | ack | posr | errInfo | cnt | n | pt | q | e | f => cases hb

/-- The slots open while `BUSY` = 1 for a write are `CTRL` and `ACK` (20_memory.md R65). -/
theorem offset_of_writableWhileBusy {off : Word} {sl : Slot} (h : slotAt off = some sl)
    (hb : writableWhileBusy sl = true) : off = 0x008 ∨ off = 0x00C := by
  have hoff := toNat_of_slotAt h
  cases sl with
  | ctrl => exact .inl (BitVec.eq_of_toNat_eq hoff)
  | ack => exact .inr (BitVec.eq_of_toNat_eq hoff)
  | cmd | status | posr | errInfo | cnt | n | pt | q | e | f => cases hb

theorem slotAt_ctrl : slotAt 0x008 = some .ctrl := rfl
theorem slotAt_posr : slotAt 0x010 = some .posr := rfl
theorem slotAt_errInfo : slotAt 0x014 = some .errInfo := rfl

theorem toNat_offsetOf {base i : Nat} (h : base + 4 * i < 2 ^ 32) : (offsetOf base i).toNat = base + 4 * i := by
  rw [offsetOf, BitVec.toNat_ofNat, Nat.mod_eq_of_lt h]

theorem slotAt_cnt (k : Fin 9) : slotAt (offsetOf 0x040 k.val) = some (.cnt k) :=
  slotAt_of_toNat (toNat_offsetOf (by omega))
theorem slotAt_n (i : Fin 32) : slotAt (offsetOf 0x080 i.val) = some (.n i) :=
  slotAt_of_toNat (toNat_offsetOf (by omega))
theorem slotAt_pt (i : Fin 32) : slotAt (offsetOf 0x100 i.val) = some (.pt i) :=
  slotAt_of_toNat (toNat_offsetOf (by omega))
theorem slotAt_q (i : Fin 32) : slotAt (offsetOf 0x180 i.val) = some (.q i) :=
  slotAt_of_toNat (toNat_offsetOf (by omega))
theorem slotAt_e (i : Fin 32) : slotAt (offsetOf 0x200 i.val) = some (.e i) :=
  slotAt_of_toNat (toNat_offsetOf (by omega))
theorem slotAt_limbOffset (r : FReg) (j : Fin 32) : slotAt (limbOffset r j) = some (.f r j) :=
  slotAt_of_toNat (by rw [limbOffset, BitVec.toNat_ofNat, Nat.mod_eq_of_lt (by omega), slotOffset])

/-! ## The errors of an access -/

/-- An offset without a slot of that direction is `E_ADDR`, busy or not (60_exceptions.md R245). -/
theorem accessError_eq_addr {allowed : Slot → Bool} {off : Word} (whileBusy : Slot → Bool) (busy : Bool)
    (h : ¬ ∃ sl, slotAt off = some sl ∧ allowed sl = true) : accessError allowed whileBusy off busy = some .addr := by
  cases hs : slotAt off with
  | none => simp [accessError, hs]
  | some sl =>
    have hsl : allowed sl = false := by simpa [hs] using h
    simp [accessError, hs, hsl]

/-- While busy, a slot of that direction that is not open is `E_BUSY` (20_memory.md R65). -/
theorem accessError_eq_busy {allowed whileBusy : Slot → Bool} {off : Word} {sl : Slot} (hs : slotAt off = some sl)
    (ha : allowed sl = true) (hb : whileBusy sl = false) : accessError allowed whileBusy off true = some .busy := by
  simp [accessError, hs, ha, hb]

theorem ne_none_of_accessError {allowed whileBusy : Slot → Bool} {off : Word} {busy : Bool} {c : ErrCode}
    (h : accessError allowed whileBusy off busy = some c) : c ≠ .none := by
  obtain rfl | ⟨rfl, -⟩ := accessError_some _ _ _ _ _ h <;> decide

/-- A read in error is recorded and returns 0 (20_memory.md R64, R65). -/
theorem hostReads_of_accessError {s : State} {off : Word} {c : ErrCode}
    (h : accessError slotReadable readableWhileBusy off s.busy = some c) : HostReads s off 0 (s.raise c off) :=
  hostReads_of_hostRead_eq (by simp [hostRead, h])

theorem hostWrite_of_accessError {s : State} {off : Word} {c : ErrCode} (v : Word)
    (h : accessError slotWritable writableWhileBusy off s.busy = some c) : hostWrite off v s = s.raise c off := by
  simp [hostWrite, h]

theorem hostWrites_iff {s t : State} {off v : Word} : HostWrites s off v t ↔ hostWrite off v s = t :=
  ⟨Host.Outcome.next.inj, fun h => h ▸ hostWrites_hostWrite s off v⟩

theorem hostWrites_of_accessError {s : State} {off : Word} {c : ErrCode} (v : Word)
    (h : accessError slotWritable writableWhileBusy off s.busy = some c) : HostWrites s off v (s.raise c off) :=
  hostWrites_iff.mpr (hostWrite_of_accessError v h)

theorem hostReads_of_not_mapReads {s : State} {off : Word} (h : ¬ MapReads off) : HostReads s off 0 (s.raise .addr off) :=
  hostReads_of_accessError (accessError_eq_addr _ _ ((mapReads_iff off).not.mp h))

theorem hostWrites_of_not_mapWrites {s : State} {off : Word} (v : Word) (h : ¬ MapWrites off) :
    HostWrites s off v (s.raise .addr off) :=
  hostWrites_of_accessError v (accessError_eq_addr _ _ ((mapWrites_iff off).not.mp h))

/-! ## The running command -/

section
variable (c : ErrCode) (info : Word)

theorem setPair_raise (s : State) (k : PReg) (v : Pair) : (s.raise c info).setPair k v = (s.setPair k v).raise c info := rfl
theorem getPair_raise (s : State) (k : PReg) : (s.raise c info).getPair k = s.getPair k := rfl
theorem setQ_raise (s : State) (v : Bytes32) : (s.raise c info).setQ v = (s.setQ v).raise c info := rfl
theorem setPos_raise (s : State) (p : Byte) : (s.raise c info).setPos p = (s.setPos p).raise c info := rfl
theorem count_raise (s : State) (k : Counter) : (s.raise c info).count k = (s.count k).raise c info := rfl

/-- Recording an error commutes with a sub-step: no data effect reads or writes `ERR` or `ERRINFO` (60_exceptions.md R246). -/
theorem primEffect_raise (p : Prim) : Function.Commute (primEffect p) (State.raise · c info) := by
  intro s
  cases p with
  | sel pd qd pr ps b =>
    change selEffect pd qd pr ps b (s.raise c info) = (selEffect pd qd pr ps b s).raise c info
    rw [selEffect, getPair_raise, getPair_raise, setPair_raise, setPair_raise, count_raise, selEffect]
  | stq ra =>
    change stqEffect ra (s.raise c info) = (stqEffect ra s).raise c info
    rw [stqEffect, State.getF_raise, setQ_raise, stqEffect]
  | add | sub | mul | sqr | mulc | frz | mov | setc | ldpt | clamp => rfl

theorem runPrims_raise (ps : List Prim) : Function.Commute (runPrims ps) (State.raise · c info) := by
  induction ps with
  | nil => exact fun _ => rfl
  | cons p ps ih => exact ih.comp_left (primEffect_raise c info p)

theorem lstepEffect_raise : Function.Commute lstepEffect (State.raise · c info) := fun s => by
  rw [lstepEffect, State.raise_e, State.raise_pos, (runPrims_raise c info _).eq, setPos_raise, count_raise, lstepEffect]

theorem linitEffect_raise : Function.Commute linitEffect (State.raise · c info) := fun s => by
  rw [linitEffect, (runPrims_raise c info _).eq, setPos_raise, linitEffect]

theorem ladderEffect_raise : Function.Commute ladderEffect (State.raise · c info) := fun s => by
  rw [ladderEffect, (linitEffect_raise c info).eq, ((lstepEffect_raise c info).iterate_left _).eq,
    (runPrims_raise c info _).eq, ladderEffect]

theorem scalarMultEnd_raise : Function.Commute scalarMultEnd (State.raise · c info) :=
  (runPrims_raise c info _).comp_left (runPrims_raise c info _)

theorem smultEffect_raise : Function.Commute smultEffect (State.raise · c info) :=
  (scalarMultEnd_raise c info).comp_left ((ladderEffect_raise c info).comp_left (runPrims_raise c info _))

theorem smultbEffect_raise : Function.Commute smultbEffect (State.raise · c info) :=
  (scalarMultEnd_raise c info).comp_left ((ladderEffect_raise c info).comp_left (runPrims_raise c info _))

end

/-- A command that R244 accepts has the same data effect whether or not an error is recorded before it. -/
theorem exec_raise {i : Instr} {s t : State} (c : ErrCode) (info : Word) (hacc : offerError i s.pos = none)
    (h : exec i s = .next t) : exec i (s.raise c info) = .next (t.raise c info) := by
  have lift {effect : State → State} (hc : Function.Commute effect (State.raise · c info))
      (hs : exec i s = .next (effect s)) (hr : exec i (s.raise c info) = .next (effect (s.raise c info))) :
      exec i (s.raise c info) = .next (t.raise c info) := by
    rw [hr, hc.eq, Host.Outcome.next.inj (hs.symm.trans h)]
  cases i with
  | nop | wipe | clrcnt | add | sub | mul | sqr | mulc | sqz | frz | mov | setc | ldpt | clamp =>
    obtain rfl := Host.Outcome.next.inj h
    rfl
  | stq ra => exact lift (primEffect_raise c info (.stq ra)) rfl rfl
  | sel pd qd pr ps b =>
    have hd : pd ≠ qd := by
      intro e
      simp [offerError, wellFormed, e] at hacc
    exact lift (primEffect_raise c info (.sel pd qd pr ps b)) (if_neg hd) (if_neg hd)
  | recip rd ra =>
    have hr : ¬ (inRecipScratch rd || inRecipScratch ra) = true := by
      intro e
      simp [offerError, wellFormed, ← Bool.not_or, e] at hacc
    exact lift (runPrims_raise c info (recipPrims rd ra)) (if_neg hr) (if_neg hr)
  | linit => exact lift (linitEffect_raise c info) rfl rfl
  | lstep =>
    have hp : s.pos ≠ 255 := by
      intro e
      simp [offerError, wellFormed, e] at hacc
    exact lift (lstepEffect_raise c info) (if_neg hp) (if_neg hp)
  | ladder => exact lift (ladderEffect_raise c info) rfl rfl
  | smult => exact lift (smultEffect_raise c info) rfl rfl
  | smultb => exact lift (smultbEffect_raise c info) rfl rfl

/-- The core step of an accepted command completes as if an error had not been recorded before it (20_memory.md R65). -/
theorem coreStep_raise {s t : State} (c : ErrCode) (info : Word) (hs : Consistent s) (hb : s.busy = true)
    (h : coreStep s = .next t) : coreStep (s.raise c info) = .next (t.raise c info) := by
  obtain ⟨i, hd, hacc⟩ := hs.busyLatched hb
  obtain ⟨u, hu, -⟩ := exec_next i s hacc
  have ht : u.complete = t := by simpa [coreStep, hb, hd, hu, finishCommand] using h
  subst ht
  simp only [coreStep, State.raise_busy, State.raise_cmdr, hb, hd, exec_raise c info hacc hu, finishCommand, if_true]
  rfl

/-! ## Accesses repeated -/

theorem raise_raise_self {c : ErrCode} (s : State) (info : Word) (h : c ≠ .none) :
    (s.raise c info).raise c info = s.raise c info := by
  refine State.raise_of_ne_none _ c info ?_
  rw [State.raise_err]
  split
  · exact h
  · assumption

theorem acknowledge_acknowledge (s : State) (v : Word) : (s.acknowledge v).acknowledge v = s.acknowledge v := by
  cases h0 : v.getLsbD 0 <;> cases h1 : v.getLsbD 1 <;> simp only [State.acknowledge, h0, h1, Bool.false_eq_true, if_true, if_false]

/-- The write of any slot but `CMD` repeated changes nothing more (20_memory.md R66). -/
theorem writeSlot_writeSlot (s : State) (v : Word) {sl : Slot} (h : sl ≠ .cmd) :
    writeSlot v (writeSlot v s sl) sl = writeSlot v s sl := by
  cases sl with
  | cmd => exact absurd rfl h
  | ack => exact acknowledge_acknowledge s v
  | ctrl | status | posr | errInfo | cnt | q | e => rfl
  | n i | pt i | f r j => simp [writeSlot]

theorem writeSlot_busy (s : State) (v : Word) {sl : Slot} (h : sl ≠ .cmd) : (writeSlot v s sl).busy = s.busy := by
  cases sl with
  | cmd => exact absurd rfl h
  | ack | ctrl | status | posr | errInfo | cnt | q | e | n | pt | f => rfl

theorem hostWrite_hostWrite {off : Word} (s : State) (v : Word) (h : off ≠ 0x000) :
    hostWrite off v (hostWrite off v s) = hostWrite off v s := by
  obtain ⟨c, he, hw⟩ | ⟨sl, hs, he, hw⟩ := hostWrite_cases off v s
  · rw [hw, hostWrite_of_accessError (s := s.raise c off) v he, raise_raise_self s off (ne_none_of_accessError he)]
  · have hsl : sl ≠ .cmd := by
      rintro rfl
      exact h (slotAt_eq_cmd hs)
    have he' : accessError slotWritable writableWhileBusy off (writeSlot v s sl).busy = none := by
      rw [writeSlot_busy s v hsl, he]
    rw [hw, hostWrite, he']
    simp only [hs]
    exact writeSlot_writeSlot s v hsl

/-! ## The statements -/

/-- Settles O46: each row of the map is its slot's read and write, and the offsets off the map are `E_ADDR`. -/
theorem idleHostAccess : Obligations.IdleHostAccess := by
  unfold Obligations.IdleHostAccess
  intro s idle
  have reads {off : Word} {sl : Slot} (hs : slotAt off = some sl) (hr : slotReadable sl = true) :
      HostReads s off (slotWord s sl) s := hostReads_slot hs hr (by simp [idle])
  have writes {off : Word} {sl : Slot} (v : Word) (hs : slotAt off = some sl) (hw : slotWritable sl = true) :
      HostWrites s off v (writeSlot v s sl) := hostWrites_slot v hs hw (by simp [idle])
  refine ⟨⟨?cmd, ?status, ?ctrl, ?pos, ?errInfo, fun k => ?cnt, fun i => ⟨?n, ?pt, ?q, ?e⟩, fun r j => ?limb⟩,
    fun v => ⟨?writeCmd, ?writeCtrl, ?writeAck, fun i => ⟨?writeN, ?writePt⟩, fun r j => ?writeLimb⟩,
    fun off v => ⟨hostReads_of_not_mapReads, hostWrites_of_not_mapWrites v⟩⟩
  case cmd => exact reads slotAt_cmd rfl
  case status => exact reads slotAt_status rfl
  case ctrl => exact reads slotAt_ctrl rfl
  case pos => exact reads slotAt_posr rfl
  case errInfo => exact reads slotAt_errInfo rfl
  case cnt => exact reads (slotAt_cnt k) rfl
  case n => exact reads (slotAt_n i) rfl
  case pt => exact reads (slotAt_pt i) rfl
  case q => exact reads (slotAt_q i) rfl
  case e => exact reads (slotAt_e i) rfl
  case limb => exact reads (slotAt_limbOffset r j) rfl
  case writeCmd => exact writes v slotAt_cmd rfl
  case writeCtrl => exact writes v slotAt_ctrl rfl
  case writeAck => exact writes v slotAt_ack rfl
  case writeN => exact writes v (slotAt_n i) rfl
  case writePt => exact writes v (slotAt_pt i) rfl
  case writeLimb => exact writes v (slotAt_limbOffset r j) rfl

/-- Settles O47: the open slots are read and written, any other offset is the error of the map, and the core step commutes with
recording it. -/
theorem busyHostAccess : Obligations.BusyHostAccess := by
  unfold Obligations.BusyHostAccess
  refine ⟨fun s busy => ⟨?cmd, ?status, ?ctrl, fun v => ⟨?writeCtrl, hostWrites_ack s v⟩,
    fun off v => ⟨fun hm h0 h4 h8 => ?readBusy, fun hm h8 hC => ?writeBusy, hostReads_of_not_mapReads,
      hostWrites_of_not_mapWrites v⟩⟩, fun s t c info hs hb h => coreStep_raise c info hs hb h⟩
  case cmd => exact hostReads_slot slotAt_cmd rfl fun _ => rfl
  case status => exact hostReads_slot slotAt_status rfl fun _ => rfl
  case ctrl => exact hostReads_slot slotAt_ctrl rfl fun _ => rfl
  case writeCtrl => exact hostWrites_slot v slotAt_ctrl rfl fun _ => rfl
  case readBusy =>
    obtain ⟨sl, hs, hr⟩ := (mapReads_iff off).mp hm
    have closed : readableWhileBusy sl = false := Bool.eq_false_iff.mpr fun opened => by
      obtain h | h | h := offset_of_readableWhileBusy hs opened
      exacts [h0 h, h4 h, h8 h]
    exact hostReads_of_accessError (busy ▸ accessError_eq_busy hs hr closed)
  case writeBusy =>
    obtain ⟨sl, hs, hw⟩ := (mapWrites_iff off).mp hm
    have closed : writableWhileBusy sl = false := Bool.eq_false_iff.mpr fun opened => by
      obtain h | h := offset_of_writableWhileBusy hs opened
      exacts [h8 h, hC h]
    exact hostWrites_of_accessError v (busy ▸ accessError_eq_busy hs hw closed)

/-- Settles O48: a read is an error or leaves the state, a write off `CMD` is idempotent, and `CMD` is closed while busy. -/
theorem accessSideEffects : Obligations.AccessSideEffects := by
  unfold Obligations.AccessSideEffects
  refine ⟨fun s off => ?read, fun s t off v hoff h => ?write, fun s t w _ _ busy _ => ?command⟩
  case read =>
    obtain ⟨c, he, hr⟩ | ⟨sl, -, -, hr⟩ := hostRead_cases off s
    · refine ⟨0, s.raise c off, hostReads_of_hostRead_eq hr, fun hm idle => ?_, .inr ⟨rfl, c, rfl⟩⟩
      obtain ⟨sl, hs, ha⟩ := (mapReads_iff off).mp hm
      have legal := (accessError_eq_none slotReadable readableWhileBusy off s.busy).mpr ⟨sl, hs, ha, by simp [idle]⟩
      simp [legal] at he
    · exact ⟨slotWord s sl, s, hostReads_of_hostRead_eq hr, fun _ _ => rfl, .inl rfl⟩
  case write =>
    obtain rfl := hostWrites_iff.mp h
    exact hostWrites_iff.mpr (hostWrite_hostWrite s v hoff)
  case command => exact hostWrites_of_accessError w (busy ▸ accessError_eq_busy slotAt_cmd rfl rfl)

end Sys2Proof.Proofs.HostAccess
end

section
/-! PROOFS of the statements about the encoding (spec/30_encoding.md): the opcode map (R98, R99), illegal words (R100), the operand
restrictions (R101) and the worked encodings (R107). They share the decoder read as the opcode map (`matchesRow_iff`: a row's mask is
its opcode field and its format's zero field), the round trip of every command (`decode_encode`), and the outcomes of an offer. -/

open Sys2Proof Sys2Proof.Machine Sys2Proof.Laws Sys2Proof.Proofs.StateRules

namespace Sys2Proof.Proofs.Encoding

/-! ## Fields of a word -/

theorem toNat_slice (lo len : Nat) (w : Word) : (slice lo len w).toNat = w.toNat / 2 ^ lo % 2 ^ len := by
  rw [slice, BitVec.extractLsb'_toNat, Nat.shiftRight_eq_div_pow]

theorem val_fregAt (lo : Nat) (w : Word) : (fregAt lo w).val = w.toNat / 2 ^ lo % 2 ^ 5 := toNat_slice lo 5 w
theorem val_pregAt (lo : Nat) (w : Word) : (pregAt lo w).val = w.toNat / 2 ^ lo % 2 ^ 4 := toNat_slice lo 4 w

/-- The word with `v` in the field of `len` bits at bit `lo` and zeros elsewhere. -/
def fieldWord (lo : Nat) {len : Nat} (v : BitVec len) : Word := v.setWidth 32 <<< lo

/-- A field of a word is read by masking it. -/
theorem slice_eq_iff {lo len : Nat} (hfit : lo + len ≤ 32) (w : Word) (v : BitVec len) :
    slice lo len w = v ↔ w &&& fieldWord lo (BitVec.allOnes len) = fieldWord lo v := by
  constructor
  · rintro rfl
    ext k hk
    by_cases hlo : k < lo
    · simp [fieldWord, hlo]
    by_cases hhi : k - lo < len
    · simp [fieldWord, slice, hlo, hk, hhi, show lo + (k - lo) = k by omega]
    · simp [fieldWord, slice, hlo, hhi]
  · intro h
    ext k hk
    have hbit := congrArg (·.getLsbD (lo + k)) h
    simpa [fieldWord, slice, hk, show lo + k < 32 by omega, show k < 32 by omega] using hbit

/-- Masking with two disjoint masks at once. -/
theorem and_or_eq_iff {w a b m : Word} (hab : a &&& b = 0) (hm : m &&& a = m) :
    w &&& (a ||| b) = m ↔ w &&& a = m ∧ w &&& b = 0 := by
  rw [BitVec.and_or_distrib_left]
  constructor
  · rintro rfl
    have ha : (w &&& a ||| w &&& b) &&& a = w &&& a := by
      rw [BitVec.and_or_distrib_right, BitVec.and_assoc, BitVec.and_assoc, BitVec.and_comm b, hab]
      simp
    have hb : (w &&& a ||| w &&& b) &&& b = w &&& b := by
      rw [BitVec.and_or_distrib_right, BitVec.and_assoc, BitVec.and_assoc, hab]
      simp
    refine ⟨ha.symm.trans hm, ?_⟩
    rw [← hb, ← hm, BitVec.and_assoc, hab]
    simp
  · rintro ⟨ha, hb⟩
    rw [ha, hb]
    exact BitVec.or_zero

/-! ## The rows of the opcode map (30_encoding.md R98) -/

/-- The lowest bit and the length of the zero field of a format (30_encoding.md R91 to R96). -/
def zeroField : Format → Nat × Nat
  | .z => (0, 24)
  | .r3 => (0, 9)
  | .r2 => (0, 14)
  | .r1 => (0, 19)
  | .ri => (8, 11)
  | .ps => (1, 7)

/-- The mask of a format's zero field. -/
def zeroMask (f : Format) : Word := fieldWord (zeroField f).1 (BitVec.allOnes (zeroField f).2)

theorem zeroFieldsClear_iff (w : Word) (f : Format) : zeroFieldsClear w f = true ↔ w &&& zeroMask f = 0 := by
  have hslice : zeroFieldsClear w f = true ↔ slice (zeroField f).1 (zeroField f).2 w = 0 := by
    cases f <;> exact beq_iff_eq
  have hfit : (zeroField f).1 + (zeroField f).2 ≤ 32 := by cases f <;> decide
  rw [hslice, slice_eq_iff hfit, zeroMask]
  simp [fieldWord]

theorem mask_eq (o : Opcode) : o.mask = fieldWord 24 (BitVec.allOnes 8) ||| zeroMask o.format := by cases o <;> rfl

theorem matchWord_eq (o : Opcode) : o.matchWord = fieldWord 24 o.code := by cases o <;> rfl

/-- No two rows have one opcode. -/
theorem opcodeOf_eq_some_iff {c : Byte} {o : Opcode} : opcodeOf c = some o ↔ c = o.code := by
  constructor
  · intro h
    have hcode := List.find?_some h
    exact (beq_iff_eq.mp hcode).symm
  · rintro rfl
    cases o <;> rfl

/-- A row matches exactly the words of its opcode whose zero field is clear. -/
theorem matchesRow_iff (o : Opcode) (w : Word) :
    matchesRow o w = true ↔ opcodeOf (slice 24 8 w) = some o ∧ zeroFieldsClear w o.format = true := by
  have hdisjoint : fieldWord 24 (BitVec.allOnes 8) &&& zeroMask o.format = 0 := by cases o <;> rfl
  have hopcode : fieldWord 24 o.code &&& fieldWord 24 (BitVec.allOnes 8) = fieldWord 24 o.code := by cases o <;> rfl
  rw [opcodeOf_eq_some_iff, slice_eq_iff (by decide), zeroFieldsClear_iff, matchesRow, beq_iff_eq, mask_eq, matchWord_eq,
    and_or_eq_iff hdisjoint hopcode]

theorem matchesRow_eq_false {o : Opcode} {w : Word}
    (h : opcodeOf (slice 24 8 w) = some o → zeroFieldsClear w o.format = false) : matchesRow o w = false := by
  rw [Bool.eq_false_iff, Ne, matchesRow_iff]
  rintro ⟨hrow, hclear⟩
  simp [h hrow] at hclear

theorem not_matchesRow_of_unused {w : Word} (h : opcodeOf (slice 24 8 w) = none) (o : Opcode) : matchesRow o w = false :=
  matchesRow_eq_false (by simp [h])

/-! ## The decoder -/

theorem matchesRow_unique {o o' : Opcode} {w : Word} (h : matchesRow o w = true) (h' : matchesRow o' w = true) : o' = o :=
  Option.some.inj (((matchesRow_iff o' w).mp h').1.symm.trans ((matchesRow_iff o w).mp h).1)

theorem decode_of_matchesRow {o : Opcode} {w : Word} (h : matchesRow o w = true) : decode w = .instr (assemble o w) := by
  obtain ⟨hrow, hclear⟩ := (matchesRow_iff o w).mp h
  simp [decode, hrow, hclear]

theorem decode_ne_instr {w : Word} (h : ∀ o, matchesRow o w = false) (i : Instr) : decode w ≠ .instr i := by
  cases hrow : opcodeOf (slice 24 8 w) with
  | none => simp [decode, hrow]
  | some o =>
    have hclear : zeroFieldsClear w o.format = false := by
      simpa [hrow] using (matchesRow_iff o w).not.mp (by simp [h o])
    simp [decode, hrow, hclear]

theorem opcode_assemble (o : Opcode) (w : Word) : opcode (assemble o w) = o := by cases o <;> rfl

/-! ## The round trip -/

/-- The operands of every command fit its format. -/
theorem operandsFit (i : Instr) : OperandsFit.Statement i := by
  cases i with
  | nop => exact OperandsFit.nop
  | wipe => exact OperandsFit.wipe
  | clrcnt => exact OperandsFit.clrcnt
  | add => exact OperandsFit.add _ _ _
  | sub => exact OperandsFit.sub _ _ _
  | mul => exact OperandsFit.mul _ _ _
  | sqr => exact OperandsFit.sqr _ _
  | mulc => exact OperandsFit.mulc _ _
  | sqz => exact OperandsFit.sqz _
  | frz => exact OperandsFit.frz _
  | mov => exact OperandsFit.mov _ _
  | setc => exact OperandsFit.setc _ _
  | ldpt => exact OperandsFit.ldpt _
  | stq => exact OperandsFit.stq _
  | sel => exact OperandsFit.sel _ _ _ _ _
  | clamp => exact OperandsFit.clamp
  | linit => exact OperandsFit.linit
  | lstep => exact OperandsFit.lstep
  | ladder => exact OperandsFit.ladder
  | recip => exact OperandsFit.recip _ _
  | smult => exact OperandsFit.smult
  | smultb => exact OperandsFit.smultb

theorem slice_opcode_encode (i : Instr) : slice 24 8 (encode i) = (opcode i).code := by
  obtain ⟨hword, hlow, -⟩ := operandsFit i
  have hcode := (opcode i).code.isLt
  apply BitVec.eq_of_toNat_eq
  rw [toNat_slice, hword]
  omega

theorem zeroFieldsClear_encode (i : Instr) : zeroFieldsClear (encode i) (opcode i).format = true := by
  obtain ⟨hword, -, hzero⟩ := operandsFit i
  generalize (opcode i).format = f at hzero
  cases f
  all_goals
    simp only [OperandsFit.zeroFields] at hzero
    rw [zeroFieldsClear, beq_iff_eq, ← BitVec.toNat_inj, toNat_slice, hword]
    simp only [BitVec.ofNat_eq_ofNat, BitVec.toNat_ofNat]
    omega

theorem matchesRow_encode (i : Instr) : matchesRow (opcode i) (encode i) = true :=
  (matchesRow_iff _ _).mpr ⟨opcodeOf_eq_some_iff.mpr (slice_opcode_encode i), zeroFieldsClear_encode i⟩

/-- The operand fields stand where the format puts them, below an opcode `c` (30_encoding.md R91 to R96). -/
theorem assemble_of_toNat {i : Instr} {w : Word} {c : Nat} (hword : w.toNat = c * 2 ^ 24 + operandBits i) :
    assemble (opcode i) w = i := by
  cases i with
  | nop | wipe | clrcnt | clamp | linit | lstep | ladder | smult | smultb => rfl
  | add | sub | mul | sqr | mulc | sqz | frz | mov | ldpt | stq | recip =>
    simp only [operandBits] at hword
    simp only [opcode, assemble, Instr.add.injEq, Instr.sub.injEq, Instr.mul.injEq, Instr.sqr.injEq, Instr.mulc.injEq,
      Instr.sqz.injEq, Instr.frz.injEq, Instr.mov.injEq, Instr.ldpt.injEq, Instr.stq.injEq, Instr.recip.injEq, Fin.ext_iff,
      val_fregAt, hword]
    omega
  | setc rd imm =>
    have himm := imm.isLt
    simp only [operandBits] at hword
    simp only [opcode, assemble, Instr.setc.injEq, Fin.ext_iff, val_fregAt, ← BitVec.toNat_inj, toNat_slice, hword]
    omega
  | sel pd qd pr ps b =>
    have hb := b.toNat_lt
    simp only [operandBits] at hword
    have hbit : slice 0 1 w = BitVec.ofBool b := by
      rw [← BitVec.toNat_inj, toNat_slice, BitVec.toNat_ofBool, hword]
      omega
    have hbool : (BitVec.ofBool b == 1) = b := by cases b <;> rfl
    simp only [opcode, assemble, Instr.sel.injEq, hbit, hbool, Fin.ext_iff, val_pregAt, hword, and_true]
    omega

theorem assemble_encode (i : Instr) : assemble (opcode i) (encode i) = i := assemble_of_toNat (operandsFit i).1

theorem decode_encode (i : Instr) : decode (encode i) = .instr i := by
  rw [decode_of_matchesRow (matchesRow_encode i), assemble_encode]

/-! ## Offering a word (60_exceptions.md R244) -/

section
variable {s : State} {w : Word} (idle : s.busy = false) (clear : s.err = .none)
include idle

theorem hostWrites_cmd : HostWrites s 0x000 w (offer w s) := hostWrites_slot w slotAt_cmd rfl (by simp [idle])

include clear

theorem hostWrites_illegal (h : ∀ i, decode w ≠ .instr i) : HostWrites s 0x000 w { s with err := .illCmd, errInfo := w } := by
  have hoffer : offer w s = s.raise .illCmd w := by
    cases hd : decode w with
    | instr i => exact absurd hd (h i)
    | unusedOpcode c => simp [offer, idle, clear, hd]
    | reservedBits o => simp [offer, idle, clear, hd]
  rw [← State.raise_of_none s .illCmd w clear, ← hoffer]
  exact hostWrites_cmd idle

theorem hostWrites_refused {i : Instr} {c : ErrCode} (hd : decode w = .instr i) (h : offerError i s.pos = some c) :
    HostWrites s 0x000 w { s with err := c, errInfo := w } := by
  have hoffer : offer w s = s.raise c w := by simp [offer, idle, clear, hd, h]
  rw [← State.raise_of_none s c w clear, ← hoffer]
  exact hostWrites_cmd idle

theorem hostWrites_accepted {i : Instr} (hd : decode w = .instr i) (h : offerError i s.pos = none) :
    HostWrites s 0x000 w (s.accept w) := by
  have hoffer : offer w s = s.accept w := by simp [offer, idle, clear, hd, h]
  rw [← hoffer]
  exact hostWrites_cmd idle

end

/-! ## The operand restrictions (30_encoding.md R101) -/

theorem inRecipScratch_iff (r : FReg) : inRecipScratch r = true ↔ 4 ≤ r.val ∧ r.val ≤ 13 := by simp [inRecipScratch]

theorem offerError_sel_same (p r q : PReg) (b : Bool) (pos : Byte) : offerError (.sel p p r q b) pos = some .operand := by
  simp [offerError, wellFormed]

theorem offerError_recip_scratch {rd ra : FReg} (h : (4 ≤ rd.val ∧ rd.val ≤ 13) ∨ (4 ≤ ra.val ∧ ra.val ≤ 13)) (pos : Byte) :
    offerError (.recip rd ra) pos = some .operand := by
  have hill : wellFormed (.recip rd ra) = false := by
    rw [← inRecipScratch_iff, ← inRecipScratch_iff] at h
    rcases h with h | h <;> simp [wellFormed, h]
  simp [offerError, hill]

/-- Nothing but the two operand restrictions and `LSTEP` without a pending step is refused. -/
theorem offerError_eq_none {i : Instr} {pos : Byte} (hsel : ∀ p r q b, i ≠ .sel p p r q b)
    (hrecip : ∀ rd ra : FReg, i = .recip rd ra → ¬(4 ≤ rd.val ∧ rd.val ≤ 13) ∧ ¬(4 ≤ ra.val ∧ ra.val ≤ 13))
    (hlstep : i = .lstep → pos ≠ 255) : offerError i pos = none := by
  cases i with
  | sel pd qd pr ps b =>
    have hne : pd ≠ qd := by
      rintro rfl
      exact hsel pd pr ps b rfl
    simp [offerError, wellFormed, hne]
  | recip rd ra =>
    obtain ⟨hd, ha⟩ := hrecip rd ra rfl
    rw [← inRecipScratch_iff] at hd ha
    simp [offerError, wellFormed, hd, ha]
  | lstep => simpa [offerError, wellFormed] using hlstep rfl
  | nop | wipe | clrcnt | add | sub | mul | sqr | mulc | sqz | frz | mov | setc | ldpt | stq | clamp | linit | ladder | smult
  | smultb => simp [offerError, wellFormed]

/-! ## The statements -/

/-- Settles O4: a word that matches a row has that row's opcode, so no other row matches, and it decodes to the row's command. -/
theorem decodeFollowsOpcodeMap : Obligations.DecodeFollowsOpcodeMap := by
  unfold Obligations.DecodeFollowsOpcodeMap
  intro w
  by_cases h : ∃ o, matchesRow o w = true
  · obtain ⟨o, ho⟩ := h
    exact .inl ⟨o, ho, fun _ => matchesRow_unique ho, assemble o w, decode_of_matchesRow ho, opcode_assemble o w⟩
  · have hnone : ∀ o, matchesRow o w = false := by simpa using h
    exact .inr ⟨hnone, decode_ne_instr hnone⟩

/-- Settles O5: a word without a row decodes to no command, and a row needs its opcode and a clear zero field. -/
theorem illegalWordRefused : Obligations.IllegalWordRefused := by
  unfold Obligations.IllegalWordRefused
  refine ⟨fun s w idle clear h => hostWrites_illegal idle clear (decode_ne_instr h), fun w => not_matchesRow_of_unused,
    fun w o hrow hset o' => ?reserved, ?count, not_matchesRow_of_unused rfl, not_matchesRow_of_unused rfl⟩
  case reserved =>
    refine matchesRow_eq_false fun hrow' => ?_
    obtain rfl : o' = o := Option.some.inj (hrow'.symm.trans hrow)
    exact hset
  case count => decide +kernel

/-- Settles O7: the refused offers are those `offerError` names, and it names no other. -/
theorem forbiddenOperandsRefused : Obligations.ForbiddenOperandsRefused := by
  unfold Obligations.ForbiddenOperandsRefused
  intro s idle clear
  refine ⟨fun p r q b => ?sel, fun rd ra hscratch => ?recip, fun hpos => ?lstep, fun i hsel hrecip hlstep => ?accepted⟩
  case sel => exact hostWrites_refused idle clear (decode_encode _) (offerError_sel_same p r q b s.pos)
  case recip => exact hostWrites_refused idle clear (decode_encode _) (offerError_recip_scratch hscratch s.pos)
  case lstep =>
    have hdecode : decode 0x42000000 = .instr .lstep := decode_encode .lstep
    exact hostWrites_refused idle clear hdecode (by simp [offerError, wellFormed, hpos])
  case accepted => exact hostWrites_accepted idle clear (decode_encode i) (offerError_eq_none hsel hrecip hlstep)

/-- Settles O1: each word is computed from its command, and decoding inverts encoding. -/
theorem workedEncodingsDecode : Obligations.WorkedEncodingsDecode := by
  unfold Obligations.WorkedEncodingsDecode
  intro p hp
  have hencode : encode p.1 = p.2 := by
    revert p
    decide
  exact ⟨hencode, hencode ▸ decode_encode p.1⟩

end Sys2Proof.Proofs.Encoding
end

section
/-! PROOFS of the statements about the field arithmetic commands ADD, SUB, SQZ, MUL, SQR, MULC and FRZ (spec/40_field_arith.md R124
to R130). The parts they share come first: the value of a register as the sum over its limbs, what a carry pass does to it, the fold of
`Squeeze`, and the convolution as a cyclic sum over `Fin 32`, whose index `i - j` wraps as the accumulators of `Mult` do. -/

open Sys2Proof Sys2Proof.Machine

namespace Sys2Proof.Proofs.FieldArith

/-! ## The value of a register (R120) -/

theorem limbsValue_eq_sum (ts : List Word) :
    limbsValue ts = ∑ j ∈ Finset.range ts.length, 256 ^ j * (ts.getD j 0).toNat := by
  induction ts with
  | nil => rfl
  | cons t ts ih =>
    rw [limbsValue, ih, List.length_cons, Finset.sum_range_succ', Finset.mul_sum]
    simp [pow_succ', mul_assoc, add_comm]

/-- `V(a)` is the sum of the limbs `a[j]` with weight 2^(8j) (R120). -/
theorem value_eq_sum (a : Fe) : value a = ∑ j ∈ Finset.range 32, 256 ^ j * (limb a j).toNat := by
  rw [value, limbsValue_eq_sum, Vector.length_toList]
  refine Finset.sum_congr rfl fun j hj => ?_
  simp [limb_of_lt a j (Finset.mem_range.mp hj), List.getD_eq_getElem?_getD, Finset.mem_range.mp hj]

theorem value_eq_sum_fin (a : Fe) : value a = ∑ j : Fin 32, 256 ^ j.val * a[j].toNat := by
  rw [value_eq_sum, Finset.sum_range]
  simp [limb_of_lt]

theorem value_ofFn (g : Fin 32 → Word) : value (.ofFn g) = ∑ j : Fin 32, 256 ^ j.val * (g j).toNat := by
  simp [value_eq_sum_fin]

/-- The part of the value below limb 31. -/
def lowValue (a : Fe) : Nat := ∑ j ∈ Finset.range 31, 256 ^ j * (limb a j).toNat

theorem value_eq_low_add_top (a : Fe) : value a = lowValue a + 2 ^ 248 * (limb a 31).toNat := by
  rw [value_eq_sum, Finset.sum_range_succ, lowValue]
  norm_num

theorem lowValue_congr {a b : Fe} (h : ∀ j, j < 31 → limb a j = limb b j) : lowValue a = lowValue b :=
  Finset.sum_congr rfl fun j hj => by rw [h j (Finset.mem_range.mp hj)]

/-- Byte limbs below limb 31 stand for less than 2^248. -/
theorem lowValue_lt {a : Fe} (h : ∀ j, j < 31 → (limb a j).toNat ≤ 255) : lowValue a < 2 ^ 248 := by
  have hlt (n : Nat) (hn : n ≤ 31) : ∑ j ∈ Finset.range n, 256 ^ j * (limb a j).toNat < 256 ^ n := by
    induction n with
    | zero => simp
    | succ n ih =>
      rw [Finset.sum_range_succ, pow_succ']
      have hi := ih (by omega)
      have hm := Nat.mul_le_mul_left (256 ^ n) (h n (by omega))
      omega
  exact hlt 31 le_rfl

theorem limb_setTop (a : Fe) (w : Word) (j : Nat) : limb (a.set 31 w) j = if j = 31 then w else limb a j := by
  unfold limb
  by_cases hj : j = 31
  · simp [hj]
  · by_cases h : j < 32 <;> simp [h, hj, Ne.symm hj]

theorem value_setTop (a : Fe) (w : Word) : value (a.set 31 w) = lowValue a + 2 ^ 248 * w.toNat := by
  rw [value_eq_low_add_top, limb_setTop, if_pos rfl, lowValue_congr (b := a) fun j hj => by rw [limb_setTop, if_neg (by omega)]]

/-! ## Bounds on limbs (R121) -/

theorem limbsAtMost_iff {n : Nat} {a : Fe} : LimbsAtMost n a ↔ ∀ j, j < 32 → (limb a j).toNat ≤ n :=
  ⟨fun h j hj => by rw [limb_of_lt a j hj]; exact h ⟨j, hj⟩, fun h j => by
    have hj := h j.val j.isLt
    rwa [limb_of_lt a j.val j.isLt] at hj⟩

theorem limbsAtMost_ofFn {n : Nat} {g : Fin 32 → Word} (h : ∀ j, (g j).toNat ≤ n) : LimbsAtMost n (.ofFn g) := fun j => by
  simpa using h j

theorem byteForm_of_top {a : Fe} (hlow : ∀ j, j < 31 → (limb a j).toNat ≤ 255) (htop : (limb a 31).toNat ≤ 255) : ByteForm a :=
  limbsAtMost_iff.mpr fun j hj => by
    rcases Nat.lt_succ_iff_lt_or_eq.mp hj with h | rfl
    · exact hlow j h
    · exact htop

theorem byteForm_low {a : Fe} (h : ByteForm a) (j : Nat) (hj : j < 31) : (limb a j).toNat ≤ 255 :=
  limbsAtMost_iff.mp h j (by omega)

theorem squeezed_iff {a : Fe} : Squeezed a ↔ (∀ j, j < 31 → (limb a j).toNat ≤ 255) ∧ (limb a 31).toNat ≤ 128 := by
  have htop : limb a 31 = a[31] := limb_of_lt a 31 (by decide)
  constructor
  · rintro ⟨hb, ht⟩
    exact ⟨byteForm_low hb, htop ▸ ht⟩
  · rintro ⟨hlow, ht⟩
    exact ⟨byteForm_of_top hlow (by omega), htop ▸ ht⟩

theorem value_lt_of_squeezed {a : Fe} (h : Squeezed a) : value a < 2 ^ 255 + 2 ^ 248 := by
  obtain ⟨hlow, htop⟩ := squeezed_iff.mp h
  have hl := lowValue_lt hlow
  rw [value_eq_low_add_top]
  omega

/-! ## Carry passes -/

/-- The loop looks at the 32 terms of its limbs alone. -/
theorem carryLoop_congr {u : Word} {term term' : Nat → Word} {out : Fe} (h : ∀ j, j < 32 → term j = term' j)
    (hl : CarryLoop u term out) : CarryLoop u term' out := by
  obtain ⟨c, h0, hlow, htop⟩ := hl
  exact ⟨c, h0, fun j hj => h j (by omega) ▸ hlow j hj, h 31 (by decide) ▸ htop⟩

theorem carryPass_ofFn_loop {g : Fin 32 → Word} {term : Nat → Word} (u : Word) (h : ∀ j : Fin 32, g j = term j) :
    CarryLoop u term (carryPass u (.ofFn g)) :=
  carryLoop_congr (fun j hj => by rw [limb_ofFn g j hj, h]) (carryPass_loop u _)

theorem carryPass_top (u : Word) (t : Fe) : limb (carryPass u t) 31 = carriesOf u (limb t) 31 + limb t 31 := by
  rw [getElem_carryPass u t 31 (by decide), if_pos rfl]

/-- A pass from no carry keeps the value where no sum can wrap. -/
theorem value_carryPass_zero {t : Fe} (h : LimbsAtMost (2 ^ 32 - 2 ^ 24) t) : value (carryPass 0 t) = value t := by
  have h0 : (0 : Word).toNat = 0 := rfl
  rw [value_carryPass 0 t (fun j => by have := h j; rw [h0]; omega) h, h0, zero_add]

/-- Where every step of the loop is exact, the term `τ` being added as an integer, the pass keeps the sum of the terms. -/
theorem value_carryPass_of_exact (u : Word) (t : Fe) (τ : Nat → Int)
    (hτ : ∀ j, j < 32 →
      ((carriesOf u (limb t) j + limb t j).toNat : Int) = (carriesOf u (limb t) j).toNat + τ j) :
    (value (carryPass u t) : Int) = u.toNat + ∑ j ∈ Finset.range 32, 256 ^ j * τ j := by
  have hlow (n : Nat) (hn : n ≤ 31) :
      (∑ j ∈ Finset.range n, 256 ^ j * ((limb (carryPass u t) j).toNat : Int)) + 256 ^ n * (carriesOf u (limb t) n).toNat =
        u.toNat + ∑ j ∈ Finset.range n, 256 ^ j * τ j := by
    induction n with
    | zero => simp [carriesOf]
    | succ n ih =>
      have hi := ih (by omega)
      have hn' := hτ n (by omega)
      rw [Finset.sum_range_succ, Finset.sum_range_succ, ← add_assoc, ← hi, getElem_carryPass u t n (by omega), if_neg (by omega),
        carriesOf, and_255_toNat, shift_8_toNat]
      generalize (carriesOf u (limb t) n + limb t n).toNat = x at hn' ⊢
      have hx : (256 : Int) * (x / 256 : Nat) + (x % 256 : Nat) = x := by omega
      linear_combination (256 : Int) ^ n * hx + (256 : Int) ^ n * hn'
  have hl := hlow 31 le_rfl
  rw [value_eq_sum, Finset.sum_range_succ _ 31, Finset.sum_range_succ _ 31, carryPass_top]
  push_cast
  linear_combination hl + (256 : Int) ^ 31 * hτ 31 (by decide)

/-- Over byte limbs the carry dies out: 256 times less at each limb, but for a carry of 1. -/
theorem carriesOf_bytes_le {u : Word} {t : Fe} (hu : u.toNat ≤ 2 ^ 30) (ht : ∀ j, j < 31 → (limb t j).toNat ≤ 255) (j : Nat)
    (hj : j ≤ 31) : (carriesOf u (limb t) j).toNat ≤ 1 + 2 ^ 30 / 256 ^ j := by
  induction j with
  | zero => simp only [carriesOf]; omega
  | succ j ih =>
    have hc := ih (by omega)
    have hl := ht j (by omega)
    rw [carriesOf, shift_8_toNat, BitVec.toNat_add, pow_succ 256 j, ← Nat.div_div_eq_div_mul]
    have hle : 2 ^ 30 / 256 ^ j ≤ 2 ^ 30 := Nat.div_le_self _ _
    generalize 2 ^ 30 / 256 ^ j = q at *
    omega

/-! ## The fold of `Squeeze` (R126) -/

theorem and_127_toNat (w : Word) : (w &&& 127).toNat = w.toNat % 128 := by
  rw [BitVec.toNat_and]
  exact Nat.and_two_pow_sub_one_eq_mod w.toNat 7

/-- What lies above bit 255, times 19, is small whatever the limb. -/
theorem fold_toNat (w : Word) : (Config.fold * (w >>> 7)).toNat = 19 * (w.toNat / 128) := by
  have hw := w.isLt
  rw [BitVec.toNat_mul, BitVec.toNat_ushiftRight, Nat.shiftRight_eq_div_pow, show Config.fold.toNat = 19 from rfl]
  omega

theorem foldTop_eq (m : Fe) :
    foldTop m = carryPass (Config.fold * (limb m 31 >>> 7)) (m.set 31 (limb m 31 &&& 127)) := by
  rw [limb_of_lt m 31 (by decide)]
  rfl

/-- The fold is the second loop of `Squeeze` and `Mulc`. -/
theorem foldTop_loop (m : Fe) :
    CarryLoop (19 * (limb m 31 >>> 7)) (fun j => if j = 31 then limb m 31 &&& 127 else limb m j) (foldTop m) := by
  rw [foldTop_eq]
  exact carryLoop_congr (fun j _ => limb_setTop m _ j) (carryPass_loop _ _)

theorem feSqueeze_ofFn_loops {g : Fin 32 → Word} {term : Nat → Word} (h : ∀ j : Fin 32, g j = term j) :
    SqueezeLoops term (feSqueeze (.ofFn g)) :=
  ⟨_, carryPass_ofFn_loop 0 h, foldTop_loop _⟩

section
variable {m : Fe} (hm : ∀ j, j < 31 → (limb m j).toNat ≤ 255)
include hm

theorem setTop_bytes : LimbsAtMost 255 (m.set 31 (limb m 31 &&& 127)) :=
  byteForm_of_top (fun j hj => by rw [limb_setTop, if_neg (by omega)]; exact hm j hj)
    (by rw [limb_setTop, if_pos rfl, and_127_toNat]; omega)

/-- The carry that reaches limb 31 in the second pass is at most 1. -/
theorem squeezed_foldTop : Squeezed (foldTop m) := by
  rw [foldTop_eq]
  refine squeezed_iff.mpr ⟨carryPass_bytes _ _, ?_⟩
  have hw := (limb m 31).isLt
  have hu : (Config.fold * (limb m 31 >>> 7)).toNat ≤ 2 ^ 30 := by rw [fold_toNat]; omega
  have hc := carriesOf_bytes_le hu (byteForm_low (setTop_bytes hm)) 31 le_rfl
  rw [carryPass_top, BitVec.toNat_add]
  simp only [limb_setTop, if_true, and_127_toNat] at hc ⊢
  norm_num at hc
  omega

/-- The fold takes away `P` for each 2^255 that it cuts off. -/
theorem value_foldTop : value (foldTop m) + Config.P * ((limb m 31).toNat / 128) = value m := by
  have hw := (limb m 31).isLt
  have hb := setTop_bytes hm
  rw [foldTop_eq, value_carryPass _ _ (fun j => by have := hb j; rw [fold_toNat]; omega) (fun j => (hb j).trans (by norm_num)),
    fold_toNat, value_setTop, and_127_toNat, value_eq_low_add_top m, Config.P]
  omega

theorem fieldOf_foldTop : fieldOf (foldTop m) = fieldOf m := by
  rw [fieldOf, fieldOf, ← value_foldTop hm]
  simp

end

/-- The result of `Squeeze` is squeezed for every input (R126). -/
theorem squeezed_feSqueeze (a : Fe) : Squeezed (feSqueeze a) := squeezed_foldTop (carryPass_bytes 0 a)

/-- `Squeeze` keeps the field value where its first pass cannot wrap (R126). -/
theorem fieldOf_feSqueeze {a : Fe} (h : LimbsAtMost (2 ^ 32 - 2 ^ 24) a) : fieldOf (feSqueeze a) = fieldOf a := by
  rw [feSqueeze, fieldOf_foldTop (carryPass_bytes 0 a), fieldOf, value_carryPass_zero h, fieldOf]

/-! ## The frame of a field command -/

/-- What a command that writes one register and counts itself leaves unchanged. -/
theorem setF_count_frame (rd : FReg) (v : Fe) (c : Counter) (s : State) :
    RegsKept [rd] s ((s.setF rd v).count c) ∧ Counted c s ((s.setF rd v).count c) ∧
      (s.setF rd v).count c = { s with f := ((s.setF rd v).count c).f, cnt := ((s.setF rd v).count c).cnt } := by
  refine ⟨fun r hr => ?_, fun k => State.cnt_count _ c k, rfl⟩
  exact State.getF_setF_of_ne s rd r v fun e => hr (by simp [e])

@[simp] theorem f_setF_count_self (rd : FReg) (v : Fe) (c : Counter) (s : State) : ((s.setF rd v).count c).f[rd] = v :=
  State.getF_setF_self s rd v

/-! ## ADD (R124) -/

/-- `Add` is exact where no sum can wrap (R124). -/
theorem value_feAdd {a b : Fe} (ha : LimbsAtMost (2 ^ 30) a) (hb : LimbsAtMost (2 ^ 30) b) :
    value (feAdd a b) = value a + value b := by
  have hsum (j : Fin 32) : (a[j] + b[j]).toNat = a[j].toNat + b[j].toNat := by
    have := ha j; have := hb j
    rw [BitVec.toNat_add]; omega
  have hle : LimbsAtMost (2 ^ 32 - 2 ^ 24) (.ofFn fun j => a[j] + b[j]) := limbsAtMost_ofFn fun j => by
    have := ha j; have := hb j
    rw [hsum]; omega
  rw [feAdd, value_carryPass_zero hle, value_ofFn]
  simp only [hsum, mul_add, Finset.sum_add_distrib, value_eq_sum_fin]

theorem feAdd_loop (a b : Fe) : CarryLoop 0 (fun j => limb a j + limb b j) (feAdd a b) :=
  carryPass_ofFn_loop 0 fun j => by simp [limb_of_lt]

/-- Settles O11: limbs at most 2^30 keep every sum of the loop below 2^32. -/
theorem addResult : Obligations.AddResult := by
  intro rd ra rb s
  refine ⟨addEffect rd ra rb s, rfl, ?_⟩
  simp only [addEffect, f_setF_count_self, State.getF_eq]
  exact ⟨feAdd_loop _ _, value_feAdd, carryPass_bytes _ _, setF_count_frame rd _ .add s⟩

/-! ## SUB (R125) -/

/-- The terms of the loop of `Sub`. -/
def subTerms (a b : Fe) : Fe :=
  .ofFn fun j => if j.val = 31 then a[j] - b[j] else a[j] + Config.biasLimb - b[j]

theorem feSub_eq (a b : Fe) : feSub a b = carryPass Config.biasCarry (subTerms a b) := rfl

theorem biasCarry_toNat : Config.biasCarry.toNat = 218 := rfl

theorem limb_subTerms (a b : Fe) (j : Nat) (hj : j < 32) :
    limb (subTerms a b) j = if j = 31 then limb a 31 - limb b 31 else limb a j + 65280 - limb b j := by
  rw [subTerms, limb_ofFn _ j hj]
  by_cases h : j = 31
  · simp [h, limb_of_lt]
  · simp [h, hj, limb_of_lt, Config.biasLimb]

theorem feSub_loop (a b : Fe) :
    CarryLoop 218 (fun j => if j = 31 then limb a 31 - limb b 31 else limb a j + 65280 - limb b j) (feSub a b) :=
  carryLoop_congr (limb_subTerms a b) (carryPass_loop _ (subTerms a b))

/-- `Sub(a, a)` is the register of 2·`P` (R125). -/
theorem feSub_self (a : Fe) : feSub a a = fe3 218 255 255 := by
  have hterms : subTerms a a = .ofFn fun j => if j.val = 31 then 0 else Config.biasLimb := by
    simp [subTerms]
  rw [feSub_eq, hterms]
  decide

section
variable {n : Nat} {a b : Fe} (hn : n ≤ 2 ^ 30) (ha : LimbsAtMost n a) (hb : ByteForm b)
include hn ha hb

/-- Below limb 31 the bias keeps each step of `Sub` above zero, and nothing wraps. -/
theorem sub_step_exact {c : Word} {j : Nat} (hj : j < 31) (hc : c.toNat ≤ 256 + 2 * (n / 256)) :
    ((c + limb (subTerms a b) j).toNat : Int) = c.toNat + ((limb a j).toNat + 65280 - (limb b j).toNat) := by
  have hla := limbsAtMost_iff.mp ha j (by omega)
  have hlb := limbsAtMost_iff.mp hb j (by omega)
  rw [limb_subTerms a b j (by omega), if_neg (by omega)]
  bv_omega

/-- The carries of `Sub`: never below the bias that the next limb needs, and small. -/
theorem sub_carries (j : Nat) (hj : j ≤ 31) :
    218 ≤ (carriesOf Config.biasCarry (limb (subTerms a b)) j).toNat ∧
      (carriesOf Config.biasCarry (limb (subTerms a b)) j).toNat ≤ 256 + 2 * (n / 256) := by
  induction j with
  | zero => rw [carriesOf, biasCarry_toNat]; omega
  | succ j ih =>
    obtain ⟨hlo, hhi⟩ := ih (by omega)
    have hx := sub_step_exact hn ha hb (j := j) (by omega) hhi
    have hla := limbsAtMost_iff.mp ha j (by omega)
    have hlb := limbsAtMost_iff.mp hb j (by omega)
    rw [carriesOf, shift_8_toNat]
    omega

/-- The carry into limb 31 covers every `b[31]` up to 254. -/
theorem sub_top_carry : 254 ≤ (carriesOf Config.biasCarry (limb (subTerms a b)) 31).toNat := by
  obtain ⟨hlo, hhi⟩ := sub_carries hn ha hb 30 (by decide)
  have hx := sub_step_exact hn ha hb (j := 30) (by decide) hhi
  have hlb := limbsAtMost_iff.mp hb 30 (by decide)
  rw [carriesOf, shift_8_toNat]
  omega

theorem sub_top_exact (hb31 : (limb b 31).toNat ≤ 254) :
    ((carriesOf Config.biasCarry (limb (subTerms a b)) 31 + limb (subTerms a b) 31).toNat : Int) =
      (carriesOf Config.biasCarry (limb (subTerms a b)) 31).toNat + ((limb a 31).toNat - (limb b 31).toNat) := by
  have hlo := sub_top_carry hn ha hb
  obtain ⟨-, hhi⟩ := sub_carries hn ha hb 31 le_rfl
  have hla := limbsAtMost_iff.mp ha 31 (by decide)
  rw [limb_subTerms a b 31 (by decide), if_pos rfl]
  generalize carriesOf _ _ 31 = c at *
  bv_omega

/-- `Sub` is exact within its bounds (R125). -/
theorem value_feSub (hb31 : (limb b 31).toNat ≤ 254) : value (feSub a b) + value b = value a + 2 * Config.P := by
  have hv := value_carryPass_of_exact Config.biasCarry (subTerms a b)
    (fun j => (limb a j).toNat - (limb b j).toNat + if j = 31 then 0 else 65280) fun j hj => by
      rcases Nat.lt_succ_iff_lt_or_eq.mp hj with h | rfl
      · rw [sub_step_exact hn ha hb h (sub_carries hn ha hb j h.le).2, if_neg (by omega)]; ring
      · rw [sub_top_exact hn ha hb hb31]; simp
  have hbias : (218 : Int) + ∑ j ∈ Finset.range 32, 256 ^ j * (if j = 31 then 0 else 65280) = 2 * Config.P := by
    decide +kernel
  rw [feSub_eq]
  zify
  rw [hv, ← hbias, value_eq_sum a, value_eq_sum b, biasCarry_toNat]
  push_cast
  simp only [mul_add, mul_sub, Finset.sum_add_distrib, Finset.sum_sub_distrib]
  ring

theorem feSub_top_le (hb31 : (limb b 31).toNat ≤ 254) :
    (limb (feSub a b) 31).toNat ≤ 256 + 2 * (n / 256) + (limb a 31).toNat := by
  have hx := sub_top_exact hn ha hb hb31
  obtain ⟨-, hhi⟩ := sub_carries hn ha hb 31 le_rfl
  rw [feSub_eq, carryPass_top]
  omega

end

/-- Settles O12: the bias of 2·`P` keeps every step of the loop exact. -/
theorem subResult : Obligations.SubResult := by
  intro rd ra rb s
  refine ⟨subEffect rd ra rb s, rfl, ?_⟩
  simp only [subEffect, f_setF_count_self, State.getF_eq]
  refine ⟨feSub_loop _ _, value_feSub le_rfl, carryPass_bytes _ _, fun ha hb => ?top, fun h => h ▸ feSub_self _,
    setF_count_frame rd _ .sub s⟩
  case top =>
    obtain ⟨-, hb31⟩ := squeezed_iff.mp hb
    exact feSub_top_le (n := 255) (by norm_num) ha hb.1 (by omega)

/-! ## SQZ (R126) -/

theorem feSqueeze_loops (a : Fe) : SqueezeLoops (limb a) (feSqueeze a) := ⟨_, carryPass_loop 0 a, foldTop_loop _⟩

/-- Settles O13: the fold takes away a multiple of `P`, and the carry it starts dies out before limb 31. -/
theorem squeezeResult : Obligations.SqueezeResult := by
  intro rd s
  refine ⟨sqzEffect rd s, rfl, ?_⟩
  simp only [sqzEffect, f_setF_count_self, State.getF_eq]
  refine ⟨feSqueeze_loops _, squeezed_feSqueeze _, fun h => ⟨fieldOf_feSqueeze h, value_lt_of_squeezed (squeezed_feSqueeze _)⟩,
    fun h => ?bytesOfP, setF_count_frame rd _ .sqz s⟩
  case bytesOfP =>
    rw [h]
    decide +kernel

/-! ## MULC (R129) -/

/-- `Mulc` keeps the field value of the scaled limbs where none of them wraps (R129). -/
theorem fieldOf_feMulc {a : Fe} (h : LimbsAtMost 35000 a) : fieldOf (feMulc a) = 121665 * fieldOf a := by
  have hmul (j : Fin 32) : (Config.a24 * a[j]).toNat = 121665 * a[j].toNat := by
    have := h j
    rw [BitVec.toNat_mul, show Config.a24.toNat = 121665 from rfl]; omega
  have hle : LimbsAtMost (2 ^ 32 - 2 ^ 24) (.ofFn fun j => Config.a24 * a[j]) := limbsAtMost_ofFn fun j => by
    have := h j
    rw [hmul]; omega
  have hv : value (.ofFn fun j => Config.a24 * a[j]) = 121665 * value a := by
    simp only [value_ofFn, hmul, value_eq_sum_fin a, Finset.mul_sum, mul_left_comm]
  rw [feMulc_eq_squeeze, fieldOf_feSqueeze hle, fieldOf, hv, fieldOf]
  push_cast
  rfl

theorem feMulc_loops (a : Fe) : SqueezeLoops (fun j => 121665 * limb a j) (feMulc a) :=
  feSqueeze_ofFn_loops fun j => by simp [limb_of_lt, Config.a24]

/-- Settles O16, by `Squeeze` of the scaled limbs. -/
theorem mulcResult : Obligations.MulcResult := by
  intro rd ra s
  refine ⟨mulcEffect rd ra s, rfl, ?_⟩
  simp only [mulcEffect, f_setF_count_self, State.getF_eq]
  exact ⟨feMulc_loops _, squeezed_feSqueeze _, fieldOf_feMulc, setF_count_frame rd _ .mulc s⟩

/-! ## The convolution as a cyclic sum (R127) -/

/-- How often a product at limbs `j` and `i - j` enters accumulator `i`: once, or `FOLD2` = 38 times where `i - j` wraps. -/
def foldWeight (R : Type) [CommSemiring R] (i j : Fin 32) : R := if j.val ≤ i.val then 1 else 38

/-- Accumulator `i` of the folded convolution, with its indices modulo 32. -/
def cyclicConv {R : Type} [CommSemiring R] (a b : Fin 32 → R) (i : Fin 32) : R :=
  ∑ j, foldWeight R i j * (a j * b (i - j))

theorem val_sub (i j : Fin 32) : (i - j).val = if j.val ≤ i.val then i.val - j.val else i.val + 32 - j.val := by
  rw [Fin.val_sub]
  split <;> omega

theorem val_sub_le_iff (i j : Fin 32) : (i - j).val ≤ i.val ↔ j.val ≤ i.val := by
  rw [val_sub]
  split <;> omega

section
variable {R S : Type} [CommSemiring R] [CommSemiring S]

theorem foldWeight_sub (i j : Fin 32) : foldWeight R i (i - j) = foldWeight R i j := by
  simp only [foldWeight, val_sub_le_iff]

/-- The products of an accumulator, the one at `i - j` for the one at `j`. -/
theorem cyclicConv_comm (a b : Fin 32 → R) (i : Fin 32) : cyclicConv a b i = cyclicConv b a i := by
  rw [cyclicConv, ← Equiv.sum_comp (Equiv.subLeft i)]
  simp only [Equiv.subLeft_apply, foldWeight_sub, sub_sub_cancel, mul_comm (a _)]
  rfl

theorem map_cyclicConv (φ : R →+* S) (a b : Fin 32 → R) (i : Fin 32) :
    φ (cyclicConv a b i) = cyclicConv (fun j => φ (a j)) (fun j => φ (b j)) i := by
  simp [cyclicConv, foldWeight, apply_ite φ, map_ofNat]

/-- A wrapped index loses the 32nd power, and the weight puts it back. -/
theorem pow_add_mul_foldWeight {x : R} (hx : x ^ 32 = 38) (k j : Fin 32) :
    x ^ (k + j).val * foldWeight R (k + j) j = x ^ k.val * x ^ j.val := by
  rw [foldWeight, Fin.val_add, ← pow_add]
  by_cases h : k.val + j.val < 32
  · rw [Nat.mod_eq_of_lt h, if_pos (by omega), mul_one]
  · rw [if_neg (by omega), ← hx, ← pow_add]
    congr 1
    omega

/-- Where the 32nd power of the radix is 38, the convolution is the product of the two numbers. -/
theorem sum_pow_mul_cyclicConv {x : R} (hx : x ^ 32 = 38) (a b : Fin 32 → R) :
    ∑ i : Fin 32, x ^ i.val * cyclicConv a b i = (∑ j : Fin 32, x ^ j.val * a j) * ∑ k : Fin 32, x ^ k.val * b k := by
  simp only [cyclicConv, Finset.mul_sum, Finset.sum_mul]
  rw [Finset.sum_comm, Finset.sum_comm (f := fun k j : Fin 32 => x ^ j.val * a j * (x ^ k.val * b k))]
  refine Finset.sum_congr rfl fun j _ => ?_
  rw [← Equiv.sum_comp (Equiv.addRight j)]
  refine Finset.sum_congr rfl fun k _ => ?_
  rw [Equiv.coe_addRight, add_sub_cancel_right, ← mul_assoc, pow_add_mul_foldWeight hx]
  ring

end

/-- The largest sum of weights over an accumulator is 1 + 38 · 31 (R127). -/
theorem sum_foldWeight_le (i : Fin 32) : ∑ j, foldWeight Nat i j ≤ 1179 := by
  revert i
  decide +kernel

/-- Limbs at most 1900 leave room for the first pass of `Squeeze` (R127). -/
theorem cyclicConv_le {a b : Fin 32 → Nat} (ha : ∀ j, a j ≤ 1900) (hb : ∀ j, b j ≤ 1900) (i : Fin 32) :
    cyclicConv a b i ≤ 2 ^ 32 - 2 ^ 24 :=
  calc cyclicConv a b i
    _ ≤ ∑ j, foldWeight Nat i j * (1900 * 1900) :=
      Finset.sum_le_sum fun j _ => Nat.mul_le_mul_left _ (Nat.mul_le_mul (ha j) (hb _))
    _ = (∑ j, foldWeight Nat i j) * (1900 * 1900) := by rw [Finset.sum_mul]
    _ ≤ 1179 * (1900 * 1900) := Nat.mul_le_mul_right _ (sum_foldWeight_le i)
    _ ≤ 2 ^ 32 - 2 ^ 24 := by norm_num

/-! ## The accumulators of `Mult` (R127) -/

/-- The limbs of a register by their index. -/
def limbs (a : Fe) (j : Fin 32) : Word := limb a j.val

theorem limbs_ofFn (g : Fin 32 → Word) (j : Fin 32) : limbs (.ofFn g) j = g j := limb_ofFn g j.val j.isLt

theorem convTerm_eq (a b : Fe) (i j : Fin 32) :
    convTerm a b i j = foldWeight Word i j * (limbs a j * limbs b (i - j)) := by
  rw [convTerm, foldWeight, limbs, limbs, val_sub, limb_of_lt a j.val j.isLt]
  by_cases h : j.val ≤ i.val
  · rw [dif_pos h, if_pos h, if_pos h, limb_of_lt b _ (by omega), one_mul]
    rfl
  · rw [dif_neg h, if_neg h, if_neg h, limb_of_lt b _ (by omega), mul_assoc]
    rfl

/-- The two inner loops of `Mult` are one cyclic sum. -/
theorem convLimb_eq (a b : Fe) (i : Fin 32) : convLimb a b i = cyclicConv (limbs a) (limbs b) i := by
  rw [convLimb, cyclicConv, Fin.sum_univ_def, List.sum_eq_foldl, List.foldl_map]
  simp only [convTerm_eq]

/-- A sum over the indices up to `i` and a sum over those above it, as one over `Fin 32`. -/
theorem sum_split_at {R : Type} [AddCommMonoid R] (i : Fin 32) (f g : Nat → R) :
    (∑ j ∈ Finset.range (i.val + 1), f j) + ∑ j ∈ Finset.Ico (i.val + 1) 32, g j =
      ∑ j : Fin 32, if j.val ≤ i.val then f j else g j := by
  have hi := i.isLt
  rw [← Finset.sum_range fun j => if j ≤ i.val then f j else g j,
    ← Finset.sum_range_add_sum_Ico _ (show i.val + 1 ≤ 32 by omega)]
  congr 1
  · exact Finset.sum_congr rfl fun j hj => (if_pos (by have := Finset.mem_range.mp hj; omega)).symm
  · exact Finset.sum_congr rfl fun j hj => (if_neg (by have := Finset.mem_Ico.mp hj; omega)).symm

theorem convolution_eq (a b : Fe) (i : Fin 32) : convolution a b i = cyclicConv (limbs a) (limbs b) i := by
  rw [convolution, sum_split_at, cyclicConv]
  refine Finset.sum_congr rfl fun j _ => ?_
  rw [foldWeight, limbs, limbs, val_sub]
  split <;> simp [mul_assoc]

/-! ## MUL -/

theorem feMult_eq (a b : Fe) : feMult a b = feSqueeze (.ofFn (cyclicConv (limbs a) (limbs b))) := by
  rw [feMult, funext (convLimb_eq a b)]

/-- The operands of `Mult` commute for all inputs (R127). -/
theorem feMult_comm (a b : Fe) : feMult a b = feMult b a := by
  rw [feMult_eq, feMult_eq, funext (cyclicConv_comm (limbs a) (limbs b))]

/-- The convolution of words is the one of numbers, cut to 32 bits. -/
theorem cyclicConv_toNat (a b : Fin 32 → Word) (i : Fin 32) :
    (cyclicConv a b i).toNat = cyclicConv (fun j => (a j).toNat) (fun j => (b j).toNat) i % 2 ^ 32 := by
  have h := map_cyclicConv (Nat.castRingHom Word) (fun j => (a j).toNat) (fun j => (b j).toNat) i
  simp only [Nat.coe_castRingHom, BitVec.natCast_eq_ofNat, BitVec.ofNat_toNat, BitVec.setWidth_eq] at h
  rw [← h, BitVec.toNat_ofNat]

/-- 2^256 is 38 modulo `P` (R127). -/
theorem radix_pow_limbs : (256 : ZMod Config.P) ^ 32 = 38 := by
  have h : ((256 ^ 32 : Nat) : ZMod Config.P) = ((2 * Config.P + 38 : Nat) : ZMod Config.P) :=
    congrArg _ (by norm_num [Config.P])
  simpa only [Nat.cast_pow, Nat.cast_add, Nat.cast_mul, Nat.cast_ofNat, ZMod.natCast_self, mul_zero, zero_add] using h

theorem fieldOf_eq_sum (a : Fe) :
    fieldOf a = ∑ j : Fin 32, (256 : ZMod Config.P) ^ j.val * ((limbs a j).toNat : ZMod Config.P) := by
  rw [fieldOf, value_eq_sum, Finset.sum_range]
  push_cast
  rfl

/-- `Mult` is the product of the field values where no accumulator wraps (R127). -/
theorem fieldOf_feMult {a b : Fe} (ha : LimbsAtMost 1900 a) (hb : LimbsAtMost 1900 b) :
    fieldOf (feMult a b) = fieldOf a * fieldOf b := by
  have hle := cyclicConv_le (fun j => limbsAtMost_iff.mp ha j.val j.isLt) (fun j => limbsAtMost_iff.mp hb j.val j.isLt)
  have hexact (i : Fin 32) : (cyclicConv (limbs a) (limbs b) i).toNat =
      cyclicConv (fun j => (limbs a j).toNat) (fun j => (limbs b j).toNat) i := by
    rw [cyclicConv_toNat]
    exact Nat.mod_eq_of_lt ((hle i).trans_lt (by norm_num))
  have hacc : LimbsAtMost (2 ^ 32 - 2 ^ 24) (.ofFn (cyclicConv (limbs a) (limbs b))) :=
    limbsAtMost_ofFn fun i => (hexact i).trans_le (hle i)
  rw [feMult_eq, fieldOf_feSqueeze hacc, fieldOf_eq_sum, fieldOf_eq_sum a, fieldOf_eq_sum b,
    ← sum_pow_mul_cyclicConv radix_pow_limbs]
  refine Finset.sum_congr rfl fun i _ => ?_
  rw [limbs_ofFn, hexact]
  exact congrArg _ (map_cyclicConv (Nat.castRingHom (ZMod Config.P)) _ _ i)

theorem squeezed_feMult (a b : Fe) : Squeezed (feMult a b) := squeezed_feSqueeze _

/-- Settles O14: the folded convolution is the product in a ring where the 32nd power of the radix is 38. -/
theorem mulResult : Obligations.MulResult := by
  intro rd ra rb s
  refine ⟨mulEffect rd ra rb s, rfl, ?_⟩
  simp only [mulEffect, f_setF_count_self, State.getF_eq]
  refine ⟨⟨.ofFn fun i => convLimb s.f[ra] s.f[rb] i, fun i hi => ?acc, feSqueeze_loops _⟩, squeezed_feMult _ _, fieldOf_feMult,
    ?comm, setF_count_frame rd _ .mul s⟩
  case acc => rw [limb_ofFn _ i hi, convLimb_eq, ← convolution_eq]
  case comm => rw [feMult_comm]; rfl

/-! ## SQR (R128) -/

/-- A sum over an involution that keeps the terms: each pair once, doubled, and the fixed points. -/
theorem sum_involutive {ι R : Type} [Fintype ι] [LinearOrder ι] [CommSemiring R] {σ : ι → ι} (hσ : σ.Involutive) {f : ι → R}
    (hf : ∀ j, f (σ j) = f j) :
    ∑ j, f j = (∑ j with j < σ j, f j) * 2 + ∑ j with j = σ j, f j := by
  have hswap : ∑ j with σ j < j, f j = ∑ j with j < σ j, f j := by
    rw [Finset.sum_filter, Finset.sum_filter, ← Equiv.sum_comp hσ.toPerm]
    simp [hσ _, hf]
  rw [mul_two]
  nth_rw 2 [← hswap]
  simp only [Finset.sum_filter, ← Finset.sum_add_distrib]
  refine Finset.sum_congr rfl fun j _ => ?_
  rcases lt_trichotomy j (σ j) with h | h | h
  · simp [h, h.ne, h.not_gt]
  · simp [← h]
  · simp [h, h.ne', h.not_gt]

/-- The indices that are their own partners in accumulator `i`. -/
theorem self_partners (i : Fin 32) :
    (Finset.univ.filter fun j : Fin 32 => j = i - j) =
      if i.val % 2 = 0 then {⟨i.val / 2, by omega⟩, ⟨i.val / 2 + 16, by omega⟩} else ∅ := by
  revert i
  decide +kernel

/-- The squares in the middle of the halved form. -/
theorem sum_self_partners (a : Fe) (i : Fin 32) :
    ∑ j with j = i - j, foldWeight Word i j * (limbs a j * limbs a (i - j)) =
      if i.val % 2 = 0 then
        limb a (i.val / 2) * limb a (i.val / 2) + 38 * limb a (i.val / 2 + 16) * limb a (i.val / 2 + 16) else 0 := by
  have hself : ∑ j with j = i - j, foldWeight Word i j * (limbs a j * limbs a (i - j)) =
      ∑ j with j = i - j, foldWeight Word i j * (limbs a j * limbs a j) :=
    Finset.sum_congr rfl fun j hj => by rw [← (Finset.mem_filter.mp hj).2]
  rw [hself, self_partners]
  split
  · rw [Finset.sum_pair (by simp), foldWeight, foldWeight, if_pos (by simp; omega),
      if_neg (by simp; omega), one_mul, mul_assoc]
    rfl
  · simp

/-- The cross products of the halved form. -/
theorem sum_cross_products (a : Fe) (i : Fin 32) :
    (∑ j ∈ (Finset.range 32).filter (fun j => j < i.val - j), limb a j * limb a (i.val - j)) +
        ∑ j ∈ (Finset.Ico (i.val + 1) 32).filter (fun j => j < i.val + 32 - j), 38 * limb a j * limb a (i.val + 32 - j) =
      ∑ j with j < i - j, foldWeight Word i j * (limbs a j * limbs a (i - j)) := by
  have hrange : (Finset.range 32).filter (fun j => j < i.val - j) = (Finset.range (i.val + 1)).filter (fun j => j < i.val - j) := by
    ext j
    simp only [Finset.mem_filter, Finset.mem_range]
    omega
  rw [hrange, Finset.sum_filter, Finset.sum_filter, sum_split_at, Finset.sum_filter]
  refine Finset.sum_congr rfl fun j _ => ?_
  simp only [foldWeight, limbs, Fin.lt_def, val_sub]
  split <;> simp [mul_assoc]

/-- The halved form computes the words of `Mult(a, a)` for every input (R128). -/
theorem halvedConvolution_eq (a : Fe) (i : Fin 32) : halvedConvolution a i = convLimb a a i := by
  have hinv : (fun j : Fin 32 => i - j).Involutive := sub_sub_cancel i
  rw [halvedConvolution, sum_cross_products, ← sum_self_partners, convLimb_eq, cyclicConv, sum_involutive hinv]
  intro j
  rw [foldWeight_sub, sub_sub_cancel, mul_comm (limbs a _)]

/-- Settles O15: the halved form pairs the terms of each accumulator by the involution `j ↦ i - j`. -/
theorem sqrResult : Obligations.SqrResult := by
  intro rd ra s
  refine ⟨sqrEffect rd ra s, rfl, ⟨mulEffect rd ra ra s, rfl, rfl⟩, ?_⟩
  simp only [sqrEffect, feSquare, f_setF_count_self, State.getF_eq]
  refine ⟨⟨.ofFn fun i => convLimb s.f[ra] s.f[ra] i, fun i hi => ?acc, feSqueeze_loops _⟩, squeezed_feMult _ _, fun h => ?square,
    setF_count_frame rd _ .sqr s⟩
  case acc => rw [limb_ofFn _ i hi, ← halvedConvolution_eq]
  case square => rw [fieldOf_feMult h h, sq]

/-! ## FRZ (R130) -/

theorem signMask_eq (w : Word) : signMask w = if w.getLsbD 7 then BitVec.allOnes 32 else 0 := by
  change 0#32 - (w >>> 7 &&& 1#32) = _
  rw [BitVec.and_one_eq_setWidth_ofBool_getLsbD, BitVec.getLsbD_ushiftRight]
  cases w.getLsbD (7 + 0) <;> rfl

/-- The masked choice is a choice by bit 7 of the top limb of `a + MINUSP` (R130). -/
theorem limb_freezeChoice (a : Fe) (j : Nat) (hj : j < 32) :
    limb (freezeChoice a) j =
      if (limb (feAdd a Config.minusP) 31).getLsbD 7 then limb a j else limb (feAdd a Config.minusP) j := by
  rw [freezeChoice, limb_ofFn _ j hj, limb_of_lt _ 31 (by decide), limb_of_lt _ j hj, limb_of_lt _ j hj, signMask_eq]
  split
  · simp only [BitVec.allOnes_and]
    rw [BitVec.xor_comm a[_], ← BitVec.xor_assoc]; simp
  · simp

theorem limb_feFreeze (a : Fe) (j : Nat) :
    limb (feFreeze a) j = if j = 31 then limb (freezeChoice a) 31 &&& 255 else limb (freezeChoice a) j := by
  rw [feFreeze, limb_setTop, limb_of_lt _ 31 (by decide)]

theorem limb_minusP (j : Nat) (hj : j < 32) : limb Config.minusP j = if j = 0 then 19 else if j = 31 then 128 else 0 := by
  rw [Config.minusP, limb_ofFn _ j hj]
  simp [Fin.ext_iff]

theorem freezeChooses_feFreeze (a : Fe) : FreezeChooses a (feFreeze a) := by
  refine ⟨feAdd a Config.minusP, carryLoop_congr (fun j hj => by rw [limb_minusP j hj]) (feAdd_loop a _), fun j hj => ?_, ?_⟩
  · rw [limb_feFreeze, if_neg (by omega), limb_freezeChoice a j (by omega)]
  · rw [limb_feFreeze, if_pos rfl, limb_freezeChoice a 31 (by decide)]

theorem getLsbD_seven (w : Word) : w.getLsbD 7 = decide (w.toNat / 128 % 2 = 1) := by
  rw [BitVec.getLsbD, Nat.testBit_eq_decide_div_mod_eq]

section
variable {a : Fe} (ha : ByteForm a)
include ha

/-- `a + MINUSP` is `a` + 2^255 + 19 (R122). -/
theorem value_add_minusP : value (feAdd a Config.minusP) = value a + (2 ^ 255 + 19) := by
  have hm : LimbsAtMost (2 ^ 30) Config.minusP ∧ value Config.minusP = 2 ^ 255 + 19 := by decide +kernel
  rw [value_feAdd (fun j => (ha j).trans (by norm_num)) hm.1, hm.2]

/-- Bit 7 of the top limb tells whether `a` is below `P` (R130). -/
theorem sign_iff (hlt : value a < 2 * Config.P) :
    (limb (feAdd a Config.minusP) 31).getLsbD 7 = true ↔ value a < Config.P := by
  have hv := value_add_minusP ha
  have hlow := lowValue_lt (carryPass_bytes 0 (.ofFn fun j => a[j] + Config.minusP[j]))
  rw [← feAdd] at hlow
  rw [value_eq_low_add_top (feAdd _ _)] at hv
  rw [getLsbD_seven, decide_eq_true_iff]
  rw [Config.P] at *
  omega

/-- A register below `P` is kept (R130). -/
theorem feFreeze_of_lt (hlt : value a < Config.P) : feFreeze a = a := by
  have hsign := (sign_iff ha (by omega)).mpr hlt
  refine fe_ext _ _ fun j hj => ?_
  rw [limb_feFreeze]
  split
  · subst j
    have h31 := limbsAtMost_iff.mp ha 31 hj
    rw [limb_freezeChoice a 31 hj, if_pos hsign]
    exact BitVec.eq_of_toNat_eq (by rw [and_255_toNat]; omega)
  · rw [limb_freezeChoice a j hj, if_pos hsign]

/-- From `P` on, and below 2·`P`, one `P` is taken away (R130). -/
theorem feFreeze_of_ge (hge : Config.P ≤ value a) (hlt : value a < 2 * Config.P) :
    ByteForm (feFreeze a) ∧ value (feFreeze a) = value a - Config.P := by
  have hsign : ¬ (limb (feAdd a Config.minusP) 31).getLsbD 7 = true := fun h => by
    have := (sign_iff ha hlt).mp h
    omega
  have hkeep (j : Nat) (hj : j < 31) : limb (feFreeze a) j = limb (feAdd a Config.minusP) j := by
    rw [limb_feFreeze, if_neg (by omega), limb_freezeChoice a j (by omega), if_neg hsign]
  have htop : (limb (feFreeze a) 31).toNat = (limb (feAdd a Config.minusP) 31).toNat % 256 := by
    rw [limb_feFreeze, if_pos rfl, limb_freezeChoice a 31 (by decide), if_neg hsign, and_255_toNat]
  have hbytes (j : Nat) (hj : j < 31) : (limb (feAdd a Config.minusP) j).toNat ≤ 255 := carryPass_bytes _ _ j hj
  refine ⟨byteForm_of_top (fun j hj => by rw [hkeep j hj]; exact hbytes j hj) (by omega), ?_⟩
  have hv := value_add_minusP ha
  have hlow := lowValue_lt hbytes
  rw [value_eq_low_add_top (feAdd _ _)] at hv
  rw [value_eq_low_add_top, lowValue_congr hkeep, htop]
  rw [Config.P] at *
  omega

/-- On its domain `Freeze` gives the canonical register of the value modulo `P` (R130). -/
theorem canonical_feFreeze (hlt : value a < 2 * Config.P) :
    Canonical (feFreeze a) ∧ value (feFreeze a) = value a % Config.P := by
  rcases Nat.lt_or_ge (value a) Config.P with h | h
  · rw [feFreeze_of_lt ha h, Nat.mod_eq_of_lt h]
    exact ⟨⟨ha, h⟩, rfl⟩
  · obtain ⟨hb, hv⟩ := feFreeze_of_ge ha h hlt
    rw [Nat.mod_eq_sub_mod h, Nat.mod_eq_of_lt (by omega)]
    exact ⟨⟨hb, by omega⟩, hv⟩

end

theorem feFreeze_of_canonical {a : Fe} (h : Canonical a) : feFreeze a = a := feFreeze_of_lt h.1 h.2

/-- Every squeezed register is in the domain of `Freeze` (R130). -/
theorem value_lt_two_P_of_squeezed {a : Fe} (h : Squeezed a) : value a < 2 * Config.P :=
  (value_lt_of_squeezed h).trans (by norm_num [Config.P])

/-- Settles O17: bit 7 of the top limb of `a + MINUSP` is set exactly when `a` is below `P`. -/
theorem freezeResult : Obligations.FreezeResult := by
  intro rd s
  refine ⟨frzEffect rd s, rfl, ?_⟩
  have hout : (frzEffect rd s).f[rd] = feFreeze s.f[rd] := f_setF_count_self rd _ .frz s
  rw [hout]
  refine ⟨freezeChooses_feFreeze _, fun hb hlt => ?_, value_lt_two_P_of_squeezed, setF_count_frame rd _ .frz s⟩
  obtain ⟨hcanon, hval⟩ := canonical_feFreeze hb hlt
  refine ⟨hcanon, hval, frzEffect rd (frzEffect rd s), rfl, ?_⟩
  calc (frzEffect rd (frzEffect rd s)).f[rd]
    _ = feFreeze (frzEffect rd s).f[rd] := f_setF_count_self rd _ .frz _
    _ = feFreeze s.f[rd] := by rw [hout, feFreeze_of_canonical hcanon]

end Sys2Proof.Proofs.FieldArith
end

section
/-! PROOFS of the statement about the conditional select SEL (spec/41_select.md R160). What a pair register holds after a write to the
same and to another pair comes first; the effect of SEL then follows pair by pair, and register by register from the two halves. -/

open Sys2Proof Sys2Proof.Machine

namespace Sys2Proof.Proofs.Select

/-! ## Reading a pair register (10_state.md R21) -/

@[simp] theorem getPair_count (s : State) (c : Counter) (k : PReg) : (s.count c).getPair k = s.getPair k := rfl

@[simp] theorem getPair_setPair_self (s : State) (k : PReg) (v : Pair) : (s.setPair k v).getPair k = v := by
  ext1 j hj
  by_cases h : j < 32
  · simp [State.getPair, State.setPair, h]
  · simp [State.getPair, State.setPair, h, Nat.sub_add_cancel (Nat.le_of_not_lt h)]

theorem getPair_setPair_of_ne {k l : PReg} (h : k ≠ l) (s : State) (v : Pair) : (s.setPair k v).getPair l = s.getPair l := by
  have hval : k.val ≠ l.val := Fin.val_ne_of_ne h
  have hlow : (s.setPair k v).f[2 * l.val] = s.f[2 * l.val] := by
    simp (disch := omega) only [State.setPair, Vector.getElem_set_ne]
  have hhigh : (s.setPair k v).f[2 * l.val + 1] = s.f[2 * l.val + 1] := by
    simp (disch := omega) only [State.setPair, Vector.getElem_set_ne]
  simp only [State.getPair, hlow, hhigh]

/-- A pair register that holds a pair chosen by a bit holds the two registers of that pair. -/
theorem f_eq_of_getPair_eq_ite {s t : State} {k p q : PReg} {b : Bool}
    (h : t.getPair k = if b then s.getPair p else s.getPair q) :
    t.f[2 * k.val] = (if b then s.f[2 * p.val] else s.f[2 * q.val]) ∧
      t.f[2 * k.val + 1] = (if b then s.f[2 * p.val + 1] else s.f[2 * q.val + 1]) := by
  simp only [← lowHalf_getPair, ← highHalf_getPair, h]
  exact ⟨apply_ite lowHalf .., apply_ite highHalf ..⟩

/-! ## SEL (R160) -/

section
variable {pd qd pr ps : PReg} {b : Bool} {s : State}

/-- The first destination is written before the second, which is another pair and leaves it alone. -/
theorem getPair_selEffect_first (h : pd ≠ qd) :
    (selEffect pd qd pr ps b s).getPair pd = if b then s.getPair ps else s.getPair pr := by
  rw [selEffect, getPair_count, getPair_setPair_of_ne h.symm, getPair_setPair_self, selectPairs_eq, apply_ite Prod.fst]

theorem getPair_selEffect_second :
    (selEffect pd qd pr ps b s).getPair qd = if b then s.getPair pr else s.getPair ps := by
  rw [selEffect, getPair_count, getPair_setPair_self, selectPairs_eq, apply_ite Prod.snd]

/-- A register in neither destination pair holds what it held. -/
theorem f_selEffect_of_ne {r : FReg} (hp : r.val / 2 ≠ pd.val) (hq : r.val / 2 ≠ qd.val) :
    (selEffect pd qd pr ps b s).f[r] = s.f[r] := by
  refine getF_primEffect (.sel pd qd pr ps b) s r ?_
  simp only [primDests, List.mem_cons, List.not_mem_nil, or_false, Fin.ext_iff]
  omega

theorem counted_selEffect : Counted .sel s (selEffect pd qd pr ps b s) := fun k => State.cnt_count _ .sel k

end

/-- Selecting twice with the same bit restores the order (R160). -/
theorem selectPairs_selectPairs (r s : Pair) (b : Bool) :
    selectPairs (selectPairs r s b).1 (selectPairs r s b).2 b = (r, s) := by
  cases b <;> simp [selectPairs_eq]

/-- Settles O19: each destination pair holds the source pair that the bit chooses, and a pair is its two registers. -/
theorem selectResult : Obligations.SelectResult := by
  unfold Obligations.SelectResult
  refine ⟨fun pd qd pr ps b s hne => ⟨selEffect pd qd pr ps b s, if_neg hne, ?_⟩, selectPairs_selectPairs⟩
  obtain ⟨hpLow, hpHigh⟩ := f_eq_of_getPair_eq_ite (getPair_selEffect_first hne)
  obtain ⟨hqLow, hqHigh⟩ := f_eq_of_getPair_eq_ite getPair_selEffect_second
  exact ⟨hpLow, hpHigh, hqLow, hqHigh, fun r => f_selEffect_of_ne, counted_selEffect, rfl⟩

end Sys2Proof.Proofs.Select
end

section
/-! PROOFS of the statements about clamping and the ladder's initial state (spec/42_ladder.md R170, R172). The integer of a byte
register comes first, split at its lowest and at its top byte; the range of the clamped scalar follows from those two bytes alone. -/

open Sys2Proof Sys2Proof.Machine Sys2Proof.Proofs.FieldArith

namespace Sys2Proof.Proofs.Ladder

/-! ## The integer of a byte register (00_scope.md R7) -/

theorem limb_feOfBytes_toNat (b : Bytes32) (j : Nat) (hj : j < 32) : (limb (feOfBytes b) j).toNat = b[j].toNat := by
  rw [feOfBytes, limb_ofFn _ j hj, zext32, BitVec.toNat_setWidth_of_le (by decide), Fin.getElem_fin]

/-- The top byte has weight 2^248, and the bytes below it stand for less than that. -/
theorem bytesValue_eq_low_add_top (b : Bytes32) : ∃ low < 2 ^ 248, bytesValue b = low + 2 ^ 248 * b[31].toNat := by
  refine ⟨lowValue (feOfBytes b), lowValue_lt fun j hj => ?_, ?_⟩
  · rw [limb_feOfBytes_toNat b j (by omega)]
    exact Nat.le_of_lt_succ b[j].isLt
  · rw [bytesValue, value_eq_low_add_top, limb_feOfBytes_toNat b 31 (by decide)]

/-- Every byte but the lowest stands for a multiple of 256. -/
theorem bytesValue_mod_256 (b : Bytes32) : bytesValue b % 256 = b[0].toNat := by
  have h0 : 256 ^ 0 * (limb (feOfBytes b) 0).toNat = b[0].toNat := by
    rw [limb_feOfBytes_toNat b 0 (by decide), pow_zero, one_mul]
  rw [bytesValue, value_eq_sum, Finset.sum_range_succ', h0]
  simp only [pow_succ', mul_assoc, ← Finset.mul_sum]
  rw [Nat.mul_add_mod, Nat.mod_eq_of_lt b[0].isLt]

/-! ## CLAMP (R170) -/

@[simp] theorem clampScalar_low (n : Bytes32) : (clampScalar n)[0] = n[0] &&& 248 := by
  simp [clampScalar]

@[simp] theorem clampScalar_top (n : Bytes32) : (clampScalar n)[31] = (n[31] &&& 127) ||| 64 := by
  simp [clampScalar]

/-- Bytes 1..30 pass unchanged (R170). -/
theorem clampScalar_middle (n : Bytes32) (j : Nat) (h0 : j ≠ 0) (h31 : j < 31) : (clampScalar n)[j] = n[j] := by
  rw [clampScalar, Vector.getElem_set_ne _ _ (by omega), Vector.getElem_set_ne _ _ (by omega)]

/-- The low 3 bits of a byte are cleared. -/
theorem lowClamp_mod_8 (b : Byte) : (b &&& 248).toNat % 8 = 0 := by
  revert b
  decide

/-- The highest bit of a byte is cleared and the next is set. -/
theorem topClamp_bounds (b : Byte) : 64 ≤ ((b &&& 127) ||| 64).toNat ∧ ((b &&& 127) ||| 64).toNat ≤ 127 := by
  revert b
  decide

/-- The clamped scalar lies in [2^254, 2^255 - 8]: below 2^255, it is a multiple of 8 (R170). -/
theorem bytesValue_clampScalar (n : Bytes32) :
    2 ^ 254 ≤ bytesValue (clampScalar n) ∧ bytesValue (clampScalar n) ≤ 2 ^ 255 - 8 ∧
      bytesValue (clampScalar n) % 8 = 0 := by
  obtain ⟨low, hlow, hval⟩ := bytesValue_eq_low_add_top (clampScalar n)
  have hmod := bytesValue_mod_256 (clampScalar n)
  rw [clampScalar_top] at hval
  rw [clampScalar_low] at hmod
  have hbounds := topClamp_bounds n[31]
  have hmul := lowClamp_mod_8 n[0]
  omega

theorem lowClamp_idem (b : Byte) : b &&& 248 &&& 248 = b &&& 248 := by
  rw [BitVec.and_assoc, BitVec.and_self]

theorem topClamp_idem (b : Byte) : (((b &&& 127) ||| 64) &&& 127) ||| 64 = (b &&& 127) ||| 64 := by
  revert b
  decide

/-- `Clamp` is idempotent (R170). -/
theorem clampScalar_clampScalar (n : Bytes32) : clampScalar (clampScalar n) = clampScalar n := by
  ext1 j hj
  by_cases h0 : j = 0
  · subst h0
    rw [clampScalar_low, clampScalar_low, lowClamp_idem]
  by_cases h31 : j = 31
  · subst h31
    rw [clampScalar_top, clampScalar_top, topClamp_idem]
  · exact clampScalar_middle _ j h0 (by omega)

/-- Settles O27: the lowest byte makes the scalar a multiple of 8, the top byte gives its range. -/
theorem clampResult : Obligations.ClampResult := by
  unfold Obligations.ClampResult
  refine ⟨fun s => ⟨clampEffect s, rfl, ?_⟩, rfl, clampScalar_clampScalar, by decide, by decide, by decide⟩
  obtain ⟨hge, hle, hmod⟩ := bytesValue_clampScalar s.n
  exact ⟨clampScalar_low s.n, clampScalar_top s.n, fun i h1 h30 => clampScalar_middle s.n i (by omega) (by omega),
    hge, hle, hmod, rfl⟩

/-! ## LINIT (R172) -/

/-- `IMM8` as a register is its immediate in limb 0 and zero above (45_move_control.md R221). -/
theorem immFe_eq_fe3 (imm : Byte) : immFe imm = fe3 (zext32 imm) 0 0 := by
  simp [immFe, fe3]

/-- `F0` is read after two of the writes, which are to other registers (R172). -/
theorem linitEffect_f (s : State) :
    (linitEffect s).f = (((s.f.set 4 (fe3 1 0 0)).set 5 (fe3 0 0 0)).set 6 s.f[0]).set 7 (fe3 1 0 0) := by
  have hread (v w : Fe) : ((s.setF rXZMx v).setF rXZMz w).getF rWX = s.getF rWX := by
    rw [State.getF_setF_of_ne _ _ _ _ (by decide), State.getF_setF_of_ne _ _ _ _ (by decide)]
  simp only [linitEffect, linitPrims, runPrims, primEffect, setcEffect, movEffect, hread, immFe_eq_fe3]
  rfl

theorem linitPrims_dests : ∀ p ∈ linitPrims, ∀ r ∈ primDests p, r ∈ ([4, 5, 6, 7] : List FReg) := by
  decide

/-- Settles O29: the sub-steps of `LINIT` are the four commands of its listing. -/
theorem ladderInitResult : Obligations.LadderInitResult := by
  unfold Obligations.LadderInitResult
  intro s
  have hkept : RegsKept [4, 5, 6, 7] s (linitEffect s) := fun r hr =>
    getF_runPrims linitPrims s r fun p hp hdest => hr (linitPrims_dests p hp r hdest)
  refine ⟨linitEffect s, rfl, ⟨runPrims linitPrims s, rfl, rfl⟩, ?_, ?_, ?_, ?_, rfl, hkept, linitEffect_frame s⟩
  all_goals simp [linitEffect_f]

end Sys2Proof.Proofs.Ladder
end

section
/-! PROOFS of the statements about the moves between registers and bytes and about SMULTB (spec/44_scalarmult.md R200, R201, R205).
The point register enters a command through LDPT alone: every other sub-step commutes with a write to it, and so do the ladder and
what follows it. LDPT of the base point writes what SETC of 9 writes, so SMULT over 9 and SMULTB run in step. -/

open Sys2Proof Sys2Proof.Machine Sys2Proof.Proofs.FieldArith Sys2Proof.Proofs.Ladder

namespace Sys2Proof.Proofs.ScalarMult

/-! ## LDPT (R200) -/

theorem byteForm_feOfBytes (b : Bytes32) : ByteForm (feOfBytes b) :=
  limbsAtMost_iff.mpr fun j hj => by
    rw [limb_feOfBytes_toNat b j hj]
    exact Nat.le_of_lt_succ b[j].isLt

theorem regsKept_setF (rd : FReg) (v : Fe) (s : State) : RegsKept [rd] s (s.setF rd v) := fun r hr =>
  State.getF_setF_of_ne s rd r v (List.ne_of_not_mem_cons hr).symm

/-- Settles O22: the destination holds the point's bytes, each a limb of its own. -/
theorem loadPointResult : Obligations.LoadPointResult := by
  unfold Obligations.LoadPointResult
  intro rd s
  have hdest : (ldptEffect rd s).f[rd] = feOfBytes s.pt := State.getF_setF_self s rd _
  refine ⟨ldptEffect rd s, rfl, fun j => ?_, ?_, regsKept_setF rd _ s, rfl⟩
  · rw [hdest, feOfBytes, limb_ofFn _ _ j.isLt, zext32]
  · rw [hdest]
    exact byteForm_feOfBytes s.pt

/-! ## STQ (R201) -/

theorem getElem_bytesOfFe (a : Fe) (j : Fin 32) : (bytesOfFe a)[j] = (limb a j.val).setWidth 8 := by
  simp [bytesOfFe, trunc8, limb_of_lt]

/-- On byte form nothing is dropped: the stored bytes, loaded back, are the register (R201). -/
theorem feOfBytes_bytesOfFe {a : Fe} (h : ByteForm a) : feOfBytes (bytesOfFe a) = a :=
  fe_ext _ _ fun j hj => by
    have hbyte : (limb a j).toNat ≤ 255 := limbsAtMost_iff.mp h j hj
    have hstored : (bytesOfFe a)[j] = (limb a j).setWidth 8 := getElem_bytesOfFe a ⟨j, hj⟩
    apply BitVec.eq_of_toNat_eq
    rw [limb_feOfBytes_toNat _ j hj, hstored, BitVec.toNat_setWidth]
    omega

/-- Settles O23: each byte is the low part of its limb, which on byte form is the whole limb. -/
theorem storeResultResult : Obligations.StoreResultResult := by
  unfold Obligations.StoreResultResult
  intro ra s
  refine ⟨stqEffect ra s, rfl, getElem_bytesOfFe s.f[ra], fun h => ?_, rfl⟩
  exact congrArg value (feOfBytes_bytesOfFe h)

/-! ## Writing the point register (10_state.md R26) -/

/-- `PT <- v`. -/
def setPt (v : Bytes32) (s : State) : State := { s with pt := v }

theorem setPt_self (s : State) : setPt s.pt s = s := rfl

theorem setPt_setPt (v w : Bytes32) (s : State) : setPt v (setPt w s) = setPt v s := rfl

section
variable (v : Bytes32)

theorem getF_setPt (s : State) (r : FReg) : (setPt v s).getF r = s.getF r := rfl
theorem getPair_setPt (s : State) (k : PReg) : (setPt v s).getPair k = s.getPair k := rfl
theorem setPair_setPt (k : PReg) (w : Pair) : Function.Commute (State.setPair · k w) (setPt v) := fun _ => rfl
theorem setQ_setPt (w : Bytes32) : Function.Commute (State.setQ · w) (setPt v) := fun _ => rfl
theorem setPos_setPt (p : Byte) : Function.Commute (State.setPos · p) (setPt v) := fun _ => rfl
theorem count_setPt (c : Counter) : Function.Commute (State.count · c) (setPt v) := fun _ => rfl

/-- No sub-step but `LDPT` reads the point, and none writes it. -/
theorem primEffect_setPt {p : Prim} (h : ∀ r, p ≠ .ldpt r) : Function.Commute (primEffect p) (setPt v) := by
  intro s
  cases p with
  | ldpt rd => exact absurd rfl (h rd)
  | sel pd qd pr ps b =>
    change selEffect pd qd pr ps b (setPt v s) = setPt v (selEffect pd qd pr ps b s)
    rw [selEffect, getPair_setPt, getPair_setPt, (setPair_setPt v _ _).eq, (setPair_setPt v _ _).eq,
      (count_setPt v _).eq, selEffect]
  | stq ra =>
    change stqEffect ra (setPt v s) = setPt v (stqEffect ra s)
    rw [stqEffect, getF_setPt, (setQ_setPt v _).eq, stqEffect]
  | add | sub | mul | sqr | mulc | frz | mov | setc | clamp => rfl

theorem runPrims_setPt {ps : List Prim} (h : ∀ r, .ldpt r ∉ ps) : Function.Commute (runPrims ps) (setPt v) := by
  induction ps with
  | nil => exact fun _ => rfl
  | cons p ps ih =>
    have hhead : ∀ r, p ≠ .ldpt r := fun r => (List.ne_of_not_mem_cons (h r)).symm
    have htail : ∀ r, .ldpt r ∉ ps := fun r => List.not_mem_of_not_mem_cons (h r)
    exact (ih htail).comp_left (primEffect_setPt v hhead)

theorem lstepEffect_setPt : Function.Commute lstepEffect (setPt v) := fun s => by
  have hsteps : Function.Commute (runPrims (lstepPrims (scalarBit s.e s.pos))) (setPt v) :=
    runPrims_setPt v (by simp [lstepPrims])
  exact (((count_setPt v .lstep).comp_left (setPos_setPt v (s.pos - 1))).comp_left hsteps).eq s

theorem linitEffect_setPt : Function.Commute linitEffect (setPt v) :=
  (setPos_setPt v 254).comp_left (runPrims_setPt v (by simp [linitPrims]))

theorem ladderEffect_setPt : Function.Commute ladderEffect (setPt v) := fun s => by
  rw [ladderEffect, (linitEffect_setPt v).eq, ((lstepEffect_setPt v).iterate_left _).eq,
    (runPrims_setPt v (by simp [ladderEndPrims])).eq, ladderEffect]

theorem ldpt_notMem_sqrPairs (n : Nat) (x y r : FReg) : .ldpt r ∉ sqrPairs n x y := by
  induction n with
  | zero => simp [sqrPairs]
  | succ n ih => simpa [sqrPairs] using ih

theorem recipEffect_setPt (rd ra : FReg) : Function.Commute (recipEffect rd ra) (setPt v) :=
  runPrims_setPt v fun r => by
    simp [recipPrims, recipTo5, recipTo10, recipTo20, recipTo40, recipTo50, recipTo100, recipTo200, recipTo250, recipEnd,
      ldpt_notMem_sqrPairs]

theorem scalarMultEnd_setPt : Function.Commute scalarMultEnd (setPt v) :=
  (runPrims_setPt v (by simp)).comp_left (recipEffect_setPt v rWZ rWZ)

/-- `SMULTB` neither reads nor writes the point (R205). -/
theorem smultbEffect_setPt : Function.Commute smultbEffect (setPt v) :=
  (scalarMultEnd_setPt v).comp_left ((ladderEffect_setPt v).comp_left (runPrims_setPt v (by simp)))

end

/-! ## SMULTB (R205) -/

theorem execAll_cons {i : Instr} {is : List Instr} {s t : State} (h : exec i s = .next t) :
    execAll (i :: is) s = execAll is t := by
  rw [execAll, h]

/-- The listing of `SMULT` and `SMULTB` with the command of their second line left open (R204, R205). -/
theorem execAll_scalarMult {i : Instr} {p : Prim} (h : ∀ s, exec i s = .next (primEffect p s)) (s : State) :
    execAll [.clamp, i, .ladder, .recip 1 1, .mul 2 0 1, .frz 2, .stq 2] s =
      .next (scalarMultEnd (ladderEffect (runPrims [.clamp, p] s))) := by
  have hclamp : exec .clamp s = .next (clampEffect s) := rfl
  have hladder (t : State) : exec .ladder t = .next (ladderEffect t) := rfl
  have hrecip (t : State) : exec (.recip 1 1) t = .next (recipEffect rWZ rWZ t) := rfl
  rw [execAll_cons hclamp, execAll_cons (h _), execAll_cons (hladder _), execAll_cons (hrecip _)]
  rfl

theorem exec_smult (s : State) : exec .smult s = .next (smultEffect s) := rfl

theorem exec_smultb (s : State) : exec .smultb s = .next (smultbEffect s) := rfl

/-- The base point's bytes: 9 and then zeros (R205). -/
def basePointBytes : Bytes32 := (Vector.replicate 32 0).set 0 9

theorem feOfBytes_basePointBytes : feOfBytes basePointBytes = immFe Config.baseX := by
  decide

/-- Over the base point `LDPT` loads what `SETC` sets, and from there on the point is not read (R205). -/
theorem smultEffect_basePoint (s : State) : smultEffect (setPt basePointBytes s) = setPt basePointBytes (smultbEffect s) := by
  have hload : runPrims [.clamp, .ldpt rWX] (setPt basePointBytes s) =
      setPt basePointBytes (runPrims [.clamp, .setc rWX Config.baseX] s) :=
    congrArg (fun a => ((setPt basePointBytes s).setE (clampScalar s.n)).setF rWX a) feOfBytes_basePointBytes
  rw [smultEffect, hload, (ladderEffect_setPt _).eq, (scalarMultEnd_setPt _).eq, smultbEffect]

/-- Settles O39: `SMULT` over the base point is `SMULTB` but for the point register, which `SMULTB` carries along. -/
theorem baseMultIsScalarMultOfNine : Obligations.BaseMultIsScalarMultOfNine := by
  unfold Obligations.BaseMultIsScalarMultOfNine
  intro s
  have hkept : smultbEffect s = setPt s.pt (setPt basePointBytes (smultbEffect s)) := by
    rw [setPt_setPt, ← (smultbEffect_setPt s.pt).eq, setPt_self]
  refine ⟨smultbEffect s, setPt basePointBytes (smultbEffect s), exec_smultb s, execAll_scalarMult (fun _ => rfl) s, ?_, hkept,
    fun p => ?_⟩
  · exact (exec_smult _).trans (congrArg Host.Outcome.next (smultEffect_basePoint s))
  · exact (exec_smultb _).trans (congrArg Host.Outcome.next ((smultbEffect_setPt p).eq s))

end Sys2Proof.Proofs.ScalarMult
end

section
/-! PROOFS of the statements about the register moves MOV and SETC and the control commands NOP, WIPE and CLRCNT
(spec/45_move_control.md R220, R221, R224 to R226). A command whose effect is one register write has its frame from that write; the
value of an immediate is its only limb that is not zero; NOP runs through acceptance and the core's turn as any command does. -/

open Sys2Proof Sys2Proof.Machine Sys2Proof.Proofs.Encoding Sys2Proof.Proofs.FieldArith Sys2Proof.Proofs.ScalarMult

namespace Sys2Proof.Proofs.MoveControl

/-! ## MOV (R220) -/

theorem setF_getF_self (s : State) (r : FReg) : s.setF r (s.getF r) = s := by
  rw [State.setF, State.getF_eq, Fin.getElem_fin, Vector.set_getElem_self]

/-- Settles O20: `MOV` writes what its source holds, which changes nothing when that is the destination. -/
theorem movResult : Obligations.MovResult := by
  unfold Obligations.MovResult
  refine ⟨fun rd ra s => ⟨movEffect rd ra s, rfl, State.getF_setF_self s rd _, ?_, regsKept_setF rd _ s, rfl⟩,
    decode_encode (.mov 0 4)⟩
  rintro rfl
  exact setF_getF_self s rd

/-! ## SETC (R221) -/

theorem limb_immFe (imm : Byte) (j : Nat) (hj : j < 32) : limb (immFe imm) j = if j = 0 then zext32 imm else 0 := by
  rw [immFe, limb_ofFn _ j hj]
  simp only [Fin.mk_eq_zero]

theorem zext32_toNat (b : Byte) : (zext32 b).toNat = b.toNat := BitVec.toNat_setWidth_of_le (by decide)

/-- Limb 0 alone is not zero, and its weight is 1. -/
theorem value_immFe (imm : Byte) : value (immFe imm) = imm.toNat := by
  have hzero (j : Fin 32) (hj : j ≠ 0) : 256 ^ j.val * (if j = 0 then zext32 imm else 0).toNat = 0 := by simp [hj]
  rw [immFe, value_ofFn, Fintype.sum_eq_single 0 hzero, if_pos rfl, zext32_toNat, Fin.val_zero, pow_zero, one_mul]

theorem byteForm_immFe (imm : Byte) : ByteForm (immFe imm) :=
  limbsAtMost_ofFn fun j => by
    split
    · rw [zext32_toNat]
      exact Nat.le_of_lt_succ imm.isLt
    · exact Nat.zero_le _

/-- A byte is less than `P`. -/
theorem canonical_immFe (imm : Byte) : Canonical (immFe imm) := by
  refine ⟨byteForm_immFe imm, ?_⟩
  rw [value_immFe]
  exact imm.isLt.trans (by decide)

/-- Settles O21: the destination holds the immediate as a register, whose value and form are known. -/
theorem setcResult : Obligations.SetcResult := by
  unfold Obligations.SetcResult
  refine ⟨fun rd imm s => ?_, decode_encode (.setc 0 9)⟩
  have hdest : (setcEffect rd imm s).f[rd] = immFe imm := State.getF_setF_self s rd _
  refine ⟨setcEffect rd imm s, rfl, ?low, fun j h1 h31 => ?zeros, ?value, ?canonical, regsKept_setF rd _ s, rfl⟩
  all_goals rw [hdest]
  case low => exact limb_immFe imm 0 (by decide)
  case zeros => rw [limb_immFe imm j (by omega), if_neg (by omega)]
  case value => exact value_immFe imm
  case canonical => exact canonical_immFe imm

/-! ## NOP (R224) -/

/-- The core's turn on a latched command whose data effect is known (20_memory.md R68). -/
theorem step_coreTurn_of_exec {i : Instr} {s t : State} (hbusy : s.busy = true) (hlatched : decode s.cmdr = .instr i)
    (hexec : exec i s = .next t) : step { s with inputs := .coreTurn :: s.inputs } = .next t.complete := by
  have hturn : step { s with inputs := .coreTurn :: s.inputs } = coreStep s := rfl
  rw [hturn, coreStep, if_pos hbusy, hlatched]
  exact congrArg finishCommand hexec

/-- Settles O24: no restriction names `NOP`, and its core step is the completion alone. -/
theorem nopRuns : Obligations.NopRuns := by
  unfold Obligations.NopRuns
  have hexec (s : State) : exec .nop s = .next s := rfl
  have hdecode : decode 0x01000000 = .instr .nop := decode_encode .nop
  refine ⟨hexec, fun s idle clear => ⟨?accepted, ?completes⟩⟩
  case accepted => exact hostWrites_accepted idle clear hdecode (offerError_eq_none nofun nofun nofun)
  case completes => exact step_coreTurn_of_exec (s := s.accept 0x01000000) rfl hdecode (hexec _)

/-! ## WIPE and CLRCNT (R225, R226) -/

/-- Settles O25: the registers are written with zeros, each limb and byte of which is zero. -/
theorem wipeResult : Obligations.WipeResult := by
  unfold Obligations.WipeResult
  intro s
  refine ⟨s.wipe, rfl, fun r j => ?limbs, fun i => ?bytes, State.wipe_pos s, rfl, by decide⟩
  case limbs => simp
  case bytes => simp

/-- Settles O26: the counters are written with zeros, and nothing else is written. -/
theorem clearCountersResult : Obligations.ClearCountersResult := by
  unfold Obligations.ClearCountersResult
  exact fun s => ⟨s.clearCounters, rfl, fun k => by simp, rfl⟩

end Sys2Proof.Proofs.MoveControl
end

section
/-! PROOFS of the statements about the exceptions (spec/60_exceptions.md): the offer of a command and its completion (R244), the
first error kept (R246), no error from the core step (R241) and the interrupt level (R250). The completion rests on one fact: the
data effect of an accepted command is the same function of the data registers whatever the control registers hold
(`exec_withControl`), so acceptance, which writes control registers alone, commutes with it. -/

open Sys2Proof Sys2Proof.Machine Sys2Proof.Proofs.StateRules Sys2Proof.Proofs.HostAccess Sys2Proof.Proofs.Encoding
  Sys2Proof.Proofs.MoveControl

namespace Sys2Proof.Proofs.Exceptions

/-! ## Data effects under other control registers (20_memory.md R68) -/

/-- The registers a data effect works on from `s`, every other register from `c`. -/
def withControl (c s : State) : State := { c with f := s.f, n := s.n, e := s.e, pt := s.pt, q := s.q, pos := s.pos, cnt := s.cnt }

/-- Acceptance writes control registers alone (60_exceptions.md R244). -/
theorem withControl_accept (s : State) (w : Word) : withControl (s.accept w) s = s.accept w := rfl

section
variable (c : State)

theorem e_withControl (s : State) : (withControl c s).e = s.e := rfl
theorem pos_withControl (s : State) : (withControl c s).pos = s.pos := rfl
theorem getF_withControl (s : State) (r : FReg) : (withControl c s).getF r = s.getF r := rfl
theorem getPair_withControl (s : State) (k : PReg) : (withControl c s).getPair k = s.getPair k := rfl
theorem setPair_withControl (k : PReg) (v : Pair) : Function.Commute (State.setPair · k v) (withControl c) := fun _ => rfl
theorem setQ_withControl (v : Bytes32) : Function.Commute (State.setQ · v) (withControl c) := fun _ => rfl
theorem setPos_withControl (p : Byte) : Function.Commute (State.setPos · p) (withControl c) := fun _ => rfl
theorem count_withControl (k : Counter) : Function.Commute (State.count · k) (withControl c) := fun _ => rfl

/-- No sub-step reads or writes a control register. -/
theorem primEffect_withControl (p : Prim) : Function.Commute (primEffect p) (withControl c) := by
  intro s
  cases p with
  | sel pd qd pr ps b =>
    change selEffect pd qd pr ps b (withControl c s) = withControl c (selEffect pd qd pr ps b s)
    rw [selEffect, getPair_withControl, getPair_withControl, (setPair_withControl c _ _).eq, (setPair_withControl c _ _).eq,
      (count_withControl c _).eq, selEffect]
  | stq ra =>
    change stqEffect ra (withControl c s) = withControl c (stqEffect ra s)
    rw [stqEffect, getF_withControl, (setQ_withControl c _).eq, stqEffect]
  | add | sub | mul | sqr | mulc | frz | mov | setc | ldpt | clamp => rfl

theorem runPrims_withControl (ps : List Prim) : Function.Commute (runPrims ps) (withControl c) := by
  induction ps with
  | nil => exact fun _ => rfl
  | cons p ps ih => exact ih.comp_left (primEffect_withControl c p)

theorem lstepEffect_withControl : Function.Commute lstepEffect (withControl c) := fun s => by
  rw [lstepEffect, e_withControl, pos_withControl, (runPrims_withControl c _).eq, (setPos_withControl c _).eq,
    (count_withControl c _).eq, lstepEffect]

theorem linitEffect_withControl : Function.Commute linitEffect (withControl c) :=
  (setPos_withControl c 254).comp_left (runPrims_withControl c linitPrims)

theorem ladderEffect_withControl : Function.Commute ladderEffect (withControl c) := fun s => by
  rw [ladderEffect, (linitEffect_withControl c).eq, ((lstepEffect_withControl c).iterate_left _).eq,
    (runPrims_withControl c _).eq, ladderEffect]

/-- `SMULT` and `SMULTB` are a list of sub-steps, the ladder, and the end they share (44_scalarmult.md R204, R205). -/
theorem scalarMult_withControl (ps : List Prim) :
    Function.Commute (fun s => scalarMultEnd (ladderEffect (runPrims ps s))) (withControl c) :=
  ((runPrims_withControl c _).comp_left (runPrims_withControl c _)).comp_left
    ((ladderEffect_withControl c).comp_left (runPrims_withControl c ps))

end

/-- The data effect of a command that R244 accepts is the same whatever the control registers hold. -/
theorem exec_withControl {i : Instr} {s t : State} (c : State) (hacc : offerError i s.pos = none) (h : exec i s = .next t) :
    exec i (withControl c s) = .next (withControl c t) := by
  have lift {effect : State → State} (hc : Function.Commute effect (withControl c))
      (hexec : ∀ u : State, u.pos = s.pos → exec i u = .next (effect u)) :
      exec i (withControl c s) = .next (withControl c t) := by
    rw [hexec (withControl c s) rfl, hc.eq, Host.Outcome.next.inj ((hexec s rfl).symm.trans h)]
  cases i with
  | nop | wipe | clrcnt | add | sub | mul | sqr | mulc | sqz | frz | mov | setc | ldpt | clamp =>
    obtain rfl := Host.Outcome.next.inj h
    rfl
  | stq ra => exact lift (primEffect_withControl c (.stq ra)) fun _ _ => rfl
  | sel pd qd pr ps b =>
    have hne : pd ≠ qd := by
      rintro rfl
      simp [offerError_sel_same] at hacc
    exact lift (primEffect_withControl c (.sel pd qd pr ps b)) fun _ _ => if_neg hne
  | recip rd ra =>
    have hlegal : ¬ (inRecipScratch rd || inRecipScratch ra) = true := by
      intro hscratch
      rw [Bool.or_eq_true, inRecipScratch_iff, inRecipScratch_iff] at hscratch
      simp [offerError_recip_scratch hscratch] at hacc
    exact lift (runPrims_withControl c (recipPrims rd ra)) fun _ _ => if_neg hlegal
  | lstep =>
    have hpos : s.pos ≠ 255 := by
      intro hpos
      simp [offerError, hpos, wellFormed] at hacc
    exact lift (lstepEffect_withControl c) fun u hu => if_neg (hu ▸ hpos)
  | linit => exact lift (linitEffect_withControl c) fun _ _ => rfl
  | ladder => exact lift (ladderEffect_withControl c) fun _ _ => rfl
  | smult => exact lift (scalarMult_withControl c _) fun _ _ => rfl
  | smultb => exact lift (scalarMult_withControl c _) fun _ _ => rfl

/-! ## Offering and completing a command (R244) -/

theorem hostWrites_unique {s t u : State} {off v : Word} (ht : HostWrites s off v t) (hu : HostWrites s off v u) : t = u :=
  Host.Outcome.next.inj (ht.symm.trans hu)

/-- The data effect of an accepted command from the state after acceptance is the one from the state before. -/
theorem exec_accept {i : Instr} {s t : State} (w : Word) (hacc : offerError i s.pos = none) (h : exec i s = .next t) :
    exec i (s.accept w) = .next (withControl (s.accept w) t) := by
  rw [← exec_withControl (s.accept w) hacc h, withControl_accept]

/-- An accepted command completes with its data effect, its word latched, `BUSY` = 0 and `DONE` = 1 (20_memory.md R68). -/
theorem coreTurn_of_accept {i : Instr} {s : State} {w : Word} (hd : decode w = .instr i) (hacc : offerError i s.pos = none) :
    ∃ t, exec i s = .next t ∧
      step { s with cmdr := w, busy := true, done := false, inputs := .coreTurn :: s.inputs } =
        .next { t with cmdr := w, busy := false, done := true } := by
  obtain ⟨t, hexec, hk⟩ := exec_next i s hacc
  refine ⟨t, hexec, (step_coreTurn_of_exec (s := s.accept w) rfl hd (exec_accept w hacc hexec)).trans ?_⟩
  simp only [State.complete, withControl, State.accept, hk.err, hk.errInfo, hk.ctrl, hk.inputs, hk.replies]

theorem hostWrites_cmd_busy {s : State} (w : Word) (busy : s.busy = true) : HostWrites s 0x000 w (s.raise .busy 0x000) :=
  hostWrites_of_accessError w (busy ▸ accessError_eq_busy slotAt_cmd rfl rfl)

theorem hostWrites_cmd_dropped {s : State} (w : Word) (idle : s.busy = false) (herr : s.err ≠ .none) :
    HostWrites s 0x000 w s := by
  have hoffer : offer w s = s := by simp [offer, idle, herr]
  simpa only [hoffer] using hostWrites_cmd (w := w) idle

/-- Settles O6: an offer is refused in the order of `offerError`, and an accepted command's effect commutes with its acceptance. -/
theorem offerOutcome : Obligations.OfferOutcome := by
  unfold Obligations.OfferOutcome
  refine fun s w => ⟨hostWrites_cmd_busy w, hostWrites_cmd_dropped w, fun idle clear => ?_⟩
  have refused {i : Instr} {c : ErrCode} (hd : decode w = .instr i) (hc : offerError i s.pos = some c) :
      HostWrites s 0x000 w (s.raise c w) :=
    (State.raise_of_none s c w clear).symm ▸ hostWrites_refused idle clear hd hc
  refine ⟨fun hrow => ?illegal, fun pd qd pr ps b hd hsame => ?sel, fun rd ra hd hscratch => ?recip, fun hd hpos => ?lstep,
    fun i hd hsel hrecip hlstep => ?accepted⟩
  case illegal => exact (State.raise_of_none s .illCmd w clear).symm ▸ hostWrites_illegal idle clear (decode_ne_instr hrow)
  case sel =>
    subst hsame
    exact refused hd (offerError_sel_same _ _ _ _ _)
  case recip => exact refused hd (offerError_recip_scratch hscratch s.pos)
  case lstep => exact refused hd (by simp [offerError, wellFormed, hpos])
  case accepted =>
    have hacc := offerError_eq_none hsel hrecip hlstep
    exact ⟨hostWrites_accepted idle clear hd hacc, coreTurn_of_accept hd hacc⟩

/-! ## Errors recorded (R241, R246) -/

/-- Settles O49: of the ways a step treats a recorded error, only acknowledging it and reset clear it, with its information. -/
theorem firstErrorKept : Obligations.FirstErrorKept := by
  unfold Obligations.FirstErrorKept
  refine ⟨fun s c info => ⟨State.raise_of_none s c info, State.raise_of_ne_none s c info⟩, fun s t h herr => ?_⟩
  cases step_handshake h with
  | keeps k => exact .inl ⟨k.err herr, k.errInfo herr⟩
  | completes _ _ _ _ _ err => exact .inl (err herr)
  | accepts _ _ _ _ clear => exact absurd clear herr
  | acknowledges v rest asked eq =>
    subst eq
    by_cases hv : v.getLsbD 1 = true
    · exact .inr ⟨if_pos hv, if_pos hv, .inr ⟨v, rest, asked, hv⟩⟩
    · exact .inl ⟨if_neg hv, if_neg hv⟩
  | resets rest asked eq =>
    subst eq
    exact .inr ⟨rfl, rfl, .inl ⟨rest, asked⟩⟩

/-- Settles O58: the command a consistent state has latched is one that R244 accepts, and its effect keeps the error registers. -/
theorem coreStepRaisesNothing : Obligations.CoreStepRaisesNothing := by
  unfold Obligations.CoreStepRaisesNothing
  intro s t hs h
  obtain ⟨-, rfl⟩ | ⟨busy, i, u, hd, hu, rfl⟩ := coreStep_cases s t h
  · exact ⟨rfl, rfl⟩
  · obtain ⟨j, hj, hacc⟩ := hs.busyLatched busy
    obtain rfl := Decoded.instr.inj (hj.symm.trans hd)
    obtain ⟨v, hv, hk⟩ := exec_next j s hacc
    obtain rfl := Host.Outcome.next.inj (hv.symm.trans hu)
    exact ⟨hk.err, hk.errInfo⟩

/-! ## The interrupt level (R250) -/

theorem irq_iff (s : State) :
    irq s = true ↔ (s.done = true ∧ s.ctrl.getLsbD 0 = true) ∨ (s.err ≠ .none ∧ s.ctrl.getLsbD 1 = true) := by
  simp only [irq, doneIe, errIe, Bool.or_eq_true, Bool.and_eq_true, bne_iff_ne]

/-- Without a source there is no interrupt, whatever is enabled. -/
theorem irq_of_no_source {s : State} (hdone : s.done = false) (herr : s.err = .none) : irq s = false := by
  simp [irq, hdone, herr]

/-- Settles O52: the two sources and their enables decide the level; `CTRL` holds the enables, `ACK` and acceptance clear sources. -/
theorem interruptLevel : Obligations.InterruptLevel := by
  unfold Obligations.InterruptLevel
  refine ⟨irq_iff, irq_of_no_source rfl rfl, fun s t v h => ?ctrl, fun s t v h hdone herr => ?ack,
    fun s t w h idle busy => ?accepted⟩
  case ctrl =>
    obtain rfl := hostWrites_unique h (hostWrites_slot v slotAt_ctrl rfl fun _ => rfl)
    refine ⟨?_, rfl, rfl⟩
    rw [irq_iff]
    simp [writeSlot]
  case ack =>
    obtain rfl := hostWrites_unique h (hostWrites_ack s v)
    exact irq_of_no_source (if_pos hdone) (if_pos herr)
  case accepted =>
    obtain rfl := hostWrites_iff.mp h
    obtain k | ⟨-, -, clear, hw⟩ | ⟨hoff, -⟩ := hostWrite_handshake 0x000 w s
    · exact nomatch busy.symm.trans (k.busy.trans idle)
    · rw [hw]
      exact irq_of_no_source rfl clear
    · simp at hoff

end Sys2Proof.Proofs.Exceptions
end

section
/-! PROOFS of the statement about reset (spec/70_reset_and_hazards.md R281). What the reset step answers is said apart from what the
answer holds: of the state before it keeps the model's own lists alone (notes/assumptions/4.md). -/

open Sys2Proof Sys2Proof.Machine

namespace Sys2Proof.Proofs.Reset

/-- Reset is enabled in every state: no other register is looked at (R281). -/
theorem step_of_inputs_reset {s : State} {rest : List Input} (asked : s.inputs = .reset :: rest) :
    step s = .next ({ s with inputs := rest } : State).applyReset := by
  simp only [step, asked]

/-- The state that reset leaves differs from `State.reset` in the model's own lists alone (R280). -/
theorem applyReset_without_lists (s : State) : { s.applyReset with inputs := [], replies := [] } = State.reset := by
  rw [State.applyReset_eq]
  rfl

/-- Settles O54: the reset step answers `applyReset`, which takes nothing but the two lists from the state before. -/
theorem resetAtAnyTime : Obligations.ResetAtAnyTime := by
  unfold Obligations.ResetAtAnyTime
  intro s rest asked
  exact ⟨_, step_of_inputs_reset asked, applyReset_without_lists _⟩

end Sys2Proof.Proofs.Reset
end

section
/-! PROOFS of the statements about the round trip between words and commands (spec/30_encoding.md R98 to R100). Encoding after
decoding rests on one fact: where the zero field of a row's format is clear, the operands the word gives, put back at their places,
are its low 24 bits. -/

open Sys2Proof Sys2Proof.Machine Sys2Proof.Laws Sys2Proof.Proofs.Encoding

namespace Sys2Proof.Proofs.RoundTrip

/-- A word that decodes to a command has that command's opcode on top and a clear zero field, and is read field by field. -/
theorem decode_eq_instr {w : Word} {i : Instr} (h : decode w = .instr i) :
    slice 24 8 w = (opcode i).code ∧ zeroFieldsClear w (opcode i).format = true ∧ i = assemble (opcode i) w := by
  cases hrow : opcodeOf (slice 24 8 w) with
  | none => simp [decode, hrow] at h
  | some o =>
    by_cases hclear : zeroFieldsClear w o.format = true
    · obtain rfl : assemble o w = i := by simpa [decode, hrow, hclear] using h
      rw [opcode_assemble]
      exact ⟨opcodeOf_eq_some_iff.mp hrow, hclear, rfl⟩
    · simp [decode, hrow, hclear] at h

/-- The zero field of a format as a number: what `OperandsFit.zeroFields` asks of the low 24 bits. -/
theorem zeroFields_of_clear {w : Word} {f : Format} (h : zeroFieldsClear w f = true) :
    OperandsFit.zeroFields (w.toNat % 2 ^ 24) f := by
  cases f
  all_goals
    rw [zeroFieldsClear, beq_iff_eq, ← BitVec.toNat_inj, toNat_slice] at h
    simp only [BitVec.ofNat_eq_ofNat, BitVec.toNat_ofNat] at h
    simp only [OperandsFit.zeroFields]
    omega

/-- The select bit of a word as a number. -/
theorem toNat_selectBit (w : Word) : (slice 0 1 w == 1).toNat = w.toNat % 2 := by
  have hbit : (slice 0 1 w).toNat = w.toNat % 2 := by rw [toNat_slice]; omega
  rw [← hbit]
  generalize slice 0 1 w = b
  revert b
  decide

/-- The operand fields of a word, put back at their places, are its low 24 bits (30_encoding.md R91 to R96). -/
theorem operandBits_assemble {o : Opcode} {w : Word} (h : zeroFieldsClear w o.format = true) :
    operandBits (assemble o w) = w.toNat % 2 ^ 24 := by
  have hzero := zeroFields_of_clear h
  cases o
  case sel =>
    simp only [Opcode.format, OperandsFit.zeroFields] at hzero
    simp only [assemble, operandBits, val_pregAt, toNat_selectBit]
    omega
  all_goals
    simp only [Opcode.format, OperandsFit.zeroFields] at hzero
    simp only [assemble, operandBits, val_fregAt, toNat_slice]
    omega

/-- Encoding inverts decoding: opcode and operands are the two parts of the word. -/
theorem encode_of_decode {w : Word} {i : Instr} (h : decode w = .instr i) : encode i = w := by
  obtain ⟨hcode, hclear, hi⟩ := decode_eq_instr h
  obtain ⟨hword, -, -⟩ := operandsFit i
  have hlow : operandBits i = w.toNat % 2 ^ 24 := by
    have hbits := operandBits_assemble hclear
    rwa [← hi] at hbits
  have hhigh : (opcode i).code.toNat = w.toNat / 2 ^ 24 % 2 ^ 8 := by rw [← hcode, toNat_slice]
  have hlt := w.isLt
  apply BitVec.eq_of_toNat_eq
  rw [hword, hlow, hhigh]
  omega

/-! ## The statements -/

/-- Settles O2: the operands of every command fit their fields, so the row of its opcode reads them back. -/
theorem decodeOfEncode : Obligations.DecodeOfEncode := by
  unfold Obligations.DecodeOfEncode
  exact decode_encode

/-- Settles O3: a word that decodes is its command's opcode above its command's operands. -/
theorem encodeOfDecode : Obligations.EncodeOfDecode := by
  unfold Obligations.EncodeOfDecode
  exact fun w i => encode_of_decode

end Sys2Proof.Proofs.RoundTrip
end

section
/-! What the data effects of all 22 commands do to the registers (spec/00_scope.md R9, spec/10_state.md R24 to R31, R46), said once
for the statements that follow: `exec` is the data effect of an accepted command or the error of a refused one, and of that effect
`POS`, `N`, `PT`, `E`, `Q` and the counters are known. -/

open Sys2Proof Sys2Proof.Machine Sys2Proof.Proofs.Encoding

namespace Sys2Proof.Proofs.DataEffects

/-! ## The data effect of a command -/

/-- The data effect of a command that R244 accepts. -/
def dataEffect : Instr → State → State
  | .nop => id
  | .wipe => State.wipe
  | .clrcnt => State.clearCounters
  | .add rd ra rb => primEffect (.add rd ra rb)
  | .sub rd ra rb => primEffect (.sub rd ra rb)
  | .mul rd ra rb => primEffect (.mul rd ra rb)
  | .sqr rd ra => primEffect (.sqr rd ra)
  | .mulc rd ra => primEffect (.mulc rd ra)
  | .sqz rd => sqzEffect rd
  | .frz rd => primEffect (.frz rd)
  | .mov rd ra => primEffect (.mov rd ra)
  | .setc rd imm => primEffect (.setc rd imm)
  | .ldpt rd => primEffect (.ldpt rd)
  | .stq ra => primEffect (.stq ra)
  | .sel pd qd pr ps b => primEffect (.sel pd qd pr ps b)
  | .clamp => primEffect .clamp
  | .linit => linitEffect
  | .lstep => lstepEffect
  | .ladder => ladderEffect
  | .recip rd ra => recipEffect rd ra
  | .smult => smultEffect
  | .smultb => smultbEffect

theorem offerError_lstep (pos : Byte) : offerError .lstep pos = if pos = 255 then some .ladder else none := by
  by_cases h : pos = 255 <;> simp [offerError, wellFormed, h]

/-- Whether a command is refused depends on the position only through whether a step is pending (60_exceptions.md R244). -/
theorem offerError_congr (i : Instr) {p q : Byte} (h : p = 255 ↔ q = 255) : offerError i p = offerError i q := by
  simp only [offerError, h]

theorem ne_last_of_accepted {pos : Byte} (h : offerError .lstep pos = none) : pos ≠ 255 := by
  rintro rfl
  simp [offerError_lstep] at h

/-- An accepted command executes its data effect. -/
theorem exec_of_accepted {i : Instr} {s : State} (h : offerError i s.pos = none) : exec i s = .next (dataEffect i s) := by
  cases i with
  | sel pd qd pr ps b =>
    have hne : pd ≠ qd := by
      rintro rfl
      simp [offerError_sel_same] at h
    exact if_neg hne
  | recip rd ra =>
    have hlegal : ¬ (inRecipScratch rd || inRecipScratch ra) = true := by
      intro hscratch
      rw [Bool.or_eq_true, inRecipScratch_iff, inRecipScratch_iff] at hscratch
      simp [offerError_recip_scratch hscratch] at h
    exact if_neg hlegal
  | lstep => exact if_neg (ne_last_of_accepted h)
  | nop | wipe | clrcnt | add | sub | mul | sqr | mulc | sqz | frz | mov | setc | ldpt | stq | clamp | linit | ladder | smult
  | smultb => rfl

/-- What `exec` answers: the error of a refused command or the data effect of an accepted one. -/
theorem exec_cases {i : Instr} {s t : State} (h : exec i s = .next t) :
    (∃ c, offerError i s.pos = some c ∧ t = s.raise c (encode i)) ∨ (offerError i s.pos = none ∧ t = dataEffect i s) := by
  cases hoffer : offerError i s.pos with
  | some c => exact .inl ⟨c, rfl, Host.Outcome.next.inj (h.symm.trans (exec_of_offerError i s c hoffer))⟩
  | none => exact .inr ⟨rfl, Host.Outcome.next.inj (h.symm.trans (exec_of_accepted hoffer))⟩

theorem keepsControl_dataEffect {i : Instr} {s : State} (h : offerError i s.pos = none) : KeepsControl s (dataEffect i s) := by
  obtain ⟨t, hexec, hk⟩ := exec_next i s h
  obtain rfl := Host.Outcome.next.inj (hexec.symm.trans (exec_of_accepted h))
  exact hk

/-! ## The sub-steps and the commands built of them -/

section
variable (s : State)

theorem primEffect_n (p : Prim) : (primEffect p s).n = s.n := runPrims_n [p] s
theorem primEffect_pt (p : Prim) : (primEffect p s).pt = s.pt := runPrims_pt [p] s
theorem primEffect_pos (p : Prim) : (primEffect p s).pos = s.pos := runPrims_pos [p] s

theorem lstepEffect_n : (lstepEffect s).n = s.n := by rw [lstepEffect_frame]
theorem lstepEffect_pt : (lstepEffect s).pt = s.pt := by rw [lstepEffect_frame]
theorem lstepEffect_e : (lstepEffect s).e = s.e := by rw [lstepEffect_frame]
theorem lstepEffect_q : (lstepEffect s).q = s.q := by rw [lstepEffect_frame]
theorem lstepEffect_pos : (lstepEffect s).pos = s.pos - 1 := by rw [lstepEffect_frame]

theorem linitEffect_n : (linitEffect s).n = s.n := by rw [linitEffect_frame]
theorem linitEffect_pt : (linitEffect s).pt = s.pt := by rw [linitEffect_frame]
theorem linitEffect_e : (linitEffect s).e = s.e := by rw [linitEffect_frame]
theorem linitEffect_q : (linitEffect s).q = s.q := by rw [linitEffect_frame]
theorem linitEffect_pos : (linitEffect s).pos = 254 := by rw [linitEffect_frame]

theorem ladderEffect_n : (ladderEffect s).n = s.n := by rw [ladderEffect_frame]
theorem ladderEffect_pt : (ladderEffect s).pt = s.pt := by rw [ladderEffect_frame]
theorem ladderEffect_e : (ladderEffect s).e = s.e := by rw [ladderEffect_frame]
theorem ladderEffect_q : (ladderEffect s).q = s.q := by rw [ladderEffect_frame]
theorem ladderEffect_pos : (ladderEffect s).pos = 255 := by rw [ladderEffect_frame]

theorem recipEffect_n (rd ra : FReg) : (recipEffect rd ra s).n = s.n := runPrims_n _ s
theorem recipEffect_pt (rd ra : FReg) : (recipEffect rd ra s).pt = s.pt := runPrims_pt _ s
theorem recipEffect_e (rd ra : FReg) : (recipEffect rd ra s).e = s.e := by rw [recipEffect_frame]
theorem recipEffect_q (rd ra : FReg) : (recipEffect rd ra s).q = s.q := by rw [recipEffect_frame]
theorem recipEffect_pos (rd ra : FReg) : (recipEffect rd ra s).pos = s.pos := runPrims_pos _ s

/-- The end of `SMULT` and `SMULTB` touches `F`, `Q` and `CNT` alone (44_scalarmult.md R204). -/
theorem scalarMultEnd_frame :
    scalarMultEnd s = { s with f := (scalarMultEnd s).f, q := (scalarMultEnd s).q, cnt := (scalarMultEnd s).cnt } := by
  obtain ⟨ps, hps⟩ : ∃ ps, scalarMultEnd s = runPrims ps s := ⟨_, (runPrims_append _ _ s).symm⟩
  have he : (runPrims ps s).e = s.e := by
    rw [← hps, scalarMultEnd, ← recipEffect_e s rWZ rWZ]
    simp [runPrims, primEffect_e]
  rw [hps]
  conv_lhs => rw [runPrims_frame, he]

theorem scalarMultEnd_n : (scalarMultEnd s).n = s.n := by rw [scalarMultEnd_frame]
theorem scalarMultEnd_pt : (scalarMultEnd s).pt = s.pt := by rw [scalarMultEnd_frame]
theorem scalarMultEnd_e : (scalarMultEnd s).e = s.e := by rw [scalarMultEnd_frame]
theorem scalarMultEnd_pos : (scalarMultEnd s).pos = s.pos := by rw [scalarMultEnd_frame]

/-! ## The position (10_state.md R31) -/

/-- What an accepted command leaves in `POS`. -/
theorem dataEffect_pos (i : Instr) :
    (dataEffect i s).pos =
      if i = .linit then 254 else if i = .wipe ∨ i = .ladder ∨ i = .smult ∨ i = .smultb then 255
        else if i = .lstep then s.pos - 1 else s.pos := by
  cases i with
  | nop | clrcnt | sqz => rfl
  | wipe => rfl
  | add | sub | mul | sqr | mulc | frz | mov | setc | ldpt | stq | sel | clamp => simp [dataEffect, primEffect_pos]
  | recip rd ra => simp [dataEffect, recipEffect_pos]
  | linit => simp [dataEffect, linitEffect_pos]
  | lstep => simp [dataEffect, lstepEffect_pos]
  | ladder => simp [dataEffect, ladderEffect_pos]
  | smult => simp [dataEffect, smultEffect, scalarMultEnd_pos, ladderEffect_pos]
  | smultb => simp [dataEffect, smultbEffect, scalarMultEnd_pos, ladderEffect_pos]

/-! ## The byte registers (10_state.md R24 to R27) -/

/-- `N` is written by `WIPE` alone. -/
theorem dataEffect_n (i : Instr) : (dataEffect i s).n = if i = .wipe then .replicate 32 0 else s.n := by
  cases i with
  | nop | clrcnt | sqz => rfl
  | wipe => rfl
  | add | sub | mul | sqr | mulc | frz | mov | setc | ldpt | stq | sel | clamp => simp [dataEffect, primEffect_n]
  | recip rd ra => simp [dataEffect, recipEffect_n]
  | linit => simp [dataEffect, linitEffect_n]
  | lstep => simp [dataEffect, lstepEffect_n]
  | ladder => simp [dataEffect, ladderEffect_n]
  | smult => simp [dataEffect, smultEffect, scalarMultEnd_n, ladderEffect_n]
  | smultb => simp [dataEffect, smultbEffect, scalarMultEnd_n, ladderEffect_n]

/-- `PT` is written by `WIPE` alone. -/
theorem dataEffect_pt (i : Instr) : (dataEffect i s).pt = if i = .wipe then .replicate 32 0 else s.pt := by
  cases i with
  | nop | clrcnt | sqz => rfl
  | wipe => rfl
  | add | sub | mul | sqr | mulc | frz | mov | setc | ldpt | stq | sel | clamp => simp [dataEffect, primEffect_pt]
  | recip rd ra => simp [dataEffect, recipEffect_pt]
  | linit => simp [dataEffect, linitEffect_pt]
  | lstep => simp [dataEffect, lstepEffect_pt]
  | ladder => simp [dataEffect, ladderEffect_pt]
  | smult => simp [dataEffect, smultEffect, scalarMultEnd_pt, ladderEffect_pt]
  | smultb => simp [dataEffect, smultbEffect, scalarMultEnd_pt, ladderEffect_pt]

/-- `SMULT` and `SMULTB` clamp first, and nothing after that writes `E` (44_scalarmult.md R204, R205). -/
theorem scalarMult_e (p : Prim) (hp : p ≠ .clamp) :
    (scalarMultEnd (ladderEffect (runPrims [.clamp, p] s))).e = clampScalar s.n := by
  simp [scalarMultEnd_e, ladderEffect_e, runPrims, primEffect_e, hp]

/-- `E` is written by `WIPE`, and by the three commands that clamp. -/
theorem dataEffect_e (i : Instr) :
    (dataEffect i s).e =
      if i = .wipe then .replicate 32 0 else if i = .clamp ∨ i = .smult ∨ i = .smultb then clampScalar s.n else s.e := by
  cases i with
  | nop | clrcnt | sqz => rfl
  | wipe => rfl
  | add | sub | mul | sqr | mulc | frz | mov | setc | ldpt | stq | sel | clamp => simp [dataEffect, primEffect_e]
  | recip rd ra => simp [dataEffect, recipEffect_e]
  | linit => simp [dataEffect, linitEffect_e]
  | lstep => simp [dataEffect, lstepEffect_e]
  | ladder => simp [dataEffect, ladderEffect_e]
  | smult => exact scalarMult_e s (.ldpt rWX) nofun
  | smultb => exact scalarMult_e s (.setc rWX Config.baseX) nofun

/-- `Q` is written by `WIPE`, `STQ`, `SMULT` and `SMULTB` alone. -/
theorem dataEffect_q {i : Instr} (hwipe : i ≠ .wipe) (hstq : ∀ ra, i ≠ .stq ra) (hsmult : i ≠ .smult) (hsmultb : i ≠ .smultb) :
    (dataEffect i s).q = s.q := by
  cases i with
  | nop | clrcnt | sqz => rfl
  | wipe => exact absurd rfl hwipe
  | stq ra => exact absurd rfl (hstq ra)
  | add | sub | mul | sqr | mulc | frz | mov | setc | ldpt | sel => exact (primEffect_keepsBytes _ s rfl).2
  | clamp => rfl
  | recip rd ra => exact recipEffect_q s rd ra
  | linit => exact linitEffect_q s
  | lstep => exact lstepEffect_q s
  | ladder => exact ladderEffect_q s
  | smult => exact absurd rfl hsmult
  | smultb => exact absurd rfl hsmultb

end

/-! ## The counters (10_state.md R46, 70_reset_and_hazards.md R296) -/

section
variable {s t u : State} {d d' e : List Nat}

theorem countedBy_refl (s : State) : CountedBy [] s s := fun k => by simp

theorem countedBy_trans (hst : CountedBy d s t) (htu : CountedBy d' t u)
    (he : ∀ k : Fin 9, e.getD k.val 0 = d.getD k.val 0 + d'.getD k.val 0) : CountedBy e s u := fun k => by
  rw [htu k, hst k, he k, BitVec.ofNat_add, BitVec.add_assoc]

theorem countedBy_setPos (p : Byte) (h : CountedBy d s t) : CountedBy d s (t.setPos p) := h

/-- One more execution counted. -/
theorem countedBy_count (c : Counter) (hd : ∀ k : Fin 9, d.getD k.val 0 = if k = c.index then 1 else 0) :
    CountedBy d s (s.count c) := fun k => by
  rw [State.cnt_count, hd k]
  split <;> simp

/-- A list of sub-steps moves each counter by its number of places among the counters of the list. -/
theorem countedBy_runPrims (s : State) {ps : List Prim} {cs : List (Option Counter)} (hps : ps.map primCounter = cs)
    (hd : ∀ k : Fin 9, d.getD k.val 0 = cs.countP fun c => c.map Counter.index = some k) : CountedBy d s (runPrims ps s) :=
  fun k => by
    rw [cnt_runPrims, hd k, ← hps, List.countP_map, countPrims]
    rfl

/-- The same effect `n` times over counts `n` times. -/
theorem countedBy_iterate {effect : State → State} (heffect : ∀ s, CountedBy d s (effect s)) (n : Nat)
    (he : ∀ k : Fin 9, e.getD k.val 0 = n * d.getD k.val 0) (s : State) : CountedBy e s (effect^[n] s) := fun k => by
  rw [he k]
  clear he
  induction n generalizing s with
  | zero => simp
  | succ n ih =>
    rw [Function.iterate_succ_apply, ih, heffect s k, BitVec.add_assoc, ← BitVec.ofNat_add, Nat.succ_mul, Nat.add_comm]

end

/-- The counters of `LSTEP`'s sub-steps are the same for both values of the scalar bit. -/
theorem map_primCounter_lstepPrims (b : Bool) : (lstepPrims b).map primCounter = (lstepPrims true).map primCounter := rfl

theorem countedBy_lstepEffect (s : State) : CountedBy [4, 4, 5, 4, 1, 0, 0, 2, 1] s (lstepEffect s) := by
  have hprims : CountedBy [4, 4, 5, 4, 1, 0, 0, 2, 0] s (runPrims (lstepPrims (scalarBit s.e s.pos)) s) :=
    countedBy_runPrims s (map_primCounter_lstepPrims _) (by decide)
  have hstep (t : State) : CountedBy [0, 0, 0, 0, 0, 0, 0, 0, 1] t (t.count .lstep) := countedBy_count .lstep (by decide)
  exact countedBy_trans (countedBy_setPos _ hprims) (hstep _) (by decide)

theorem countedBy_linitEffect (s : State) : CountedBy [] s (linitEffect s) :=
  countedBy_setPos 254 (countedBy_runPrims (ps := linitPrims) s rfl (by decide))

theorem countedBy_ladderEffect (s : State) : CountedBy [1020, 1020, 1275, 1020, 255, 0, 0, 510, 255] s (ladderEffect s) := by
  have hsteps := countedBy_iterate (e := [1020, 1020, 1275, 1020, 255, 0, 0, 510, 255]) countedBy_lstepEffect Config.nStep
    (by rw [Config.nStep]; decide) (linitEffect s)
  have hend (t : State) : CountedBy [] t (runPrims ladderEndPrims t) := countedBy_runPrims t rfl (by decide)
  rw [ladderEffect]
  exact countedBy_trans (countedBy_trans (countedBy_linitEffect s) hsteps fun k => (Nat.zero_add _).symm) (hend _) fun k => rfl

/-- The counters of `RECIP`'s sub-steps are the same for all its operands. -/
theorem map_primCounter_recipPrims (rd ra : FReg) : (recipPrims rd ra).map primCounter = (recipPrims 0 0).map primCounter := by
  simp only [recipPrims, List.map_append, recipTo5, recipEnd, List.map_cons, primCounter]

theorem countedBy_recipEffect (rd ra : FReg) (s : State) : CountedBy [0, 0, 11, 254, 0, 0, 0, 0, 0] s (recipEffect rd ra s) :=
  countedBy_runPrims s (map_primCounter_recipPrims rd ra) (by decide +kernel)

/-- The counts of `SMULT` and `SMULTB`: the ladder, the inversion, one multiplication and one freeze (44_scalarmult.md R204). -/
theorem countedBy_scalarMult (s : State) {p : Prim} (hp : primCounter p = none) :
    CountedBy [1020, 1020, 1287, 1274, 255, 0, 1, 510, 255] s (scalarMultEnd (ladderEffect (runPrims [.clamp, p] s))) := by
  have hstart : CountedBy [] s (runPrims [.clamp, p] s) :=
    countedBy_runPrims (cs := [none, none]) s (by rw [List.map_cons, List.map_cons, hp]; rfl) (by decide)
  have hend (t : State) : CountedBy [0, 0, 1, 0, 0, 0, 1] t (runPrims [.mul rWQ rWX rWZ, .frz rWQ, .stq rWQ] t) :=
    countedBy_runPrims t rfl (by decide)
  have hladder := countedBy_trans hstart (countedBy_ladderEffect _) fun k => (Nat.zero_add _).symm
  have hrecip := countedBy_trans (e := [1020, 1020, 1286, 1274, 255, 0, 0, 510, 255]) hladder
    (countedBy_recipEffect rWZ rWZ _) (by decide)
  exact countedBy_trans hrecip (hend _) (by decide)

/-- How often each counter is moved by an accepted command other than `CLRCNT`. -/
def commandCounts : Instr → List Nat
  | .add _ _ _ => [1]
  | .sub _ _ _ => [0, 1]
  | .mul _ _ _ => [0, 0, 1]
  | .sqr _ _ => [0, 0, 0, 1]
  | .mulc _ _ => [0, 0, 0, 0, 1]
  | .sqz _ => [0, 0, 0, 0, 0, 1]
  | .frz _ => [0, 0, 0, 0, 0, 0, 1]
  | .sel _ _ _ _ _ => [0, 0, 0, 0, 0, 0, 0, 1]
  | .lstep => [4, 4, 5, 4, 1, 0, 0, 2, 1]
  | .ladder => [1020, 1020, 1275, 1020, 255, 0, 0, 510, 255]
  | .recip _ _ => [0, 0, 11, 254, 0, 0, 0, 0, 0]
  | .smult => [1020, 1020, 1287, 1274, 255, 0, 1, 510, 255]
  | .smultb => [1020, 1020, 1287, 1274, 255, 0, 1, 510, 255]
  | .nop => []
  | .wipe => []
  | .clrcnt => []
  | .mov _ _ => []
  | .setc _ _ => []
  | .ldpt _ => []
  | .stq _ => []
  | .clamp => []
  | .linit => []

theorem countedBy_dataEffect {i : Instr} (hi : i ≠ .clrcnt) (s : State) : CountedBy (commandCounts i) s (dataEffect i s) := by
  have hprim {d : List Nat} (p : Prim)
      (hd : ∀ k : Fin 9, d.getD k.val 0 = [primCounter p].countP fun c => c.map Counter.index = some k) :
      CountedBy d s (primEffect p s) := countedBy_runPrims (ps := [p]) s rfl hd
  cases i with
  | clrcnt => exact absurd rfl hi
  | nop => exact countedBy_refl s
  | wipe => exact countedBy_refl s
  | add | sub | mul | sqr | mulc | frz | sel | mov | setc | ldpt | stq | clamp =>
    exact hprim _ (by simp only [primCounter, commandCounts]; decide)
  | sqz rd => exact countedBy_count (s := s.setF rd _) .sqz (by simp only [commandCounts]; decide)
  | linit => exact countedBy_linitEffect s
  | lstep => exact countedBy_lstepEffect s
  | ladder => exact countedBy_ladderEffect s
  | recip rd ra => exact countedBy_recipEffect rd ra s
  | smult => exact countedBy_scalarMult s rfl
  | smultb => exact countedBy_scalarMult s rfl

end Sys2Proof.Proofs.DataEffects
end

section
/-! PROOFS of the statements about what a step can do to a register (spec/10_state.md R24 to R27, R31, R46), about the core step
(spec/20_memory.md R68), and about the invariants over all steps: consistency, the clamped scalar, and the control state that no
data register reaches (spec/00_scope.md R14). Each follows from the data effect of the command and from the outcomes of a host
access. -/

open Sys2Proof Sys2Proof.Machine Sys2Proof.Proofs.StateRules Sys2Proof.Proofs.HostAccess Sys2Proof.Proofs.Encoding
  Sys2Proof.Proofs.DataEffects

namespace Sys2Proof.Proofs.StepRules

/-! ## The core step (20_memory.md R68) -/

/-- The core's turn on a latched command is its data effect and its completion. -/
theorem coreStep_of_latched {s : State} {i : Instr} (busy : s.busy = true) (hd : decode s.cmdr = .instr i) :
    coreStep s = finishCommand (exec i s) := by
  rw [coreStep, if_pos busy, hd]

theorem coreStep_of_idle {s : State} (idle : s.busy = false) : coreStep s = .next s := by
  simp [coreStep, idle]

theorem step_of_no_input {s : State} (hin : s.inputs = []) : step s = coreStep s := by
  rw [step, hin]

theorem step_of_coreTurn {s : State} {rest : List Input} (hin : s.inputs = .coreTurn :: rest) :
    step s = coreStep { s with inputs := rest } := by
  rw [step, hin]

/-- A consistent state's latched command completes. -/
theorem coreStep_of_consistent {s : State} (hs : Consistent s) (busy : s.busy = true) :
    ∃ i, decode s.cmdr = .instr i ∧ exec i s = .next (dataEffect i s) ∧ coreStep s = .next (dataEffect i s).complete := by
  obtain ⟨i, hd, hacc⟩ := hs.busyLatched busy
  have hexec := exec_of_accepted hacc
  exact ⟨i, hd, hexec, by rw [coreStep_of_latched busy hd, hexec, finishCommand]⟩

theorem ofNat_mod_word (w : Nat) : BitVec.ofNat 32 (w % 2 ^ 32) = BitVec.ofNat 32 w :=
  BitVec.eq_of_toNat_eq (by rw [BitVec.toNat_ofNat, BitVec.toNat_ofNat, Nat.mod_mod])

theorem decode_of_decodeTableWord {w : Nat} {i : Instr} (h : decodeTableWord 32 w = some i) :
    decode (BitVec.ofNat 32 w) = .instr i := by
  rw [decodeTableWord, ofNat_mod_word] at h
  cases hd : decode (BitVec.ofNat 32 w) with
  | instr j => simp [hd] at h; rw [h.2]
  | unusedOpcode c => simp [hd] at h
  | reservedBits o => simp [hd] at h

/-! ## Consistent states -/

/-- An error recorded is not `none`, so `ERRINFO` may be anything with it. -/
theorem consistent_raise {s : State} {c : ErrCode} (info : Word) (hc : c ≠ .none) (hs : Consistent s) :
    Consistent (s.raise c info) where
  busyLatched := hs.busyLatched
  busyNotDone := hs.busyNotDone
  noErrNoInfo herr := by
    by_cases h : s.err = .none
    · simp [h, hc] at herr
    · simp [h] at herr
  cmdrCommand := hs.cmdrCommand

theorem consistent_acknowledge {s : State} (v : Word) (hs : Consistent s) : Consistent (s.acknowledge v) where
  busyLatched := hs.busyLatched
  busyNotDone busy := by simp [hs.busyNotDone busy]
  noErrNoInfo herr := by
    rw [State.acknowledge_err] at herr
    rw [State.acknowledge_errInfo]
    split
    · rfl
    · rename_i hkept
      exact hs.noErrNoInfo ((if_neg hkept).symm.trans herr)
  cmdrCommand := hs.cmdrCommand

theorem wellFormed_of_accepted {i : Instr} {pos : Byte} (h : offerError i pos = none) : wellFormed i = true := by
  cases hwf : wellFormed i with
  | true => rfl
  | false => simp [offerError, hwf] at h

/-- What is accepted is a command with legal operands. -/
theorem consistent_accept {s : State} {w : Word} {i : Instr} (hd : decode w = .instr i) (hacc : offerError i s.pos = none)
    (hs : Consistent s) : Consistent (s.accept w) where
  busyLatched _ := ⟨i, hd, hacc⟩
  busyNotDone _ := rfl
  noErrNoInfo := hs.noErrNoInfo
  cmdrCommand := .inr ⟨i, hd, wellFormed_of_accepted hacc⟩

theorem consistent_applyReset (s : State) : Consistent s.applyReset where
  busyLatched busy := nomatch busy
  busyNotDone _ := rfl
  noErrNoInfo _ := rfl
  cmdrCommand := .inl rfl

theorem consistent_offer {s : State} (w : Word) (hs : Consistent s) : Consistent (offer w s) := by
  obtain ⟨-, ho⟩ | ⟨-, -, ho⟩ | ⟨-, -, -, ho⟩ | ⟨-, -, i, c, -, hc, ho⟩ | ⟨-, -, i, hd, hacc, ho⟩ := offer_cases w s
  · exact ho ▸ consistent_raise 0 nofun hs
  · exact ho.symm ▸ hs
  · exact ho ▸ consistent_raise w nofun hs
  · refine ho ▸ consistent_raise w ?_ hs
    rintro rfl
    simp [offerError, ite_eq_iff] at hc
  · exact ho ▸ consistent_accept hd hacc hs

/-- A write to a slot beside `CMD` and `ACK` touches nothing that consistency speaks of. -/
theorem consistent_writeSlot {s : State} (v : Word) (sl : Slot) (hs : Consistent s) : Consistent (writeSlot v s sl) := by
  cases sl with
  | cmd => exact consistent_offer v hs
  | ack => exact consistent_acknowledge v hs
  | ctrl | n | pt | f => exact ⟨hs.busyLatched, hs.busyNotDone, hs.noErrNoInfo, hs.cmdrCommand⟩
  | status | posr | errInfo | cnt | q | e => exact hs

theorem consistent_hostWrite {s : State} (off v : Word) (hs : Consistent s) : Consistent (hostWrite off v s) := by
  obtain ⟨c, hc, hw⟩ | ⟨sl, -, -, hw⟩ := hostWrite_cases off v s
  · exact hw ▸ consistent_raise off (ne_none_of_accessError hc) hs
  · exact hw ▸ consistent_writeSlot v sl hs

/-- The model's own lists are no part of consistency. -/
theorem consistent_withLists {s : State} (inputs : List Input) (replies : List Word) (hs : Consistent s) :
    Consistent { s with inputs := inputs, replies := replies } :=
  ⟨hs.busyLatched, hs.busyNotDone, hs.noErrNoInfo, hs.cmdrCommand⟩

theorem consistent_hostReadStep {s : State} (off : Word) (hs : Consistent s) : Consistent (hostReadStep off s) := by
  obtain ⟨c, hc, hr⟩ | ⟨sl, -, -, hr⟩ := hostRead_cases off s
  · have hraise := consistent_raise off (ne_none_of_accessError hc) hs
    rw [hostReadStep, hr]
    exact consistent_withLists _ _ hraise
  · rw [hostReadStep, hr]
    exact consistent_withLists _ _ hs

/-- A command that completes leaves the block idle, with its word in `CMDR` and the error record it found. -/
theorem consistent_complete {s u : State} (hk : KeepsControl s u) (hs : Consistent s) : Consistent u.complete where
  busyLatched busy := nomatch busy
  busyNotDone busy := nomatch busy
  noErrNoInfo herr := hk.errInfo.trans (hs.noErrNoInfo (hk.err.symm.trans herr))
  cmdrCommand := hk.cmdr.symm ▸ hs.cmdrCommand

theorem consistent_coreStep {s t : State} (hs : Consistent s) (h : coreStep s = .next t) : Consistent t := by
  obtain ⟨-, rfl⟩ | ⟨busy, -⟩ := coreStep_cases s t h
  · exact hs
  · obtain ⟨i, hd, hacc⟩ := hs.busyLatched busy
    rw [coreStep_of_latched busy hd, exec_of_accepted hacc, finishCommand, Host.Outcome.next.injEq] at h
    exact h ▸ consistent_complete (keepsControl_dataEffect hacc) hs

theorem consistent_step {s t : State} (hs : Consistent s) (h : step s = .next t) : Consistent t := by
  have hrest (rest : List Input) : Consistent { s with inputs := rest } := consistent_withLists rest s.replies hs
  obtain ⟨-, hc⟩ | ⟨rest, -, hc⟩ | ⟨off, rest, -, rfl⟩ | ⟨off, v, rest, -, rfl⟩ | ⟨rest, -, rfl⟩ := step_cases s t h
  · exact consistent_coreStep hs hc
  · exact consistent_coreStep (hrest rest) hc
  · exact consistent_hostReadStep off (hrest rest)
  · exact consistent_hostWrite off v (hrest rest)
  · exact consistent_applyReset _

theorem coreStep_total_of_consistent {s : State} (hs : Consistent s) : ∃ t, coreStep s = .next t := by
  cases hb : s.busy with
  | false => exact ⟨s, coreStep_of_idle hb⟩
  | true =>
    obtain ⟨i, -, -, hc⟩ := coreStep_of_consistent hs hb
    exact ⟨_, hc⟩

theorem step_total_of_consistent {s : State} (hs : Consistent s) : ∃ t, step s = .next t := by
  cases hin : s.inputs with
  | nil => rw [step_of_no_input hin]; exact coreStep_total_of_consistent hs
  | cons a rest =>
    cases a with
    | coreTurn => rw [step_of_coreTurn hin]; exact coreStep_total_of_consistent (consistent_withLists rest s.replies hs)
    | hostRead off => exact ⟨_, by rw [step, hin]⟩
    | hostWrite off v => exact ⟨_, by rw [step, hin]⟩
    | reset => exact ⟨_, by rw [step, hin]⟩

/-! ## What a host access leaves alone -/

/-- The registers that no host access touches: `E`, `Q`, `POS` and the counters (20_memory.md R61, column `W`). -/
structure KeepsResults (s t : State) : Prop where
  e : t.e = s.e
  q : t.q = s.q
  pos : t.pos = s.pos
  cnt : t.cnt = s.cnt

theorem keepsResults_offer (w : Word) (s : State) : KeepsResults s (offer w s) := by
  obtain ⟨-, ho⟩ | ⟨-, -, ho⟩ | ⟨-, -, -, ho⟩ | ⟨-, -, i, c, -, -, ho⟩ | ⟨-, -, i, -, -, ho⟩ := offer_cases w s <;>
    rw [ho] <;> exact ⟨rfl, rfl, rfl, rfl⟩

theorem keepsResults_writeSlot (v : Word) (s : State) (sl : Slot) : KeepsResults s (writeSlot v s sl) := by
  cases sl with
  | cmd => exact keepsResults_offer v s
  | ack | ctrl | n | pt | f | status | posr | errInfo | cnt | q | e => exact ⟨rfl, rfl, rfl, rfl⟩

theorem keepsResults_hostWrite (off v : Word) (s : State) : KeepsResults s (hostWrite off v s) := by
  obtain ⟨c, -, hw⟩ | ⟨sl, -, -, hw⟩ := hostWrite_cases off v s
  · exact hw ▸ ⟨rfl, rfl, rfl, rfl⟩
  · exact hw ▸ keepsResults_writeSlot v s sl

/-- A read touches no data register at all (20_memory.md R66). -/
theorem hostReadStep_data (off : Word) (s : State) :
    (hostReadStep off s).n = s.n ∧ (hostReadStep off s).pt = s.pt ∧ KeepsResults s (hostReadStep off s) := by
  obtain ⟨c, -, hr⟩ | ⟨sl, -, -, hr⟩ := hostRead_cases off s <;>
    rw [hostReadStep, hr] <;> exact ⟨rfl, rfl, rfl, rfl, rfl, rfl⟩

/-- `N` and `PT` change by a write to their own slots alone. -/
theorem writeSlot_points (v : Word) (s : State) (sl : Slot) :
    ((writeSlot v s sl).n = s.n ∨ ∃ i, sl = .n i) ∧ ((writeSlot v s sl).pt = s.pt ∨ ∃ i, sl = .pt i) := by
  cases sl with
  | cmd =>
    have hkept : (offer v s).n = s.n ∧ (offer v s).pt = s.pt := by
      obtain ⟨-, ho⟩ | ⟨-, -, ho⟩ | ⟨-, -, -, ho⟩ | ⟨-, -, i, c, -, -, ho⟩ | ⟨-, -, i, -, -, ho⟩ := offer_cases v s <;>
        rw [ho] <;> exact ⟨rfl, rfl⟩
    exact ⟨.inl hkept.1, .inl hkept.2⟩
  | n i => exact ⟨.inr ⟨i, rfl⟩, .inl rfl⟩
  | pt i => exact ⟨.inl rfl, .inr ⟨i, rfl⟩⟩
  | ack | ctrl | f | status | posr | errInfo | cnt | q | e => exact ⟨.inl rfl, .inl rfl⟩

/-- A write that changes `N` is one to its slots, while not busy (20_memory.md R61, R65). -/
theorem hostWrite_changes_n {off v : Word} {s : State} (h : (hostWrite off v s).n ≠ s.n) :
    s.busy = false ∧ 0x080 ≤ off.toNat ∧ off.toNat < 0x100 := by
  obtain ⟨c, -, hw⟩ | ⟨sl, hsl, hfree, hw⟩ := hostWrite_cases off v s
  · exact absurd (by rw [hw]; rfl) h
  rw [hw] at h
  obtain ⟨i, rfl⟩ := (writeSlot_points v s sl).1.resolve_left h
  obtain ⟨_, hsl', -, hopen⟩ := (accessError_eq_none _ _ _ _).mp hfree
  obtain rfl := Option.some.inj (hsl.symm.trans hsl')
  have hoff := toNat_of_slotAt hsl
  simp only [slotOffset] at hoff
  exact ⟨by simpa [writableWhileBusy] using hopen, by omega, by omega⟩

/-- A write that changes `PT` is one to its slots, while not busy (20_memory.md R61, R65). -/
theorem hostWrite_changes_pt {off v : Word} {s : State} (h : (hostWrite off v s).pt ≠ s.pt) :
    s.busy = false ∧ 0x100 ≤ off.toNat ∧ off.toNat < 0x180 := by
  obtain ⟨c, -, hw⟩ | ⟨sl, hsl, hfree, hw⟩ := hostWrite_cases off v s
  · exact absurd (by rw [hw]; rfl) h
  rw [hw] at h
  obtain ⟨i, rfl⟩ := (writeSlot_points v s sl).2.resolve_left h
  obtain ⟨_, hsl', -, hopen⟩ := (accessError_eq_none _ _ _ _).mp hfree
  obtain rfl := Option.some.inj (hsl.symm.trans hsl')
  have hoff := toNat_of_slotAt hsl
  simp only [slotOffset] at hoff
  exact ⟨by simpa [writableWhileBusy] using hopen, by omega, by omega⟩

/-! ## What a step does to the data registers -/

/-- What one step can do to `N`, `PT`, `E`, `Q`, `POS` and the counters. -/
inductive DataStep (s t : State) : Prop
  /-- The core executes the latched command, refused or accepted (20_memory.md R68, notes/assumptions/6.md). -/
  | runs (i : Instr) (u : State) (core : CoreRuns s i) (exec : exec i { s with inputs := s.inputs.tail } = .next u)
      (eq : t = u.complete)
  /-- The host writes a slot (20_memory.md R64). -/
  | writes (off v : Word) (rest : List Input) (asked : s.inputs = .hostWrite off v :: rest)
      (eq : t = hostWrite off v { s with inputs := rest }) (keeps : KeepsResults s t)
  /-- Nothing: the turn of an idle core, or a read. -/
  | keeps (n : t.n = s.n) (pt : t.pt = s.pt) (keeps : KeepsResults s t)
  /-- Reset (70_reset_and_hazards.md R281). -/
  | resets (next : ResetNext s) (eq : t = ({ s with inputs := s.inputs.tail } : State).applyReset)

theorem step_data {s t : State} (h : step s = .next t) : DataStep s t := by
  obtain ⟨i, u, hr, hx, rfl⟩ | ⟨-, rfl⟩ | ⟨off, rest, -, rfl⟩ | ⟨off, v, rest, hin, rfl⟩ | ⟨hreset, rfl⟩ :=
    step_cases_coreRuns s t h
  · exact .runs i u hr hx rfl
  · exact .keeps rfl rfl ⟨rfl, rfl, rfl, rfl⟩
  · obtain ⟨hn, hpt, hk⟩ := hostReadStep_data off { s with inputs := rest }
    exact .keeps hn hpt ⟨hk.e, hk.q, hk.pos, hk.cnt⟩
  · have hk := keepsResults_hostWrite off v { s with inputs := rest }
    exact .writes off v rest hin rfl ⟨hk.e, hk.q, hk.pos, hk.cnt⟩
  · exact .resets hreset rfl

/-- What `exec` does to the byte registers, refused or accepted (10_state.md R24 to R27). -/
theorem exec_bytes {i : Instr} {s t : State} (h : exec i s = .next t) :
    (t.n = s.n ∨ (t.n = .replicate 32 0 ∧ i = .wipe)) ∧ (t.pt = s.pt ∨ (t.pt = .replicate 32 0 ∧ i = .wipe)) ∧
      (t.e = s.e ∨ (t.e = .replicate 32 0 ∧ i = .wipe) ∨ (t.e = clampScalar s.n ∧ (i = .clamp ∨ i = .smult ∨ i = .smultb))) ∧
      (t.q = s.q ∨ (t.q = .replicate 32 0 ∧ i = .wipe) ∨ (∃ ra, i = .stq ra) ∨ i = .smult ∨ i = .smultb) := by
  obtain ⟨c, -, rfl⟩ | ⟨-, rfl⟩ := exec_cases h
  · exact ⟨.inl rfl, .inl rfl, .inl rfl, .inl rfl⟩
  by_cases hwipe : i = .wipe
  · subst hwipe
    exact ⟨.inr ⟨rfl, rfl⟩, .inr ⟨rfl, rfl⟩, .inr (.inl ⟨rfl, rfl⟩), .inr (.inl ⟨rfl, rfl⟩)⟩
  refine ⟨.inl (by rw [dataEffect_n, if_neg hwipe]), .inl (by rw [dataEffect_pt, if_neg hwipe]), ?e, ?q⟩
  case e =>
    rw [dataEffect_e, if_neg hwipe]
    split
    · rename_i hclamps
      exact .inr (.inr ⟨rfl, hclamps⟩)
    · exact .inl rfl
  case q =>
    by_cases hwrites : (∃ ra, i = .stq ra) ∨ i = .smult ∨ i = .smultb
    · exact .inr (.inr hwrites)
    · rw [not_or, not_or, not_exists] at hwrites
      obtain ⟨hstq, hsmult, hsmultb⟩ := hwrites
      exact .inl (dataEffect_q s hwipe hstq hsmult hsmultb)

/-- What `exec` leaves in `POS`; refused or not, `LSTEP` leaves 255 at 255 (10_state.md R31, notes/assumptions/6.md). -/
theorem exec_pos {i : Instr} {s t : State} (h : exec i s = .next t) :
    t.pos = (if i = .linit then 254 else if i = .wipe ∨ i = .ladder ∨ i = .smult ∨ i = .smultb then 255
      else if i = .lstep then (if s.pos = 255 then 255 else s.pos - 1) else s.pos) := by
  obtain ⟨c, hc, rfl⟩ | ⟨hacc, rfl⟩ := exec_cases h
  · have hrefused : i ≠ .linit ∧ ¬(i = .wipe ∨ i = .ladder ∨ i = .smult ∨ i = .smultb) := by
      refine ⟨?_, ?_⟩
      · rintro rfl
        simp [offerError, wellFormed] at hc
      · rintro (rfl | rfl | rfl | rfl) <;> simp [offerError, wellFormed] at hc
    rw [if_neg hrefused.1, if_neg hrefused.2, State.raise_pos]
    split
    · split
      · assumption
      · rename_i hi hpos
        subst hi
        rw [offerError_lstep, if_neg hpos] at hc
        cases hc
    · rfl
  · rw [dataEffect_pos]
    by_cases hi : i = .lstep
    · subst hi
      rw [if_neg (ne_last_of_accepted hacc)]
    · simp [hi]

/-- How often `exec` moves each counter: a refused command counts nothing. -/
def execCounts (i : Instr) (pos : Byte) : List Nat := if offerError i pos = none then commandCounts i else []

theorem execCounts_congr (i : Instr) {p q : Byte} (h : p = 255 ↔ q = 255) : execCounts i p = execCounts i q := by
  rw [execCounts, execCounts, offerError_congr i h]

theorem countedBy_exec {i : Instr} {s t : State} (h : exec i s = .next t) (hi : i ≠ .clrcnt) :
    CountedBy (execCounts i s.pos) s t := by
  obtain ⟨c, hc, rfl⟩ | ⟨hacc, rfl⟩ := exec_cases h
  · rw [execCounts, if_neg (by simp [hc])]
    exact countedBy_refl s
  · rw [execCounts, if_pos hacc]
    exact countedBy_dataEffect hi s

/-! ## States with the same control state (00_scope.md R14) -/

section
variable {s t : State} (h : SameControl s t)
include h

theorem sameControl_withInputs (rest : List Input) : SameControl { s with inputs := rest } { t with inputs := rest } := by
  obtain ⟨hpos, hcmdr, hbusy, hdone, herr, hinfo, hctrl, hcnt, -⟩ := h
  exact ⟨hpos, hcmdr, hbusy, hdone, herr, hinfo, hctrl, hcnt, rfl⟩

theorem sameControl_raise (c : ErrCode) (info : Word) : SameControl (s.raise c info) (t.raise c info) := by
  obtain ⟨hpos, hcmdr, hbusy, hdone, herr, hinfo, hctrl, hcnt, hin⟩ := h
  exact ⟨hpos, hcmdr, hbusy, hdone, by simp [herr], by simp [herr, hinfo], hctrl, hcnt, hin⟩

theorem sameControl_acknowledge (v : Word) : SameControl (s.acknowledge v) (t.acknowledge v) := by
  obtain ⟨hpos, hcmdr, hbusy, hdone, herr, hinfo, hctrl, hcnt, hin⟩ := h
  exact ⟨hpos, hcmdr, hbusy, by simp [hdone], by simp [herr], by simp [hinfo], hctrl, hcnt, hin⟩

theorem sameControl_accept (w : Word) : SameControl (s.accept w) (t.accept w) := by
  obtain ⟨hpos, -, -, -, herr, hinfo, hctrl, hcnt, hin⟩ := h
  exact ⟨hpos, rfl, rfl, rfl, herr, hinfo, hctrl, hcnt, hin⟩

theorem sameControl_complete : SameControl s.complete t.complete := by
  obtain ⟨hpos, hcmdr, -, -, herr, hinfo, hctrl, hcnt, hin⟩ := h
  exact ⟨hpos, hcmdr, rfl, rfl, herr, hinfo, hctrl, hcnt, hin⟩

theorem sameControl_applyReset : SameControl s.applyReset t.applyReset := by
  obtain ⟨-, -, -, -, -, -, -, -, hin⟩ := h
  exact ⟨rfl, rfl, rfl, rfl, rfl, rfl, rfl, rfl, hin⟩

/-- What an offer does depends on its word, `BUSY`, `ERR` and `POS` (60_exceptions.md R244). -/
theorem sameControl_offer (w : Word) : SameControl (offer w s) (offer w t) := by
  have hsame := h
  obtain ⟨hpos, -, hbusy, -, herr, -⟩ := hsame
  simp only [offer, ← hpos, ← hbusy, ← herr]
  split
  · exact sameControl_raise h .busy 0
  split
  · exact h
  split
  · exact sameControl_raise h .illCmd w
  · exact sameControl_raise h .illCmd w
  split
  · exact sameControl_raise h _ w
  · exact sameControl_accept h w

theorem sameControl_writeSlot (v : Word) (sl : Slot) : SameControl (writeSlot v s sl) (writeSlot v t sl) := by
  cases sl with
  | cmd => exact sameControl_offer h v
  | ack => exact sameControl_acknowledge h v
  | ctrl =>
    obtain ⟨hpos, hcmdr, hbusy, hdone, herr, hinfo, -, hcnt, hin⟩ := h
    exact ⟨hpos, hcmdr, hbusy, hdone, herr, hinfo, rfl, hcnt, hin⟩
  | n | pt | f | status | posr | errInfo | cnt | q | e => exact h

theorem sameControl_hostWrite (off v : Word) : SameControl (hostWrite off v s) (hostWrite off v t) := by
  have hbusy : s.busy = t.busy := by
    obtain ⟨-, -, hbusy, -⟩ := h
    exact hbusy
  simp only [hostWrite, ← hbusy]
  split
  · exact sameControl_raise h _ off
  split
  · exact sameControl_writeSlot h v _
  · exact sameControl_raise h .addr off

theorem sameControl_hostReadStep (off : Word) : SameControl (hostReadStep off s) (hostReadStep off t) := by
  have hbusy : s.busy = t.busy := by
    obtain ⟨-, -, hbusy, -⟩ := h
    exact hbusy
  have hread : SameControl (hostRead off s).1 (hostRead off t).1 := by
    simp only [hostRead, ← hbusy]
    split
    · exact sameControl_raise h _ off
    split
    · exact h
    · exact sameControl_raise h .addr off
  exact hread

/-- An accepted command keeps the control registers, sets `POS` from `POS`, and counts by its own numbers (R14, R296). -/
theorem sameControl_dataEffect {i : Instr} (hacc : offerError i s.pos = none) :
    SameControl (dataEffect i s) (dataEffect i t) := by
  obtain ⟨hpos, hcmdr, hbusy, hdone, herr, hinfo, hctrl, hcnt, hin⟩ := h
  have hs := keepsControl_dataEffect hacc
  have ht := keepsControl_dataEffect (s := t) (hpos ▸ hacc)
  have hcounts : (dataEffect i s).cnt = (dataEffect i t).cnt := by
    by_cases hi : i = .clrcnt
    · subst hi
      rfl
    · ext1 k hk
      have hks := countedBy_dataEffect hi s ⟨k, hk⟩
      have hkt := countedBy_dataEffect hi t ⟨k, hk⟩
      rw [hcnt] at hks
      exact hks.trans hkt.symm
  exact ⟨by rw [dataEffect_pos, dataEffect_pos, hpos], by rw [hs.cmdr, ht.cmdr, hcmdr], by rw [hs.busy, ht.busy, hbusy],
    by rw [hs.done, ht.done, hdone], by rw [hs.err, ht.err, herr], by rw [hs.errInfo, ht.errInfo, hinfo],
    by rw [hs.ctrl, ht.ctrl, hctrl], hcounts, by rw [hs.inputs, ht.inputs, hin]⟩

theorem sameControl_exec {i : Instr} {s' : State} (hexec : exec i s = .next s') :
    ∃ t', exec i t = .next t' ∧ SameControl s' t' := by
  have hpos : s.pos = t.pos := by
    obtain ⟨hpos, -⟩ := h
    exact hpos
  obtain ⟨c, hc, rfl⟩ | ⟨hacc, rfl⟩ := exec_cases hexec
  · exact ⟨_, exec_of_offerError i t c (hpos ▸ hc), sameControl_raise h c _⟩
  · exact ⟨_, exec_of_accepted (hpos ▸ hacc), sameControl_dataEffect h hacc⟩

theorem sameControl_coreStep {s' : State} (hcore : coreStep s = .next s') :
    ∃ t', coreStep t = .next t' ∧ SameControl s' t' := by
  have hsame := h
  obtain ⟨-, hcmdr, hbusy, -⟩ := hsame
  obtain ⟨idle, rfl⟩ | ⟨busy, i, u, hd, hexec, rfl⟩ := coreStep_cases s s' hcore
  · exact ⟨t, coreStep_of_idle (hbusy ▸ idle), h⟩
  · obtain ⟨v, hv, huv⟩ := sameControl_exec h hexec
    exact ⟨v.complete, by rw [coreStep_of_latched (hbusy ▸ busy) (hcmdr ▸ hd), hv, finishCommand], sameControl_complete huv⟩

theorem sameControl_step {s' : State} (hstep : step s = .next s') : ∃ t', step t = .next t' ∧ SameControl s' t' := by
  have hin : s.inputs = t.inputs := by
    obtain ⟨-, -, -, -, -, -, -, -, hin⟩ := h
    exact hin
  obtain ⟨he, hc⟩ | ⟨rest, he, hc⟩ | ⟨off, rest, he, rfl⟩ | ⟨off, v, rest, he, rfl⟩ | ⟨rest, he, rfl⟩ := step_cases s s' hstep
  · rw [step_of_no_input (hin ▸ he)]
    exact sameControl_coreStep h hc
  · rw [step_of_coreTurn (hin ▸ he)]
    exact sameControl_coreStep (sameControl_withInputs h rest) hc
  · exact ⟨_, by rw [step, ← hin, he], sameControl_hostReadStep (sameControl_withInputs h rest) off⟩
  · exact ⟨_, by rw [step, ← hin, he], sameControl_hostWrite (sameControl_withInputs h rest) off v⟩
  · exact ⟨_, by rw [step, ← hin, he], sameControl_applyReset (sameControl_withInputs h rest)⟩

end

/-! ## The clamped scalar (42_ladder.md R170) -/

theorem scalarZeroOrClamped_zero : ScalarZeroOrClamped (.replicate 32 0) := .inl rfl

theorem scalarZeroOrClamped_clampScalar (n : Bytes32) : ScalarZeroOrClamped (clampScalar n) := by
  have hlow (b : Byte) : b &&& 248 &&& 7 = 0 := by revert b; decide
  have htop (b : Byte) : ((b &&& 127) ||| 64) &&& 192 = 64 := by revert b; decide
  refine .inr ⟨?_, ?_⟩
  · rw [Ladder.clampScalar_low, hlow]
  · rw [Ladder.clampScalar_top, htop]

theorem scalarZeroOrClamped_step {s t : State} (hs : ScalarZeroOrClamped s.e) (h : step s = .next t) :
    ScalarZeroOrClamped t.e := by
  cases step_data h with
  | runs i u _ hexec eq =>
    obtain ⟨-, -, he | ⟨he, -⟩ | ⟨he, -⟩, -⟩ := exec_bytes hexec
    all_goals
      rw [eq, State.complete_e, he]
    · exact hs
    · exact scalarZeroOrClamped_zero
    · exact scalarZeroOrClamped_clampScalar _
  | writes _ _ _ _ _ keeps => exact keeps.e.symm ▸ hs
  | keeps _ _ keeps => exact keeps.e.symm ▸ hs
  | resets _ eq => exact eq ▸ scalarZeroOrClamped_zero

/-! ## The statements -/

/-- Settles O55: nothing is latched, recorded or accepted after reset. -/
theorem consistentAtReset : Obligations.ConsistentAtReset := by
  unfold Obligations.ConsistentAtReset
  exact consistent_applyReset State.reset

/-- Settles O56: every outcome of a host access, a core step and reset keeps the four clauses. -/
theorem stepKeepsConsistent : Obligations.StepKeepsConsistent := by
  unfold Obligations.StepKeepsConsistent
  exact fun s t => consistent_step

/-- Settles O57: only a core step can stop, and the latched command of a consistent state completes. -/
theorem consistentNeverStops : Obligations.ConsistentNeverStops := by
  unfold Obligations.ConsistentNeverStops
  exact fun s => step_total_of_consistent

/-- Settles O59: the commands that write `E` write zeros or a clamped scalar. -/
theorem scalarStaysClamped : Obligations.ScalarStaysClamped := by
  unfold Obligations.ScalarStaysClamped
  exact ⟨scalarZeroOrClamped_zero, fun s t => scalarZeroOrClamped_step⟩

/-- Settles O60: each kind of step keeps the agreement of two control states. -/
theorem controlIndependentOfData : Obligations.ControlIndependentOfData := by
  unfold Obligations.ControlIndependentOfData
  exact fun s t s' h => sameControl_step h

/-- Settles O8: these are the commands that `offerError` names. -/
theorem execRaisesForbidden : Obligations.ExecRaisesForbidden := by
  unfold Obligations.ExecRaisesForbidden
  refine fun s => ⟨fun p r q b => exec_of_offerError _ s _ (offerError_sel_same p r q b s.pos),
    fun rd ra h => exec_of_offerError _ s _ (offerError_recip_scratch h s.pos), fun hpos => ?_⟩
  have hword : encode .lstep = 0x42000000 := by decide
  rw [exec_of_offerError .lstep s .ladder (by rw [offerError_lstep, if_pos hpos]), hword]

/-- Settles O9: the core's turn takes its input off the list and looks at `BUSY` and `CMDR` alone. -/
theorem stepRunsLatchedCommand : Obligations.StepRunsLatchedCommand := by
  unfold Obligations.StepRunsLatchedCommand
  refine ⟨fun s i busy hd => ⟨fun hin => ?idle, fun rest hin => ?turn⟩, fun s w i hd => ?fetched, fun t => rfl⟩
  case idle => rw [step_of_no_input hin, coreStep_of_latched busy hd]
  case turn =>
    rw [step_of_coreTurn hin]
    exact coreStep_of_latched busy hd
  case fetched =>
    rw [State.withFetchWord, latchWord, ofNat_mod_word, step_of_coreTurn rfl]
    exact coreStep_of_latched rfl (decode_of_decodeTableWord hd)

/-- Settles O10: a consistent state's latched command is accepted, so its data effect completes. -/
theorem coreStepCompletes : Obligations.CoreStepCompletes := by
  unfold Obligations.CoreStepCompletes
  refine ⟨fun s hs busy hin => ?_, fun s rest idle hin => ?_, fun s idle hin => ?_⟩
  · obtain ⟨i, hd, hexec, hcore⟩ := coreStep_of_consistent hs busy
    exact ⟨i, dataEffect i s, hd, hexec, (step_of_no_input hin).trans hcore⟩
  · rw [step_of_coreTurn hin]
    exact coreStep_of_idle idle
  · rw [step_of_no_input hin, coreStep_of_idle idle]

/-- Settles O42: of the steps that touch data registers, only the core step and reset write `POS`. -/
theorem positionRule : Obligations.PositionRule := by
  unfold Obligations.PositionRule
  refine ⟨rfl, fun i s t => exec_pos, fun s t h hne => ?_⟩
  cases step_data h with
  | runs i u core =>
    obtain ⟨busy, -, turn⟩ := core
    exact .inr ⟨busy, turn⟩
  | writes _ _ _ _ _ keeps => exact absurd keeps.pos hne
  | keeps _ _ keeps => exact absurd keeps.pos hne
  | resets next eq =>
    obtain ⟨rest, hin⟩ := next
    exact .inl ⟨rest, hin, by rw [eq]; rfl⟩

/-- Settles O43: each of the four registers is followed through the kinds of step. -/
theorem byteRegisterWriters : Obligations.ByteRegisterWriters := by
  unfold Obligations.ByteRegisterWriters
  intro s t h
  cases step_data h with
  | runs i u core hexec eq =>
    subst eq
    obtain ⟨hn, hpt, he, hq⟩ := exec_bytes hexec
    refine ⟨fun hne => ?n, fun hne => ?pt, fun hne => ?e, fun hne => ?q⟩
    case n =>
      obtain ⟨hzero, rfl⟩ := hn.resolve_left hne
      exact .inl ⟨hzero, .inr core⟩
    case pt =>
      obtain ⟨hzero, rfl⟩ := hpt.resolve_left hne
      exact .inl ⟨hzero, .inr core⟩
    case e =>
      obtain ⟨hzero, rfl⟩ | ⟨hclamped, rfl | rfl | rfl⟩ := he.resolve_left hne
      · exact .inl ⟨hzero, .inr core⟩
      · exact .inr ⟨hclamped, .inl core⟩
      · exact .inr ⟨hclamped, .inr (.inl core)⟩
      · exact .inr ⟨hclamped, .inr (.inr core)⟩
    case q =>
      obtain ⟨hzero, rfl⟩ | ⟨ra, rfl⟩ | rfl | rfl := hq.resolve_left hne
      · exact .inl ⟨hzero, .inr core⟩
      · exact .inr (.inl ⟨ra, core⟩)
      · exact .inr (.inr (.inl core))
      · exact .inr (.inr (.inr core))
  | writes off v rest asked eq keeps =>
    subst eq
    refine ⟨fun hne => ?_, fun hne => ?_, fun hne => absurd keeps.e hne, fun hne => absurd keeps.q hne⟩
    · exact .inr ⟨off, v, rest, asked, hostWrite_changes_n (s := { s with inputs := rest }) hne⟩
    · exact .inr ⟨off, v, rest, asked, hostWrite_changes_pt (s := { s with inputs := rest }) hne⟩
  | keeps n pt keeps =>
    exact ⟨fun hne => absurd n hne, fun hne => absurd pt hne, fun hne => absurd keeps.e hne, fun hne => absurd keeps.q hne⟩
  | resets next eq =>
    subst eq
    exact ⟨fun _ => .inl ⟨rfl, .inl next⟩, fun _ => .inl ⟨rfl, .inl next⟩, fun _ => .inl ⟨rfl, .inl next⟩,
      fun _ => .inl ⟨rfl, .inl next⟩⟩

/-- Settles O45: only the core step and reset touch the counters, and a command's numbers are `execCounts`. -/
theorem counterWriters : Obligations.CounterWriters := by
  unfold Obligations.CounterWriters
  refine ⟨fun s t h hne => ?_, fun i s t h hi => ⟨execCounts i s.pos, fun s' t' hpos h' => ?_, countedBy_exec h hi⟩⟩
  · cases step_data h with
    | runs i u core =>
      obtain ⟨busy, -, turn⟩ := core
      exact .inr ⟨busy, turn⟩
    | writes _ _ _ _ _ keeps => exact absurd keeps.cnt hne
    | keeps _ _ keeps => exact absurd keeps.cnt hne
    | resets next eq =>
      obtain ⟨rest, hin⟩ := next
      exact .inl ⟨rest, hin, by rw [eq]; rfl⟩
  · rw [← execCounts_congr i hpos]
    exact countedBy_exec h' hi

end Sys2Proof.Proofs.StepRules
end

section
/-! PROOFS of the statements that a built-up command is its listing: LSTEP and LADDER (spec/42_ladder.md R174, R176), RECIP
(spec/43_recip.md R190), SMULT (spec/44_scalarmult.md R204), their counts (spec/70_reset_and_hazards.md R296), and the ladder issued
by the host (spec/42_ladder.md R178). They share the run of a list of commands each of which is accepted in its place: such a run is
what `execAll` answers, and what the host gets when it issues the list. -/

open Sys2Proof Sys2Proof.Machine Sys2Proof.Proofs.StateRules Sys2Proof.Proofs.Encoding Sys2Proof.Proofs.FieldArith
  Sys2Proof.Proofs.Select Sys2Proof.Proofs.Ladder Sys2Proof.Proofs.ScalarMult Sys2Proof.Proofs.MoveControl
  Sys2Proof.Proofs.Exceptions Sys2Proof.Proofs.DataEffects

namespace Sys2Proof.Proofs.Listings

/-! ## Lists of commands -/

theorem length_repeated (n : Nat) (is : List Instr) : (repeated n is).length = n * is.length := by
  simp [repeated]

theorem getLastD_append_pair {α : Type} (l : List α) (a b d : α) : (l ++ [a, b]).getLastD d = b := by
  simp [List.getLastD_eq_getLast?]

/-! ## Runs of accepted commands -/

/-- The commands of the list are executed in order, each accepted where it stands (60_exceptions.md R244). -/
inductive AcceptedRun : List Instr → State → State → Prop
  | nil (s : State) : AcceptedRun [] s s
  | cons {i : Instr} {is : List Instr} {s t : State} (accepted : offerError i s.pos = none)
      (rest : AcceptedRun is (dataEffect i s) t) : AcceptedRun (i :: is) s t

theorem AcceptedRun.append {is js : List Instr} {s t u : State} (h : AcceptedRun is s t) (k : AcceptedRun js t u) :
    AcceptedRun (is ++ js) s u := by
  induction h with
  | nil s => exact k
  | cons accepted _ ih => exact .cons accepted (ih k)

theorem AcceptedRun.single {i : Instr} {s : State} (h : offerError i s.pos = none) : AcceptedRun [i] s (dataEffect i s) :=
  .cons h (.nil _)

theorem AcceptedRun.execAll {is : List Instr} {s t : State} (h : AcceptedRun is s t) : execAll is s = .next t := by
  induction h with
  | nil s => rfl
  | cons accepted _ ih => rw [execAll_cons (exec_of_accepted accepted), ih]

/-! ## Sub-steps as commands -/

theorem dataEffect_primInstr (p : Prim) : dataEffect (primInstr p) = primEffect p := by
  cases p <;> rfl

theorem offerError_primInstr {p : Prim} (h : wellFormed (primInstr p) = true) (pos : Byte) :
    offerError (primInstr p) pos = none := by
  have hne : primInstr p ≠ .lstep := by cases p <;> nofun
  simp [offerError, h, hne]

/-- The commands of a list of sub-steps run to what the sub-steps give. -/
theorem acceptedRun_prims {ps : List Prim} (h : ∀ p ∈ ps, wellFormed (primInstr p) = true) (s : State) :
    AcceptedRun (ps.map primInstr) s (runPrims ps s) := by
  induction ps generalizing s with
  | nil => exact .nil s
  | cons p ps ih =>
    rw [List.forall_mem_cons] at h
    refine .cons (offerError_primInstr h.1 _) ?_
    rw [dataEffect_primInstr]
    exact ih h.2 _

/-! ## The scalar bit (42_ladder.md R173) -/

/-- Over bytes, the integer of the limbs has limb `q` as its digit `q` to base 256. -/
theorem limbsValue_digit {ts : List Word} (h : ∀ t ∈ ts, t.toNat ≤ 255) (q : Nat) :
    limbsValue ts / 256 ^ q % 256 = (ts.getD q 0).toNat := by
  induction ts generalizing q with
  | nil => simp [limbsValue]
  | cons t ts ih =>
    rw [List.forall_mem_cons] at h
    cases q with
    | zero =>
      simp only [limbsValue, List.getD_cons_zero, pow_zero, Nat.div_one]
      omega
    | succ q =>
      rw [List.getD_cons_succ, ← ih h.2 q, limbsValue, pow_succ', ← Nat.div_div_eq_div_mul]
      congr 2
      omega

theorem bytesValue_digit (b : Bytes32) (q : Nat) (hq : q < 32) : bytesValue b / 256 ^ q % 256 = b[q].toNat := by
  have hbytes : ∀ t ∈ (feOfBytes b).toList, t.toNat ≤ 255 := fun t ht => by
    obtain ⟨j, hj, rfl⟩ := List.getElem_of_mem ht
    simpa using byteForm_feOfBytes b ⟨j, by simpa using hj⟩
  rw [bytesValue, value, limbsValue_digit hbytes, ← limb_feOfBytes_toNat b q hq, limb_of_lt _ q hq]
  simp [List.getD_eq_getElem?_getD, hq]

/-- Bit `r` of digit `q` to base 256 is bit `8q + r` (00_scope.md R7). -/
theorem testBit_digit (n q r : Nat) (hr : r < 8) : (n / 256 ^ q % 256).testBit r = n.testBit (8 * q + r) := by
  have hpow : 256 ^ q = 2 ^ (8 * q) := by rw [pow_mul]; norm_num
  rw [show 256 = 2 ^ 8 from rfl, Nat.testBit_mod_two_pow, ← show 256 = 2 ^ 8 from rfl, hpow, Nat.testBit_div_two_pow]
  simp [hr, Nat.add_comm]

theorem scalarBit_eq (e : Bytes32) (i : Byte) : scalarBit e i = (bytesValue e).testBit i.toNat := by
  have hbyte : (i >>> 3).toNat = i.toNat / 8 := by rw [BitVec.toNat_ushiftRight, Nat.shiftRight_eq_div_pow]
  have hbit : (i &&& 7).toNat = i.toNat % 8 := by
    rw [BitVec.toNat_and]
    exact Nat.and_two_pow_sub_one_eq_mod i.toNat 3
  have hi := i.isLt
  simp only [scalarBit, hbyte, hbit, BitVec.getLsbD]
  rw [← bytesValue_digit e (i.toNat / 8) (by omega), testBit_digit _ _ _ (by omega), Nat.div_add_mod]

/-! ## Lists that write each register once -/

/-- The X half of a pair register is a field-element register (10_state.md R21). -/
def lowReg (k : PReg) : FReg := ⟨2 * k.val, by omega⟩

/-- The Z half of a pair register is a field-element register (10_state.md R21). -/
def highReg (k : PReg) : FReg := ⟨2 * k.val + 1, by omega⟩

/-- The registers a sub-step reads. -/
def primSources : Prim → List FReg
  | .add _ ra rb => [ra, rb]
  | .sub _ ra rb => [ra, rb]
  | .mul _ ra rb => [ra, rb]
  | .sqr _ ra => [ra]
  | .mulc _ ra => [ra]
  | .frz rd => [rd]
  | .sel _ _ pr ps _ => [lowReg pr, highReg pr, lowReg ps, highReg ps]
  | .mov _ ra => [ra]
  | .setc _ _ => []
  | .ldpt _ => []
  | .stq ra => [ra]
  | .clamp => []

/-- A sub-step read as equations between the registers of one state, where it is one. -/
def PrimHolds (s : State) : Prim → Prop
  | .add rd ra rb => s.getF rd = feAdd (s.getF ra) (s.getF rb)
  | .sub rd ra rb => s.getF rd = feSub (s.getF ra) (s.getF rb)
  | .mul rd ra rb => s.getF rd = feMult (s.getF ra) (s.getF rb)
  | .sqr rd ra => s.getF rd = feSquare (s.getF ra)
  | .mulc rd ra => s.getF rd = feMulc (s.getF ra)
  | .sel pd qd pr ps b =>
    s.getF (lowReg pd) = (if b then s.getF (lowReg ps) else s.getF (lowReg pr)) ∧
      s.getF (highReg pd) = (if b then s.getF (highReg ps) else s.getF (highReg pr)) ∧
      s.getF (lowReg qd) = (if b then s.getF (lowReg pr) else s.getF (lowReg ps)) ∧
      s.getF (highReg qd) = (if b then s.getF (highReg pr) else s.getF (highReg ps))
  | .mov rd ra => s.getF rd = s.getF ra
  | .setc rd imm => s.getF rd = immFe imm
  | .frz _ => True
  | .ldpt _ => True
  | .stq _ => True
  | .clamp => True

/-- The equations of a sub-step speak of its own registers alone. -/
theorem primHolds_congr {p : Prim} {s t : State} (h : ∀ r ∈ primSources p ++ primDests p, t.getF r = s.getF r)
    (hp : PrimHolds s p) : PrimHolds t p := by
  cases p with
  | sel pd qd pr ps b =>
    simp only [primSources, primDests, List.cons_append, List.nil_append, List.forall_mem_cons] at h
    obtain ⟨hpr, hpr', hps, hps', hpd, hpd', hqd, hqd', -⟩ := h
    simp only [PrimHolds, lowReg, highReg] at hp hpr hpr' hps hps' ⊢
    rwa [hpr, hpr', hps, hps', hpd, hpd', hqd, hqd']
  | add | sub | mul | sqr | mulc | mov | setc | frz | ldpt | stq | clamp =>
    simp_all [PrimHolds, primSources, primDests]

/-- A sub-step that writes none of its sources holds as an equation once it is performed. -/
theorem primHolds_primEffect {p : Prim} (hwf : wellFormed (primInstr p) = true) (h : ∀ r ∈ primSources p, r ∉ primDests p)
    (s : State) : PrimHolds (primEffect p s) p := by
  have hkept : ∀ r ∈ primSources p, (primEffect p s).getF r = s.getF r := fun r hr => getF_primEffect p s r (h r hr)
  cases p with
  | sel pd qd pr ps b =>
    have hne : pd ≠ qd := by simpa [primInstr, wellFormed] using hwf
    obtain ⟨hpLow, hpHigh⟩ := f_eq_of_getPair_eq_ite (getPair_selEffect_first (pr := pr) (ps := ps) (b := b) (s := s) hne)
    obtain ⟨hqLow, hqHigh⟩ := f_eq_of_getPair_eq_ite
      (getPair_selEffect_second (pd := pd) (qd := qd) (pr := pr) (ps := ps) (b := b) (s := s))
    simp only [primSources, List.forall_mem_cons] at hkept
    obtain ⟨hpr, hpr', hps, hps', -⟩ := hkept
    simp only [PrimHolds, hpr, hpr', hps, hps']
    exact ⟨hpLow, hpHigh, hqLow, hqHigh⟩
  | add rd ra rb | sub rd ra rb | mul rd ra rb | sqr rd ra | mulc rd ra | mov rd ra | setc rd imm =>
    simp only [primSources, List.forall_mem_cons] at hkept
    simp only [PrimHolds, hkept]
    exact State.getF_setF_self s rd _
  | frz | ldpt | stq | clamp => trivial

/-- No sub-step writes a register that it or an earlier one of the list has read or written. -/
def singleAssignment : List Prim → Bool
  | [] => true
  | p :: ps =>
    wellFormed (primInstr p) && (primSources p).all (fun r => r ∉ primDests p) &&
      ps.all (fun q => (primSources p ++ primDests p).all fun r => r ∉ primDests q) && singleAssignment ps

/-- At the end of such a list all its sub-steps hold as equations. -/
theorem primHolds_runPrims {ps : List Prim} (h : singleAssignment ps = true) (s : State) :
    ∀ p ∈ ps, PrimHolds (runPrims ps s) p := by
  induction ps generalizing s with
  | nil => exact fun p hp => nomatch hp
  | cons p ps ih =>
    simp only [singleAssignment, Bool.and_eq_true, List.all_eq_true, decide_eq_true_eq] at h
    obtain ⟨⟨⟨hwf, hself⟩, hlater⟩, hrest⟩ := h
    refine List.forall_mem_cons.mpr ⟨?_, ih hrest _⟩
    refine primHolds_congr (fun r hr => ?_) (primHolds_primEffect hwf hself s)
    exact getF_runPrims ps _ r fun q hq => hlater q hq r hr

/-! ## LSTEP (42_ladder.md R174) -/

/-- The sub-steps of `LSTEP` before its closing `SEL`. -/
def lstepBody (b : Bool) : List Prim := (lstepPrims b).dropLast

/-- The state before the closing `SEL` of a ladder step. -/
def lstepMid (s : State) : State := runPrims (lstepBody (scalarBit s.e s.pos)) s

theorem singleAssignment_lstepBody (b : Bool) : singleAssignment (lstepBody b) = true := by
  revert b
  decide

theorem lstepMid_holds (s : State) : ∀ p ∈ lstepBody (scalarBit s.e s.pos), PrimHolds (lstepMid s) p := by
  rw [lstepMid]
  exact primHolds_runPrims (singleAssignment_lstepBody _) s

theorem getF_lstepEffect_eq (s : State) (r : FReg) :
    (lstepEffect s).getF r = (primEffect (.sel pXZM pXZM1 pXZNB pXZN1B (scalarBit s.e s.pos)) (lstepMid s)).getF r := by
  have hsplit : lstepPrims (scalarBit s.e s.pos) =
      lstepBody (scalarBit s.e s.pos) ++ [.sel pXZM pXZM1 pXZNB pXZN1B (scalarBit s.e s.pos)] := rfl
  rw [lstepEffect, State.getF_count, State.getF_setPos, hsplit, runPrims_append, lstepMid, runPrims, runPrims]

/-- The closing `SEL` writes the accumulators `F4`..`F7` alone. -/
theorem getF_lstepEffect_of_mid (s : State) {r : FReg} (h : r.val < 4 ∨ 7 < r.val) :
    (lstepEffect s).getF r = (lstepMid s).getF r := by
  rw [getF_lstepEffect_eq]
  refine getF_primEffect _ _ r ?_
  simp only [primDests, pXZM, pXZM1, List.mem_cons, List.not_mem_nil, or_false, Fin.ext_iff]
  omega

/-- The accumulators take the doubled pair `F12`, `F13` and the sum pair `F14`, `F15` in the order the bit says. -/
theorem lstepEffect_accumulators (s : State) :
    (lstepEffect s).getF 4 = (if scalarBit s.e s.pos then (lstepMid s).getF 14 else (lstepMid s).getF 12) ∧
      (lstepEffect s).getF 5 = (if scalarBit s.e s.pos then (lstepMid s).getF 15 else (lstepMid s).getF 13) ∧
      (lstepEffect s).getF 6 = (if scalarBit s.e s.pos then (lstepMid s).getF 12 else (lstepMid s).getF 14) ∧
      (lstepEffect s).getF 7 = (if scalarBit s.e s.pos then (lstepMid s).getF 13 else (lstepMid s).getF 15) := by
  have hsel := primHolds_primEffect (p := .sel pXZM pXZM1 pXZNB pXZN1B (scalarBit s.e s.pos)) rfl
    (by simp only [primSources, primDests]; decide) (lstepMid s)
  simp only [PrimHolds, ← getF_lstepEffect_eq] at hsel
  simp only [← getF_lstepEffect_of_mid s (r := 12) (by decide), ← getF_lstepEffect_of_mid s (r := 13) (by decide),
    ← getF_lstepEffect_of_mid s (r := 14) (by decide), ← getF_lstepEffect_of_mid s (r := 15) (by decide)]
  exact hsel

/-- What `LSTEP` does after its sub-steps (R174). -/
theorem setPos_count_lstep (s : State) (p : Byte) :
    (s.setPos p).count .lstep = { s with pos := p, cnt := s.cnt.set 8 (s.cnt[8] + 1) } := rfl

/-- Every sub-step of `LSTEP` writes registers of `F4`..`F29` (R174). -/
theorem lstepPrims_dests (b : Bool) : ∀ p ∈ lstepPrims b, ∀ r ∈ primDests p, 4 ≤ r.val ∧ r.val ≤ 29 := by
  revert b
  decide

theorem getF_runPrims_lstepPrims (b : Bool) (s : State) {r : FReg} (h : r.val < 4 ∨ 29 < r.val) :
    (runPrims (lstepPrims b) s).getF r = s.getF r :=
  getF_runPrims _ s r fun p hp hdest => by
    have := lstepPrims_dests b p hp r hdest
    omega

theorem getF_lstepEffect (s : State) {r : FReg} (h : r.val < 4 ∨ 29 < r.val) : (lstepEffect s).getF r = s.getF r := by
  rw [lstepEffect, State.getF_count, State.getF_setPos, getF_runPrims_lstepPrims _ s h]

theorem getF_lstepIterate (n : Nat) (s : State) {r : FReg} (h : r.val < 4 ∨ 29 < r.val) :
    (lstepEffect^[n] s).getF r = s.getF r := by
  induction n generalizing s with
  | zero => rfl
  | succ n ih => rw [Function.iterate_succ_apply, ih, getF_lstepEffect s h]

/-- The doubled and the sum pair are products, so the accumulators come out squeezed whatever went in (R174). -/
theorem squeezed_lstepEffect (s : State) :
    Squeezed ((lstepEffect s).getF 4) ∧ Squeezed ((lstepEffect s).getF 5) ∧ Squeezed ((lstepEffect s).getF 6) ∧
      Squeezed ((lstepEffect s).getF 7) := by
  have hmid := lstepMid_holds s
  have h12 : Squeezed ((lstepMid s).getF 12) := by
    have h := hmid (.mul rXZNBx rB0x rB0z) (by simp [lstepBody, lstepPrims])
    exact h ▸ squeezed_feMult _ _
  have h13 : Squeezed ((lstepMid s).getF 13) := by
    have h := hmid (.mul rXZNBz rS rU) (by simp [lstepBody, lstepPrims])
    exact h ▸ squeezed_feMult _ _
  have h14 : Squeezed ((lstepMid s).getF 14) := by
    have h := hmid (.sqr rXZN1Bx rC1x) (by simp [lstepBody, lstepPrims])
    exact h ▸ squeezed_feMult _ _
  have h15 : Squeezed ((lstepMid s).getF 15) := by
    have h := hmid (.mul rXZN1Bz rR rWX) (by simp [lstepBody, lstepPrims])
    exact h ▸ squeezed_feMult _ _
  obtain ⟨h4, h5, h6, h7⟩ := lstepEffect_accumulators s
  rw [h4, h5, h6, h7]
  cases scalarBit s.e s.pos
  · exact ⟨h12, h13, h14, h15⟩
  · exact ⟨h14, h15, h12, h13⟩

/-- With `n` steps pending, `n` times `LSTEP` is accepted (R173, R175). -/
theorem acceptedRun_lsteps {n : Nat} {s : State} (h : n ≤ (s.pos + 1).toNat) :
    AcceptedRun (repeated n [.lstep]) s (lstepEffect^[n] s) := by
  induction n generalizing s with
  | zero => exact .nil s
  | succ n ih =>
    have hpending : s.pos ≠ 255 := by
      intro hpos
      simp [hpos] at h
    have hleft : n ≤ ((lstepEffect s).pos + 1).toNat := by
      rw [lstepEffect_pos]
      bv_omega
    exact .cons (by rw [offerError_lstep, if_neg hpending]) (ih hleft)

/-! ## LADDER (42_ladder.md R176) -/

/-- `LINIT` and up to 255 steps are accepted in every state. -/
theorem acceptedRun_linit_lsteps {n : Nat} (h : n ≤ 255) (s : State) :
    AcceptedRun ([.linit] ++ repeated n [.lstep]) s (lstepEffect^[n] (linitEffect s)) := by
  have hinit : AcceptedRun [.linit] s (linitEffect s) := .single rfl
  refine hinit.append (acceptedRun_lsteps ?_)
  rw [linitEffect_pos]
  exact h

theorem acceptedRun_ladder (s : State) :
    AcceptedRun ([.linit] ++ repeated 255 [.lstep] ++ [.mov 0 4, .mov 1 5]) s (ladderEffect s) :=
  (acceptedRun_linit_lsteps le_rfl s).append (acceptedRun_prims (ps := ladderEndPrims) (by decide) _)

/-- The result registers take the accumulators `F4` and `F5`, which stay. -/
theorem getF_ladderEnd (s : State) :
    (runPrims ladderEndPrims s).getF 0 = s.getF 4 ∧ (runPrims ladderEndPrims s).getF 1 = s.getF 5 := by
  have h0 := primHolds_runPrims (ps := ladderEndPrims) (by decide) s (.mov rWX rXZMx) (by decide)
  have h1 := primHolds_runPrims (ps := ladderEndPrims) (by decide) s (.mov rWZ rXZMz) (by decide)
  have h4 := getF_runPrims ladderEndPrims s 4 (by decide)
  have h5 := getF_runPrims ladderEndPrims s 5 (by decide)
  exact ⟨h0.trans h4, h1.trans h5⟩

theorem getF_ladderEffect_of_ne (s : State) {r : FReg} (h0 : r ≠ 0) (h1 : r ≠ 1) :
    (ladderEffect s).getF r = (lstepEffect^[Config.nStep] (linitEffect s)).getF r := by
  refine getF_runPrims ladderEndPrims _ r ?_
  simp [ladderEndPrims, primDests, rWX, rWZ, h0, h1]

theorem getF_ladderEffect_result (s : State) :
    (ladderEffect s).getF 0 = (lstepEffect^[Config.nStep] (linitEffect s)).getF 4 ∧
      (ladderEffect s).getF 1 = (lstepEffect^[Config.nStep] (linitEffect s)).getF 5 :=
  getF_ladderEnd _

/-- `F2`, `F3`, `F30` and `F31` are no registers of the ladder (10_state.md R22). -/
theorem getF_ladderEffect_kept (s : State) {r : FReg} (h : r.val = 2 ∨ r.val = 3 ∨ 29 < r.val) :
    (ladderEffect s).getF r = s.getF r := by
  have h0 : r ≠ 0 := by rintro rfl; simp at h
  have h1 : r ≠ 1 := by rintro rfl; simp at h
  rw [getF_ladderEffect_of_ne s h0 h1, getF_lstepIterate _ _ (by omega)]
  refine getF_runPrims linitPrims s r fun p hp hdest => ?_
  have hmem := linitPrims_dests p hp r hdest
  simp only [List.mem_cons, List.not_mem_nil, or_false] at hmem
  rcases hmem with rfl | rfl | rfl | rfl <;> simp at h

/-- After at least one step the accumulators are squeezed, and so is the result (R176). -/
theorem squeezed_ladderEffect (s : State) : Squeezed ((ladderEffect s).getF 0) ∧ Squeezed ((ladderEffect s).getF 1) := by
  obtain ⟨h0, h1⟩ := getF_ladderEffect_result s
  have hlast : lstepEffect^[Config.nStep] (linitEffect s) = lstepEffect (lstepEffect^[254] (linitEffect s)) :=
    Function.iterate_succ_apply' lstepEffect 254 _
  obtain ⟨h4, h5, -⟩ := squeezed_lstepEffect (lstepEffect^[254] (linitEffect s))
  rw [h0, h1, hlast]
  exact ⟨h4, h5⟩

/-! ## RECIP (43_recip.md R190) -/

theorem map_primInstr_sqrPairs (n : Nat) (x y : FReg) :
    (sqrPairs n x y).map primInstr = repeated n [.sqr x y, .sqr y x] := by
  induction n with
  | zero => rfl
  | succ n ih => rw [sqrPairs, List.map_cons, List.map_cons, ih]; rfl

/-- The sub-steps of `RECIP` between the ones that read the source and the product that writes the destination. -/
def recipMiddle : List Prim :=
  recipTo10 ++ recipTo20 ++ recipTo40 ++ recipTo50 ++ recipTo100 ++ recipTo200 ++ recipTo250 ++
    [.sqr rT1 rT0, .sqr rT0 rT1, .sqr rT1 rT0, .sqr rT0 rT1, .sqr rT1 rT0]

/-- The sub-steps of `RECIP` before the product that writes the destination. -/
def recipInit (ra : FReg) : List Prim := recipTo5 ra ++ recipMiddle

theorem recipPrims_eq (rd ra : FReg) : recipPrims rd ra = recipInit ra ++ [.mul rd rT1 rZ11] := by
  simp only [recipPrims, recipInit, recipMiddle, recipEnd, List.append_assoc, List.cons_append, List.nil_append]

/-- The sub-step is a squaring or a product into one of `F4`..`F13`. -/
def writesScratch : Prim → Bool
  | .sqr rd _ => inRecipScratch rd
  | .mul rd _ _ => inRecipScratch rd
  | .add _ _ _ => false
  | .sub _ _ _ => false
  | .mulc _ _ => false
  | .frz _ => false
  | .sel _ _ _ _ _ => false
  | .mov _ _ => false
  | .setc _ _ => false
  | .ldpt _ => false
  | .stq _ => false
  | .clamp => false

theorem all_writesScratch_sqrPairs {x y : FReg} (hx : inRecipScratch x = true) (hy : inRecipScratch y = true) (n : Nat) :
    (sqrPairs n x y).all writesScratch = true := by
  induction n with
  | zero => rfl
  | succ n ih => simp [sqrPairs, writesScratch, hx, hy, ih]

theorem all_writesScratch_recipInit (ra : FReg) : (recipInit ra).all writesScratch = true := by
  have hpairs (n : Nat) : (sqrPairs n rT0 rT1).all writesScratch = true := all_writesScratch_sqrPairs rfl rfl n
  have hpairs' (n : Nat) : (sqrPairs n rT1 rT0).all writesScratch = true := all_writesScratch_sqrPairs rfl rfl n
  simp only [recipInit, recipMiddle, recipTo5, recipTo10, recipTo20, recipTo40, recipTo50, recipTo100, recipTo200, recipTo250,
    List.all_append, List.all_cons, List.all_nil, hpairs, hpairs', writesScratch]
  decide

theorem notMem_primDests_of_writesScratch {p : Prim} (hp : writesScratch p = true) {r : FReg} (hr : ¬(4 ≤ r.val ∧ r.val ≤ 13)) :
    r ∉ primDests p := by
  rw [← inRecipScratch_iff] at hr
  cases p with
  | sqr rd ra | mul rd ra rb =>
    rw [primDests, List.mem_singleton]
    rintro rfl
    exact hr hp
  | add | sub | mulc | frz | sel | mov | setc | ldpt | stq | clamp => cases hp

theorem getF_recipInit (ra : FReg) (s : State) {r : FReg} (hr : ¬(4 ≤ r.val ∧ r.val ≤ 13)) :
    (runPrims (recipInit ra) s).getF r = s.getF r :=
  getF_runPrims _ s r fun p hp =>
    notMem_primDests_of_writesScratch (List.all_eq_true.mp (all_writesScratch_recipInit ra) p hp) hr

theorem recipEffect_eq (rd ra : FReg) (s : State) :
    recipEffect rd ra s = mulEffect rd rT1 rZ11 (runPrims (recipInit ra) s) := by
  rw [recipEffect, recipPrims_eq, runPrims_append]
  rfl

/-- The result is the last product (R190). -/
theorem getF_recipEffect (rd ra : FReg) (s : State) :
    (recipEffect rd ra s).getF rd =
      feMult ((runPrims (recipInit ra) s).getF rT1) ((runPrims (recipInit ra) s).getF rZ11) := by
  rw [recipEffect_eq, mulEffect, State.getF_count, State.getF_setF_self]

theorem getF_recipEffect_of_ne {rd r : FReg} (ra : FReg) (s : State) (h : r ≠ rd) :
    (recipEffect rd ra s).getF r = (runPrims (recipInit ra) s).getF r := by
  rw [recipEffect_eq, mulEffect, State.getF_count, State.getF_setF_of_ne _ _ _ _ h.symm]

theorem squeezed_recipEffect (rd ra : FReg) (s : State) : Squeezed ((recipEffect rd ra s).getF rd) := by
  rw [getF_recipEffect]
  exact squeezed_feMult _ _

/-- The squarings and products of the list are commands that are always accepted. -/
theorem wellFormed_of_writesScratch {p : Prim} (hp : writesScratch p = true) : wellFormed (primInstr p) = true := by
  cases p with
  | sqr | mul => rfl
  | add | sub | mulc | frz | sel | mov | setc | ldpt | stq | clamp => cases hp

theorem acceptedRun_recip (rd ra : FReg) (s : State) :
    AcceptedRun ((recipPrims rd ra).map primInstr) s (recipEffect rd ra s) := by
  refine acceptedRun_prims (fun p hp => ?_) s
  rw [recipPrims_eq, List.mem_append, List.mem_singleton] at hp
  rcases hp with hp | rfl
  · exact wellFormed_of_writesScratch (List.all_eq_true.mp (all_writesScratch_recipInit ra) p hp)
  · rfl

theorem exec_recip {rd ra : FReg} (hd : ¬(4 ≤ rd.val ∧ rd.val ≤ 13)) (ha : ¬(4 ≤ ra.val ∧ ra.val ≤ 13)) (s : State) :
    exec (.recip rd ra) s = .next (recipEffect rd ra s) :=
  exec_of_accepted (offerError_eq_none nofun (fun _ _ h => by cases h; exact ⟨hd, ha⟩) nofun)

/-! ## SMULT (44_scalarmult.md R204) -/

/-- The last three commands of `SMULT`: the frozen product of `F0` and `F1` goes to `F2` and to `Q`. -/
theorem scalarMultTail_result (s : State) :
    (runPrims [.mul rWQ rWX rWZ, .frz rWQ, .stq rWQ] s).getF 2 = feFreeze (feMult (s.getF 0) (s.getF 1)) ∧
      (runPrims [.mul rWQ rWX rWZ, .frz rWQ, .stq rWQ] s).q =
        bytesOfFe ((runPrims [.mul rWQ rWX rWZ, .frz rWQ, .stq rWQ] s).getF 2) := by
  have htail : runPrims [.mul rWQ rWX rWZ, .frz rWQ, .stq rWQ] s = stqEffect 2 (frzEffect 2 (mulEffect 2 0 1 s)) := rfl
  rw [htail, stqEffect, State.getF_setQ, State.setQ_q]
  refine ⟨?_, rfl⟩
  rw [frzEffect, State.getF_count, State.getF_setF_self, mulEffect, State.getF_count, State.getF_setF_self]

theorem scalarMultEnd_result (s : State) :
    (scalarMultEnd s).getF 2 = feFreeze (feMult ((recipEffect 1 1 s).getF 0) ((recipEffect 1 1 s).getF 1)) ∧
      (scalarMultEnd s).q = bytesOfFe ((scalarMultEnd s).getF 2) := by
  rw [scalarMultEnd]
  exact scalarMultTail_result (recipEffect 1 1 s)

/-- `F2` alone is written after the inversion. -/
theorem getF_scalarMultEnd_of_ne (s : State) {r : FReg} (h : r ≠ 2) : (scalarMultEnd s).getF r = (recipEffect 1 1 s).getF r := by
  refine getF_runPrims _ _ r ?_
  simp [primDests, rWQ, h]

/-- The result register holds the result's bytes: a frozen product is in byte form. -/
theorem canonical_scalarMultEnd (s : State) : Canonical ((scalarMultEnd s).getF 2) := by
  obtain ⟨hresult, -⟩ := scalarMultEnd_result s
  have hmult := squeezed_feMult ((recipEffect 1 1 s).getF 0) ((recipEffect 1 1 s).getF 1)
  rw [hresult]
  exact (canonical_feFreeze hmult.1 (value_lt_two_P_of_squeezed hmult)).1

theorem scalarMultEnd_bytes (s : State) : (scalarMultEnd s).getF 2 = feOfBytes (scalarMultEnd s).q := by
  obtain ⟨-, hq⟩ := scalarMultEnd_result s
  obtain ⟨hbytes, -⟩ := canonical_scalarMultEnd s
  rw [hq, feOfBytes_bytesOfFe hbytes]

/-- The state in which the ladder of `SMULT` starts: `E` clamped and the point in `F0`. -/
def smultStart (s : State) : State := runPrims [.clamp, .ldpt rWX] s

theorem smultEffect_eq (s : State) : smultEffect s = scalarMultEnd (ladderEffect (smultStart s)) := rfl

theorem smultStart_e (s : State) : (smultStart s).e = clampScalar s.n := rfl

theorem getF_smultStart (s : State) : (smultStart s).getF 0 = feOfBytes s.pt := State.getF_setF_self _ rWX _

theorem getF_smultStart_of_ne (s : State) {r : FReg} (h : r ≠ 0) : (smultStart s).getF r = s.getF r :=
  State.getF_setF_of_ne _ rWX r _ h.symm

/-- No register of `F3`, `F30`, `F31` is used by `SMULT` (10_state.md R22). -/
theorem getF_smultEffect_kept (s : State) {r : FReg} (h : r = 3 ∨ r = 30 ∨ r = 31) : (smultEffect s).getF r = s.getF r := by
  have hne0 : r ≠ 0 := by rintro rfl; simp at h
  have hne1 : r ≠ 1 := by rintro rfl; simp at h
  have hne2 : r ≠ 2 := by rintro rfl; simp at h
  have hplace : r.val = 3 ∨ 29 < r.val := by rcases h with rfl | rfl | rfl <;> decide
  rw [smultEffect_eq, getF_scalarMultEnd_of_ne _ hne2, getF_recipEffect_of_ne _ _ hne1, getF_recipInit _ _ (by omega),
    getF_ladderEffect_kept _ (by omega), getF_smultStart_of_ne _ hne0]

theorem smultEffect_pos (s : State) : (smultEffect s).pos = 255 := by
  rw [smultEffect_eq, scalarMultEnd_pos, ladderEffect_pos]

/-- A state that keeps the control registers, `N` and `PT` differs in the other data registers alone. -/
theorem eq_with_of_keepsControl {s t : State} (hk : KeepsControl s t) (hn : t.n = s.n) (hpt : t.pt = s.pt) :
    t = { s with f := t.f, e := t.e, q := t.q, pos := t.pos, cnt := t.cnt } := by
  obtain ⟨hcmdr, hbusy, hdone, herr, hinfo, hctrl, hin, hrep⟩ := hk
  rw [← hn, ← hpt, ← hcmdr, ← hbusy, ← hdone, ← herr, ← hinfo, ← hctrl, ← hin, ← hrep]

/-- `SMULT` touches `F`, `E`, `Q`, `POS` and `CNT` alone. -/
theorem smultEffect_frame (s : State) :
    smultEffect s =
      { s with
        f := (smultEffect s).f
        e := (smultEffect s).e
        q := (smultEffect s).q
        pos := (smultEffect s).pos
        cnt := (smultEffect s).cnt } := by
  have hk := keepsControl_dataEffect (i := .smult) (s := s) rfl
  exact eq_with_of_keepsControl hk (dataEffect_n s .smult) (dataEffect_pt s .smult)

/-! ## The listing issued by the host (42_ladder.md R178) -/

theorem run_of_step (M : Host.Core) {s t : M.State} (k : Nat) (h : M.step s = .next t) : M.run (k + 1) s = M.run k t := by
  rw [Host.Core.run, h]

theorem run_step {s t : State} (k : Nat) (h : step s = .next t) : Sys2Proof.core.run (k + 1) s = Sys2Proof.core.run k t :=
  run_of_step Sys2Proof.core k h

/-- The control registers `c` after the host has issued the list: the last word latched, the block idle, nothing more asked. -/
def issuedControl (c : State) (is : List Instr) : State :=
  { c with cmdr := (is.map encode).getLastD c.cmdr, busy := false, done := c.done || !is.isEmpty, inputs := [] }

theorem withInputs_withControl (c s : State) (ins : List Input) :
    { withControl c s with inputs := ins } = withControl { c with inputs := ins } s := rfl

theorem accept_withControl (c s : State) (w : Word) : (withControl c s).accept w = withControl (c.accept w) s := rfl

theorem complete_withControl (c s : State) : (withControl c s).complete = withControl c.complete s := rfl

/-- A word accepted and its command completed, as control registers. -/
theorem accept_complete (c : State) (w : Word) (ins : List Input) :
    { c.accept w with inputs := ins }.complete = { c with cmdr := w, busy := false, done := true, inputs := ins } := rfl

section
variable {i : Instr} {c s : State} {w : Word} (hd : decode w = .instr i) (hacc : offerError i s.pos = none) (rest : List Input)
include hd hacc

/-- A command issued is accepted in one step (60_exceptions.md R244). -/
theorem step_offer_withControl (idle : c.busy = false) (clear : c.err = .none) :
    step (withControl { c with inputs := .hostWrite 0 w :: .coreTurn :: rest } s) =
      .next (withControl { c.accept w with inputs := .coreTurn :: rest } s) := by
  have hoffer := hostWrites_accepted (s := withControl { c with inputs := .coreTurn :: rest } s) idle clear hd hacc
  rw [HostWrites, withInputs_withControl, accept_withControl] at hoffer
  exact hoffer

/-- A command accepted completes in the core's turn (20_memory.md R68). -/
theorem step_turn_withControl :
    step (withControl { c.accept w with inputs := .coreTurn :: rest } s) =
      .next (withControl { c with cmdr := w, busy := false, done := true, inputs := rest } (dataEffect i s)) := by
  have hturn := step_coreTurn_of_exec (s := withControl { c.accept w with inputs := rest } s) rfl hd
    (exec_withControl _ hacc (exec_of_accepted hacc))
  rw [withInputs_withControl, complete_withControl, accept_complete] at hturn
  exact hturn

end

/-- One command issued takes two steps, to its data effect with its word in `CMDR`. -/
theorem run_command {i : Instr} {c s : State} (idle : c.busy = false) (clear : c.err = .none)
    (hacc : offerError i s.pos = none) (rest : List Input) (k : Nat) :
    Sys2Proof.core.run (k + 1 + 1) (withControl { c with inputs := .hostWrite 0 (encode i) :: .coreTurn :: rest } s) =
      Sys2Proof.core.run k
        (withControl { c with cmdr := encode i, busy := false, done := true, inputs := rest } (dataEffect i s)) :=
  (run_step (k + 1) (step_offer_withControl (decode_encode i) hacc rest idle clear)).trans
    (run_step k (step_turn_withControl (decode_encode i) hacc rest))

/-- The host that issues a list of commands, each accepted in its place, gets what the list run as one gives. -/
theorem run_issueAll {is : List Instr} {s t : State} (h : AcceptedRun is s t) {c : State} (idle : c.busy = false)
    (clear : c.err = .none) :
    Sys2Proof.core.run (2 * is.length) (withControl { c with inputs := issueAll is } s) =
      .next (withControl (issuedControl c is) t) := by
  induction h generalizing c with
  | nil s => simp [issuedControl, issueAll, Host.Core.run, idle]
  | @cons i is s t accepted _ ih =>
    have hsplit : issueAll (i :: is) = .hostWrite 0 (encode i) :: .coreTurn :: issueAll is := rfl
    rw [hsplit, List.length_cons, Nat.mul_succ, run_command idle clear accepted]
    refine (ih (c := { c with cmdr := encode i, busy := false, done := true }) rfl clear).trans ?_
    simp only [issuedControl, List.map_cons, List.getLastD_cons, List.isEmpty_cons, Bool.true_or, Bool.not_false, Bool.or_true]

/-- The host that starts from an idle block without an error gets the data registers of the run and the last word in `CMDR`. -/
theorem run_issueAll_self {is : List Instr} {s t : State} (h : AcceptedRun is s t) (idle : s.busy = false)
    (clear : s.err = .none) :
    Sys2Proof.core.run (2 * is.length) { s with inputs := issueAll is } = .next (withControl (issuedControl s is) t) :=
  run_issueAll h idle clear

/-! ## The statements -/

/-- Settles O28: byte `i >> 3` is a digit of the integer to base 256, and its bit `i & 7` the integer's bit `i`. -/
theorem scalarBitIsIntegerBit : Obligations.ScalarBitIsIntegerBit := by
  unfold Obligations.ScalarBitIsIntegerBit
  exact scalarBit_eq

/-- Settles O30: the sub-steps of `LSTEP` are the commands of its listing, with the bit of `E` in both selects. -/
theorem ladderStepRunsItsListing : Obligations.LadderStepRunsItsListing := by
  unfold Obligations.LadderStepRunsItsListing
  intro s hpos
  rw [← scalarBit_eq]
  have hlegal (b : Bool) : ∀ p ∈ lstepPrims b, wellFormed (primInstr p) = true := by
    revert b
    decide
  have hrun := (acceptedRun_prims (hlegal (scalarBit s.e s.pos)) s).execAll
  refine ⟨runPrims (lstepPrims (scalarBit s.e s.pos)) s, hrun, ?step, fun r hr => getF_runPrims_lstepPrims _ s hr, ?counts,
    runPrims_keepsBytes _ s rfl⟩
  case step =>
    rw [exec_of_accepted (by rw [offerError_lstep, if_neg hpos]), dataEffect, lstepEffect, setPos_count_lstep]
  case counts => exact countedBy_runPrims s (map_primCounter_lstepPrims _) (by decide)

/-- Settles O32: the 258 commands are accepted one after the other, and the closing moves copy squeezed accumulators. -/
theorem ladderRunsItsListing : Obligations.LadderRunsItsListing := by
  unfold Obligations.LadderRunsItsListing
  intro s
  obtain ⟨h0, h1⟩ := getF_ladderEffect_result s
  obtain ⟨hsq0, hsq1⟩ := squeezed_ladderEffect s
  refine ⟨ladderEffect s, rfl, (acceptedRun_ladder s).execAll, ?x, ?z, hsq0, hsq1, ladderEffect_pos s, fun r hr => ?kept,
    countedBy_ladderEffect s, ?frame⟩
  case x => exact h0.trans (getF_ladderEffect_of_ne s (by decide) (by decide)).symm
  case z => exact h1.trans (getF_ladderEffect_of_ne s (by decide) (by decide)).symm
  case kept =>
    refine getF_ladderEffect_kept s ?_
    revert r
    decide
  case frame =>
    rw [ladderEffect_pos]
    exact ladderEffect_frame s

/-- Settles O33: both lists of commands run to the ladder of the clamped scalar; the last word latched differs. -/
theorem hostSteppedLadderAgrees : Obligations.HostSteppedLadderAgrees := by
  unfold Obligations.HostSteppedLadderAgrees
  intro s idle clear
  have hstepped : AcceptedRun ([.clamp, .linit] ++ repeated 255 [.lstep] ++ [.mov 0 4, .mov 1 5]) s
      (ladderEffect (clampEffect s)) :=
    .cons rfl (acceptedRun_ladder (clampEffect s))
  have hwhole : AcceptedRun [.clamp, .ladder] s (ladderEffect (clampEffect s)) := .cons rfl (.single rfl)
  refine ⟨_, ?_, run_issueAll_self hwhole idle clear⟩
  have hlength : 518 = 2 * ([.clamp, .linit] ++ repeated 255 [.lstep] ++ [.mov 0 4, .mov 1 5] : List Instr).length := by
    rw [List.length_append, List.length_append, length_repeated]
    rfl
  have hlast : (([.clamp, .linit] ++ repeated 255 [.lstep] ++ [.mov 0 4, .mov 1 5] : List Instr).map encode).getLastD s.cmdr =
      0x20094000 := by
    rw [List.map_append]
    exact (getLastD_append_pair _ _ _ _).trans (by decide)
  rw [hlength, run_issueAll_self hstepped idle clear, issuedControl, hlast]
  simp [issuedControl, withControl]

/-- Settles O35: the sub-steps of `RECIP` are the commands of its listing, and its last product writes the destination. -/
theorem recipRunsItsListing : Obligations.RecipRunsItsListing := by
  unfold Obligations.RecipRunsItsListing
  intro rd ra s hd ha
  have hlisting := (acceptedRun_recip rd ra s).execAll
  simp only [recipPrims, recipTo5, recipTo10, recipTo20, recipTo40, recipTo50, recipTo100, recipTo200, recipTo250, recipEnd,
    List.map_append, List.map_cons, List.map_nil, map_primInstr_sqrPairs, primInstr, List.append_assoc, List.cons_append,
    List.nil_append] at hlisting
  refine ⟨recipEffect rd ra s, exec_recip hd ha s, ?listing, squeezed_recipEffect rd ra s, fun r hne hr => ?kept,
    countedBy_recipEffect rd ra s, recipEffect_frame rd ra s⟩
  case listing =>
    simp only [List.append_assoc, List.cons_append, List.nil_append]
    exact hlisting
  case kept => exact (getF_recipEffect_of_ne ra s hne).trans (getF_recipInit ra s hr)

/-- Settles O37: the seven commands run one after the other; the frozen product is in byte form, so `Q` holds it whole. -/
theorem scalarMultRunsItsListing : Obligations.ScalarMultRunsItsListing := by
  unfold Obligations.ScalarMultRunsItsListing
  intro s
  obtain ⟨hsq0, -⟩ := squeezed_ladderEffect (smultStart s)
  refine ⟨smultEffect s, rfl, execAll_scalarMult (fun _ => rfl) s, dataEffect_e s .smult, smultEffect_pos s,
    scalarMultEnd_bytes _, ?x, ?z, fun r => getF_smultEffect_kept s, smultEffect_frame s⟩
  case x =>
    have hx : (smultEffect s).getF 0 = (ladderEffect (smultStart s)).getF 0 := by
      rw [smultEffect_eq, getF_scalarMultEnd_of_ne _ (by decide), getF_recipEffect_of_ne _ _ (by decide),
        getF_recipInit _ _ (by decide)]
    rw [← hx] at hsq0
    exact hsq0
  case z =>
    have hz : (smultEffect s).getF 1 = (recipEffect 1 1 (ladderEffect (smultStart s))).getF 1 := by
      rw [smultEffect_eq, getF_scalarMultEnd_of_ne _ (by decide)]
    change Squeezed ((smultEffect s).getF 1)
    rw [hz]
    exact squeezed_recipEffect 1 1 _

/-- Settles O41: the counters of a command's sub-steps are fixed by its list. -/
theorem operationCountsFixed : Obligations.OperationCountsFixed := by
  unfold Obligations.OperationCountsFixed
  refine fun s => ⟨fun hpos => ⟨lstepEffect s, if_neg hpos, countedBy_lstepEffect s⟩,
    ⟨ladderEffect s, rfl, countedBy_ladderEffect s⟩,
    fun rd ra hd ha => ⟨recipEffect rd ra s, exec_recip hd ha s, countedBy_recipEffect rd ra s⟩,
    ⟨smultEffect s, rfl, countedBy_scalarMult s rfl⟩, ⟨smultbEffect s, rfl, countedBy_scalarMult s rfl⟩⟩

end Sys2Proof.Proofs.Listings
end

section
/-! PROOFS of the statements about the ladder in field terms (spec/42_ladder.md R174, R176, R177). The sub-steps of a ladder step hold
as equations between the registers before its closing select; each equation has its field value where its operands are in bounds, and
the bounds of 70_reset_and_hazards.md R291 follow from those of the accumulators, which every step leaves squeezed. -/

open Sys2Proof Sys2Proof.Machine Sys2Proof.Proofs.FieldArith Sys2Proof.Proofs.Ladder Sys2Proof.Proofs.MoveControl
  Sys2Proof.Proofs.DataEffects Sys2Proof.Proofs.Listings

namespace Sys2Proof.Proofs.LadderField

/-! ## Sums and differences of byte forms (40_field_arith.md R124, R125) -/

theorem limbsAtMost_mono {m n : Nat} {a : Fe} (hmn : m ≤ n) (h : LimbsAtMost m a) : LimbsAtMost n a := fun j => (h j).trans hmn

/-- Over terms of two byte limbs the carry of a pass from zero is at most 1. -/
theorem carriesOf_le_one {term : Nat → Word} (h : ∀ j, j < 31 → (term j).toNat ≤ 510) (j : Nat) (hj : j ≤ 31) :
    (carriesOf 0 term j).toNat ≤ 1 := by
  induction j with
  | zero => exact Nat.zero_le _
  | succ j ih =>
    have hc := ih (by omega)
    have ht := h j (by omega)
    rw [carriesOf, shift_8_toNat, BitVec.toNat_add]
    omega

/-- The limbs of a register whose low limbs are bytes. -/
theorem limbsAtMost_of_top {n : Nat} {a : Fe} (hn : 255 ≤ n) (hlow : ∀ j, j < 31 → (limb a j).toNat ≤ 255)
    (htop : (limb a 31).toNat ≤ n) : LimbsAtMost n a :=
  limbsAtMost_iff.mpr fun j hj => by
    rcases Nat.lt_succ_iff_lt_or_eq.mp hj with h | rfl
    · exact (hlow j h).trans hn
    · exact htop

theorem limbsAtMost_feAdd {a b : Fe} (ha : ByteForm a) (hb : ByteForm b) : LimbsAtMost 511 (feAdd a b) := by
  have hterm (j : Nat) (hj : j < 32) : (limb (.ofFn fun j : Fin 32 => a[j] + b[j]) j).toNat ≤ 510 := by
    have hla := ha ⟨j, hj⟩
    have hlb := hb ⟨j, hj⟩
    rw [limb_ofFn _ j hj, BitVec.toNat_add]
    omega
  refine limbsAtMost_of_top (by norm_num) (carryPass_bytes _ _) ?_
  have hcarry := carriesOf_le_one (term := limb (.ofFn fun j => a[j] + b[j])) (fun j hj => hterm j (by omega)) 31 le_rfl
  have htop := hterm 31 (by decide)
  rw [feAdd, carryPass_top, BitVec.toNat_add]
  omega

/-- The top limb of a difference is at most 256 above the minuend's (70_reset_and_hazards.md R291). -/
theorem limbsAtMost_feSub {n : Nat} {a b : Fe} (ha : ByteForm a) (htop : (limb a 31).toNat ≤ n) (hb : Squeezed b) :
    LimbsAtMost (256 + n) (feSub a b) := by
  obtain ⟨-, hb31⟩ := squeezed_iff.mp hb
  have hle := feSub_top_le (n := 255) (by norm_num) ha hb.1 (by omega)
  exact limbsAtMost_of_top (by omega) (carryPass_bytes _ _) (by omega)

theorem fieldOf_feAdd {a b : Fe} (ha : ByteForm a) (hb : ByteForm b) : fieldOf (feAdd a b) = fieldOf a + fieldOf b := by
  have hvalue := value_feAdd (limbsAtMost_mono (by norm_num) ha) (limbsAtMost_mono (by norm_num) hb)
  rw [fieldOf, hvalue, Nat.cast_add, fieldOf, fieldOf]

theorem fieldOf_feSub {a b : Fe} (ha : ByteForm a) (hb : Squeezed b) : fieldOf (feSub a b) = fieldOf a - fieldOf b := by
  obtain ⟨-, hb31⟩ := squeezed_iff.mp hb
  have hvalue := value_feSub (n := 255) (by norm_num) ha hb.1 (by omega)
  have hcast := congrArg (Nat.cast : Nat → ZMod Config.P) hvalue
  rw [Nat.cast_add, Nat.cast_add, Nat.cast_mul, ZMod.natCast_self, mul_zero, add_zero] at hcast
  exact eq_sub_of_add_eq hcast

theorem fieldOf_feSquare {a : Fe} (ha : LimbsAtMost 1900 a) : fieldOf (feSquare a) = fieldOf a ^ 2 := by
  rw [feSquare, fieldOf_feMult ha ha, sq]

/-! ## The equations of a ladder step (42_ladder.md R174) -/

/-- The sub-steps of `LSTEP` before its closing `SEL`, as equations between the registers they leave. -/
structure StepEquations (b : Bool) (v : State) : Prop where
  x2 : v.getF 8 = if b then v.getF 6 else v.getF 4
  z2 : v.getF 9 = if b then v.getF 7 else v.getF 5
  x3 : v.getF 10 = if b then v.getF 4 else v.getF 6
  z3 : v.getF 11 = if b then v.getF 5 else v.getF 7
  a0x : v.getF 16 = feAdd (v.getF 8) (v.getF 9)
  a0z : v.getF 17 = feSub (v.getF 8) (v.getF 9)
  a1x : v.getF 18 = feAdd (v.getF 10) (v.getF 11)
  a1z : v.getF 19 = feSub (v.getF 10) (v.getF 11)
  b0x : v.getF 20 = feSquare (v.getF 16)
  b0z : v.getF 21 = feSquare (v.getF 17)
  b1x : v.getF 22 = feMult (v.getF 18) (v.getF 17)
  b1z : v.getF 23 = feMult (v.getF 19) (v.getF 16)
  c1x : v.getF 24 = feAdd (v.getF 22) (v.getF 23)
  c1z : v.getF 25 = feSub (v.getF 22) (v.getF 23)
  r : v.getF 26 = feSquare (v.getF 25)
  s : v.getF 27 = feSub (v.getF 20) (v.getF 21)
  t : v.getF 28 = feMulc (v.getF 27)
  u : v.getF 29 = feAdd (v.getF 28) (v.getF 20)
  doubledX : v.getF 12 = feMult (v.getF 20) (v.getF 21)
  doubledZ : v.getF 13 = feMult (v.getF 27) (v.getF 29)
  sumX : v.getF 14 = feSquare (v.getF 24)
  sumZ : v.getF 15 = feMult (v.getF 26) (v.getF 0)

theorem stepEquations_lstepMid (s : State) : StepEquations (scalarBit s.e s.pos) (lstepMid s) := by
  have h := lstepMid_holds s
  simp only [lstepBody, lstepPrims, List.dropLast_cons_cons, List.dropLast_singleton, List.forall_mem_cons, PrimHolds] at h
  obtain ⟨⟨hx2, hz2, hx3, hz3⟩, ha0x, ha0z, ha1x, ha1z, hb0x, hb0z, hb1x, hb1z, hc1x, hc1z, hr, hs, ht, hu, hdx, hdz, hsx, hsz,
    -⟩ := h
  exact ⟨hx2, hz2, hx3, hz3, ha0x, ha0z, ha1x, ha1z, hb0x, hb0z, hb1x, hb1z, hc1x, hc1z, hr, hs, ht, hu, hdx, hdz, hsx, hsz⟩

/-- The sub-steps before the closing `SEL` leave `F0`..`F7` alone. -/
theorem getF_lstepMid (s : State) {r : FReg} (h : r.val < 8) : (lstepMid s).getF r = s.getF r := by
  have hdests : ∀ b, ∀ p ∈ lstepBody b, ∀ r ∈ primDests p, 8 ≤ r.val := by decide
  exact getF_runPrims _ s r fun p hp hdest => by
    have := hdests _ p hp r hdest
    omega

/-! ## Bounds (42_ladder.md R177, 70_reset_and_hazards.md R291) -/

/-- The forms of X1 and of the accumulators in which every ladder over a byte-form X1 meets a step. -/
structure LadderForm (s : State) : Prop where
  x1 : LimbsAtMost 1900 (s.getF 0)
  x2 : ByteForm (s.getF 4)
  z2 : Squeezed (s.getF 5)
  x3 : ByteForm (s.getF 6)
  z3 : Squeezed (s.getF 7)

/-- The forms of the registers before the closing `SEL`. -/
structure StepForms (v : State) : Prop where
  x1 : LimbsAtMost 1900 (v.getF 0)
  x2 : ByteForm (v.getF 8)
  z2 : Squeezed (v.getF 9)
  x3 : ByteForm (v.getF 10)
  z3 : Squeezed (v.getF 11)
  a0x : LimbsAtMost 511 (v.getF 16)
  a0z : LimbsAtMost 511 (v.getF 17)
  a1x : LimbsAtMost 511 (v.getF 18)
  a1z : LimbsAtMost 511 (v.getF 19)
  b0x : Squeezed (v.getF 20)
  b0z : Squeezed (v.getF 21)
  b1x : Squeezed (v.getF 22)
  b1z : Squeezed (v.getF 23)
  c1x : LimbsAtMost 511 (v.getF 24)
  c1z : LimbsAtMost 511 (v.getF 25)
  r : Squeezed (v.getF 26)
  s : LimbsAtMost 384 (v.getF 27)
  t : Squeezed (v.getF 28)
  u : LimbsAtMost 511 (v.getF 29)

section
variable {b : Bool} {v : State} (eqs : StepEquations b v) (h : LadderForm v)
include eqs h

/-- The opening select hands on forms of the accumulators. -/
theorem selected_forms : ByteForm (v.getF 8) ∧ Squeezed (v.getF 9) ∧ ByteForm (v.getF 10) ∧ Squeezed (v.getF 11) := by
  rw [eqs.x2, eqs.z2, eqs.x3, eqs.z3]
  cases b
  · exact ⟨h.x2, h.z2, h.x3, h.z3⟩
  · exact ⟨h.x3, h.z3, h.x2, h.z2⟩

/-- The forms of the accumulators give those of every operand of the step. -/
theorem stepForms_of_equations : StepForms v := by
  obtain ⟨hx2, hz2, hx3, hz3⟩ := selected_forms eqs h
  have byteTop {a : Fe} (ha : ByteForm a) : (limb a 31).toNat ≤ 255 := limbsAtMost_iff.mp ha 31 (by decide)
  have hb0x : Squeezed (v.getF 20) := by rw [eqs.b0x]; exact squeezed_feMult _ _
  have hb0z : Squeezed (v.getF 21) := by rw [eqs.b0z]; exact squeezed_feMult _ _
  have hb1x : Squeezed (v.getF 22) := by rw [eqs.b1x]; exact squeezed_feMult _ _
  have hb1z : Squeezed (v.getF 23) := by rw [eqs.b1z]; exact squeezed_feMult _ _
  have ht : Squeezed (v.getF 28) := by rw [eqs.t]; exact squeezed_feSqueeze _
  exact {
    x1 := h.x1
    x2 := hx2
    z2 := hz2
    x3 := hx3
    z3 := hz3
    a0x := by rw [eqs.a0x]; exact limbsAtMost_feAdd hx2 hz2.1
    a0z := by rw [eqs.a0z]; exact limbsAtMost_feSub hx2 (byteTop hx2) hz2
    a1x := by rw [eqs.a1x]; exact limbsAtMost_feAdd hx3 hz3.1
    a1z := by rw [eqs.a1z]; exact limbsAtMost_feSub hx3 (byteTop hx3) hz3
    b0x := hb0x
    b0z := hb0z
    b1x := hb1x
    b1z := hb1z
    c1x := by rw [eqs.c1x]; exact limbsAtMost_feAdd hb1x.1 hb1z.1
    c1z := by rw [eqs.c1z]; exact limbsAtMost_feSub hb1x.1 (byteTop hb1x.1) hb1z
    r := by rw [eqs.r]; exact squeezed_feMult _ _
    s := by rw [eqs.s]; exact limbsAtMost_feSub hb0x.1 (squeezed_iff.mp hb0x).2 hb0z
    t := ht
    u := by rw [eqs.u]; exact limbsAtMost_feAdd ht.1 hb0x.1 }

end

theorem ladderForm_lstepMid {s : State} (h : LadderForm s) : LadderForm (lstepMid s) := by
  refine ⟨?_, ?_, ?_, ?_, ?_⟩
  all_goals rw [getF_lstepMid s (by decide)]
  exacts [h.x1, h.x2, h.z2, h.x3, h.z3]

theorem ladderForm_lstepEffect {s : State} (h : LadderForm s) : LadderForm (lstepEffect s) := by
  obtain ⟨h4, h5, h6, h7⟩ := squeezed_lstepEffect s
  exact ⟨(getF_lstepEffect s (r := 0) (by decide)).symm ▸ h.x1, h4.1, h5, h6.1, h7⟩

theorem ladderForm_iterate {s : State} (h : LadderForm s) (n : Nat) : LadderForm (lstepEffect^[n] s) := by
  induction n generalizing s with
  | zero => exact h
  | succ n ih => exact ih (ladderForm_lstepEffect h)

/-- A step over a byte-form X1 leaves every register that was an operand within its bound (R177). -/
theorem stepOperandsBounded_of_forms {t v : State} (hmid : ∀ r : FReg, r.val < 4 ∨ 7 < r.val → t.getF r = v.getF r)
    (hx1 : ByteForm (v.getF 0)) (forms : StepForms v) : StepOperandsBounded t := by
  have bytes {a : Fe} (ha : ByteForm a) : LimbsAtMost 511 a := limbsAtMost_mono (by norm_num) ha
  simp only [StepOperandsBounded, List.forall_mem_cons, ← State.getF_eq]
  simp (disch := decide) only [hmid]
  exact ⟨⟨bytes hx1, forms.a0x, forms.a0z, forms.a1x, forms.a1z, bytes forms.b0x.1, bytes forms.b0z.1, forms.c1x, forms.c1z,
      bytes forms.r.1, limbsAtMost_mono (by norm_num) forms.s, forms.u, nofun⟩,
    forms.s, ⟨forms.z2, forms.z3, forms.b0z, forms.b1z, nofun⟩,
    ⟨forms.x2, forms.z2.1, forms.x3, forms.z3.1, forms.b0x.1, forms.b1x.1, forms.b1z.1, forms.t.1, nofun⟩⟩

theorem stepOperandsBounded_lstepEffect {s : State} (hx1 : ByteForm (s.getF 0)) (h : LadderForm s) :
    StepOperandsBounded (lstepEffect s) := by
  have hx1' : ByteForm ((lstepMid s).getF 0) := by rwa [getF_lstepMid s (by decide)]
  exact stepOperandsBounded_of_forms (fun r => getF_lstepEffect_of_mid s) hx1'
    (stepForms_of_equations (stepEquations_lstepMid s) (ladderForm_lstepMid h))

/-! ## Field values (42_ladder.md R174) -/

theorem ladderPointOf_eq (s : State) :
    ladderPointOf s = ⟨fieldOf (s.getF 4), fieldOf (s.getF 5), fieldOf (s.getF 6), fieldOf (s.getF 7)⟩ := rfl

section
variable {b : Bool} {v : State} (eqs : StepEquations b v)
include eqs

/-- The pairs after the opening select, in field terms. -/
theorem swapPoint_of_equations :
    swapPoint b (ladderPointOf v) =
      ⟨fieldOf (v.getF 8), fieldOf (v.getF 9), fieldOf (v.getF 10), fieldOf (v.getF 11)⟩ := by
  rw [eqs.x2, eqs.z2, eqs.x3, eqs.z3, ladderPointOf_eq]
  cases b <;> rfl

/-- The doubled pair and the sum pair, in field terms: each equation has its field value within the bounds (R174). -/
theorem doubleAndAdd_of_equations (forms : StepForms v) :
    doubleAndAdd (fieldOf (v.getF 0)) (swapPoint b (ladderPointOf v)) =
      ⟨fieldOf (v.getF 12), fieldOf (v.getF 13), fieldOf (v.getF 14), fieldOf (v.getF 15)⟩ := by
  have wide {n : Nat} {a : Fe} (ha : LimbsAtMost n a) (hn : n ≤ 1900 := by norm_num) : LimbsAtMost 1900 a :=
    limbsAtMost_mono hn ha
  have ha0x : fieldOf (v.getF 16) = fieldOf (v.getF 8) + fieldOf (v.getF 9) := by
    rw [eqs.a0x, fieldOf_feAdd forms.x2 forms.z2.1]
  have ha0z : fieldOf (v.getF 17) = fieldOf (v.getF 8) - fieldOf (v.getF 9) := by
    rw [eqs.a0z, fieldOf_feSub forms.x2 forms.z2]
  have ha1x : fieldOf (v.getF 18) = fieldOf (v.getF 10) + fieldOf (v.getF 11) := by
    rw [eqs.a1x, fieldOf_feAdd forms.x3 forms.z3.1]
  have ha1z : fieldOf (v.getF 19) = fieldOf (v.getF 10) - fieldOf (v.getF 11) := by
    rw [eqs.a1z, fieldOf_feSub forms.x3 forms.z3]
  have hb0x : fieldOf (v.getF 20) = fieldOf (v.getF 16) ^ 2 := by rw [eqs.b0x, fieldOf_feSquare (wide forms.a0x)]
  have hb0z : fieldOf (v.getF 21) = fieldOf (v.getF 17) ^ 2 := by rw [eqs.b0z, fieldOf_feSquare (wide forms.a0z)]
  have hb1x : fieldOf (v.getF 22) = fieldOf (v.getF 18) * fieldOf (v.getF 17) := by
    rw [eqs.b1x, fieldOf_feMult (wide forms.a1x) (wide forms.a0z)]
  have hb1z : fieldOf (v.getF 23) = fieldOf (v.getF 19) * fieldOf (v.getF 16) := by
    rw [eqs.b1z, fieldOf_feMult (wide forms.a1z) (wide forms.a0x)]
  have hc1x : fieldOf (v.getF 24) = fieldOf (v.getF 22) + fieldOf (v.getF 23) := by
    rw [eqs.c1x, fieldOf_feAdd forms.b1x.1 forms.b1z.1]
  have hc1z : fieldOf (v.getF 25) = fieldOf (v.getF 22) - fieldOf (v.getF 23) := by
    rw [eqs.c1z, fieldOf_feSub forms.b1x.1 forms.b1z]
  have hr : fieldOf (v.getF 26) = fieldOf (v.getF 25) ^ 2 := by rw [eqs.r, fieldOf_feSquare (wide forms.c1z)]
  have hs : fieldOf (v.getF 27) = fieldOf (v.getF 20) - fieldOf (v.getF 21) := by
    rw [eqs.s, fieldOf_feSub forms.b0x.1 forms.b0z]
  have ht : fieldOf (v.getF 28) = 121665 * fieldOf (v.getF 27) := by
    rw [eqs.t, fieldOf_feMulc (limbsAtMost_mono (by norm_num) forms.s)]
  have hu : fieldOf (v.getF 29) = fieldOf (v.getF 28) + fieldOf (v.getF 20) := by
    rw [eqs.u, fieldOf_feAdd forms.t.1 forms.b0x.1]
  rw [swapPoint_of_equations eqs, eqs.doubledX, eqs.doubledZ, eqs.sumX, eqs.sumZ,
    fieldOf_feMult (wide forms.b0x.1) (wide forms.b0z.1), fieldOf_feMult (wide forms.s) (wide forms.u),
    fieldOf_feSquare (wide forms.c1x), fieldOf_feMult (wide forms.r.1) forms.x1, hu, ht, hs, hr, hc1x, hc1z, hb0x, hb0z, hb1x,
    hb1z, ha0x, ha0z, ha1x, ha1z, doubleAndAdd, LadderPoint.mk.injEq]
  exact ⟨by ring, by ring, by ring, by ring⟩

end

theorem ladderPointOf_lstepMid (s : State) : ladderPointOf (lstepMid s) = ladderPointOf s := by
  rw [ladderPointOf_eq, getF_lstepMid s (r := 4) (by decide), getF_lstepMid s (r := 5) (by decide),
    getF_lstepMid s (r := 6) (by decide), getF_lstepMid s (r := 7) (by decide), ladderPointOf_eq]

/-- One `LSTEP` is one step of the field ladder (R174). -/
theorem ladderPointOf_lstepEffect {s : State} (h : LadderForm s) :
    ladderPointOf (lstepEffect s) =
      fieldStep (fieldOf (s.getF 0)) ((bytesValue s.e).testBit s.pos.toNat) (ladderPointOf s) := by
  obtain ⟨h4, h5, h6, h7⟩ := lstepEffect_accumulators s
  have eqs := stepEquations_lstepMid s
  have hmid := doubleAndAdd_of_equations eqs (stepForms_of_equations eqs (ladderForm_lstepMid h))
  rw [getF_lstepMid s (by decide), ladderPointOf_lstepMid] at hmid
  rw [← scalarBit_eq, fieldStep, hmid, ladderPointOf_eq, h4, h5, h6, h7]
  cases scalarBit s.e s.pos <;> rfl

/-- With `n` steps pending, `n` times `LSTEP` is the field ladder over the bits still to come (R173, R176). -/
theorem ladderPointOf_iterate {s : State} (h : LadderForm s) {n : Nat} (hn : (s.pos + 1).toNat = n) :
    ladderPointOf (lstepEffect^[n] s) = fieldLadder (fieldOf (s.getF 0)) (bytesValue s.e) n (ladderPointOf s) := by
  induction n generalizing s with
  | zero => rfl
  | succ n ih =>
    have hbit : s.pos.toNat = n := by bv_omega
    have hleft : ((lstepEffect s).pos + 1).toNat = n := by
      rw [lstepEffect_pos]
      bv_omega
    rw [Function.iterate_succ_apply, ih (ladderForm_lstepEffect h) hleft, getF_lstepEffect s (by decide), lstepEffect_e,
      ladderPointOf_lstepEffect h, hbit, fieldLadder]

/-! ## The whole ladder (42_ladder.md R172, R176) -/

theorem getF_linitEffect (s : State) :
    (linitEffect s).getF 0 = s.getF 0 ∧ (linitEffect s).getF 4 = immFe 1 ∧ (linitEffect s).getF 5 = immFe 0 ∧
      (linitEffect s).getF 6 = s.getF 0 ∧ (linitEffect s).getF 7 = immFe 1 := by
  have h0 := getF_runPrims linitPrims s 0 (by decide)
  have hsingle := primHolds_runPrims (ps := linitPrims) (by decide) s
  simp only [linitPrims, List.forall_mem_cons, PrimHolds] at hsingle
  obtain ⟨h4, h5, h6, h7, -⟩ := hsingle
  exact ⟨h0, h4, h5, h6.trans h0, h7⟩

theorem squeezed_immFe (imm : Byte) : Squeezed (immFe imm) :=
  ⟨byteForm_immFe imm, by
    rw [← limb_of_lt _ 31 (by decide), limb_immFe imm 31 (by decide), if_neg (by decide)]
    exact Nat.zero_le _⟩

theorem ladderForm_linitEffect {s : State} (hx1 : ByteForm (s.getF 0)) : LadderForm (linitEffect s) := by
  obtain ⟨h0, h4, h5, h6, h7⟩ := getF_linitEffect s
  exact ⟨h0 ▸ limbsAtMost_mono (by norm_num) hx1, h4 ▸ byteForm_immFe 1, h5 ▸ squeezed_immFe 0, h6 ▸ hx1, h7 ▸ squeezed_immFe 1⟩

theorem fieldOf_immFe (imm : Byte) : fieldOf (immFe imm) = (imm.toNat : ZMod Config.P) := by
  rw [fieldOf, value_immFe]

theorem ladderPointOf_linitEffect (s : State) : ladderPointOf (linitEffect s) = ⟨1, 0, fieldOf (s.getF 0), 1⟩ := by
  obtain ⟨-, h4, h5, h6, h7⟩ := getF_linitEffect s
  rw [ladderPointOf_eq, h4, h5, h6, h7, fieldOf_immFe, fieldOf_immFe]
  simp

/-- The accumulators at the end of the 255 steps are the end of the field ladder. -/
theorem ladderPointOf_ladder {s : State} (hx1 : ByteForm (s.getF 0)) :
    ladderPointOf (lstepEffect^[Config.nStep] (linitEffect s)) = fieldLadderEnd (fieldOf (s.getF 0)) (bytesValue s.e) := by
  obtain ⟨h0, -⟩ := getF_linitEffect s
  have hsteps : ((linitEffect s).pos + 1).toNat = Config.nStep := by
    rw [linitEffect_pos]
    rfl
  rw [ladderPointOf_iterate (ladderForm_linitEffect hx1) hsteps, ladderPointOf_linitEffect, h0, linitEffect_e, fieldLadderEnd]

/-- `LADDER`'s registers hold the end of the field ladder (R176). -/
theorem fieldOf_ladderEffect {s : State} (hx1 : ByteForm (s.getF 0)) :
    fieldOf ((ladderEffect s).getF 0) = (fieldLadderEnd (fieldOf (s.getF 0)) (bytesValue s.e)).x2 ∧
      fieldOf ((ladderEffect s).getF 1) = (fieldLadderEnd (fieldOf (s.getF 0)) (bytesValue s.e)).z2 ∧
      fieldOf ((ladderEffect s).getF 6) = (fieldLadderEnd (fieldOf (s.getF 0)) (bytesValue s.e)).x3 ∧
      fieldOf ((ladderEffect s).getF 7) = (fieldLadderEnd (fieldOf (s.getF 0)) (bytesValue s.e)).z3 := by
  obtain ⟨h0, h1⟩ := getF_ladderEffect_result s
  rw [← ladderPointOf_ladder hx1, ladderPointOf_eq, h0, h1, getF_ladderEffect_of_ne s (r := 6) (by decide) (by decide),
    getF_ladderEffect_of_ne s (r := 7) (by decide) (by decide)]
  exact ⟨rfl, rfl, rfl, rfl⟩

/-! ## The statements -/

/-- Settles O31: every equation of the step has its field value, and the closing select exchanges the pairs back. -/
theorem ladderStepFieldFormulas : Obligations.LadderStepFieldFormulas := by
  unfold Obligations.LadderStepFieldFormulas
  intro s hpos hx1 hx2 hz2 hx3 hz3
  obtain ⟨h4, h5, h6, h7⟩ := squeezed_lstepEffect s
  exact ⟨lstepEffect s, if_neg hpos, ladderPointOf_lstepEffect ⟨hx1, hx2, hz2, hx3, hz3⟩, h4, h5, h6, h7,
    getF_lstepEffect s (r := 0) (by decide), lstepEffect_pos s⟩

/-- Settles O34: the steps compute the field ladder one by one, and each meets accumulators in form. -/
theorem ladderComputesFieldLadder : Obligations.LadderComputesFieldLadder := by
  unfold Obligations.LadderComputesFieldLadder
  intro s hx1
  refine ⟨⟨ladderEffect s, rfl, fieldOf_ladderEffect hx1⟩, fun n hn => ?_⟩
  have hform := ladderForm_iterate (ladderForm_linitEffect (s := s) hx1) n
  obtain ⟨h0, -⟩ := getF_linitEffect s
  have hbytes : ByteForm ((lstepEffect^[n] (linitEffect s)).getF 0) := by
    rw [getF_lstepIterate n _ (by decide), h0]
    exact hx1
  refine ⟨_, (acceptedRun_linit_lsteps (n := n + 1) (by omega) s).execAll, ?_⟩
  rw [Function.iterate_succ_apply']
  exact stepOperandsBounded_lstepEffect hbytes hform

end Sys2Proof.Proofs.LadderField
end

section
/-! PROOFS of the statement that RECIP computes a power (spec/43_recip.md R190). The squarings and products of its list act on the
exponents of the registers known to hold powers of z; which exponents they leave is a computation on numbers alone. -/

open Sys2Proof Sys2Proof.Machine Sys2Proof.Proofs.Encoding Sys2Proof.Proofs.FieldArith Sys2Proof.Proofs.Listings
  Sys2Proof.Proofs.LadderField

namespace Sys2Proof.Proofs.RecipPower

/-! ## Registers that hold powers -/

/-- The register's field value is z^e, and its limbs are small enough to multiply (R136). -/
structure HoldsPower (z : ZMod Config.P) (e : Nat) (a : Fe) : Prop where
  small : LimbsAtMost 1900 a
  value : fieldOf a = z ^ e

theorem holdsPower_feMult {z : ZMod Config.P} {d e : Nat} {a b : Fe} (ha : HoldsPower z d a) (hb : HoldsPower z e b) :
    HoldsPower z (d + e) (feMult a b) where
  small := limbsAtMost_mono (by norm_num) (squeezed_feMult a b).1
  value := by rw [fieldOf_feMult ha.small hb.small, ha.value, hb.value, pow_add]

theorem holdsPower_feSquare {z : ZMod Config.P} {e : Nat} {a : Fe} (ha : HoldsPower z e a) :
    HoldsPower z (2 * e) (feSquare a) := by
  rw [feSquare, two_mul]
  exact holdsPower_feMult ha ha

/-- The exponents known of registers, the latest first. -/
abbrev Exponents := List (FReg × Nat)

/-- Every register with a known exponent holds that power of z. -/
def HoldPowers (z : ZMod Config.P) (m : Exponents) (s : State) : Prop :=
  ∀ r e, m.lookup r = some e → HoldsPower z e (s.getF r)

/-- The exponents known after a squaring or a product of registers with known exponents. -/
def exponentsAfter (m : Exponents) : Prim → Option Exponents
  | .sqr rd ra => (m.lookup ra).map fun e => (rd, 2 * e) :: m
  | .mul rd ra rb => (m.lookup ra).bind fun d => (m.lookup rb).map fun e => (rd, d + e) :: m
  | .add _ _ _ => none
  | .sub _ _ _ => none
  | .mulc _ _ => none
  | .frz _ => none
  | .sel _ _ _ _ _ => none
  | .mov _ _ => none
  | .setc _ _ => none
  | .ldpt _ => none
  | .stq _ => none
  | .clamp => none

/-- A register written with a power is known, and the others are as before. -/
theorem holdPowers_setF {z : ZMod Config.P} {m : Exponents} {s : State} {rd : FReg} {e : Nat} {v : Fe} (h : HoldPowers z m s)
    (hv : HoldsPower z e v) : HoldPowers z ((rd, e) :: m) (s.setF rd v) := by
  intro r e' hr
  rw [List.lookup_cons] at hr
  rw [State.getF_setF]
  by_cases hrd : r = rd
  · subst hrd
    obtain rfl : e = e' := by simpa using hr
    simpa using hv
  · rw [beq_false_of_ne hrd] at hr
    rw [if_neg (Ne.symm hrd)]
    exact h r e' hr

theorem holdPowers_cons {z : ZMod Config.P} {m : Exponents} {s : State} {r : FReg} {e : Nat} (h : HoldPowers z m s)
    (hr : HoldsPower z e (s.getF r)) : HoldPowers z ((r, e) :: m) s := by
  have hset := holdPowers_setF (rd := r) h hr
  rwa [MoveControl.setF_getF_self] at hset

theorem holdPowers_primEffect {z : ZMod Config.P} {m m' : Exponents} {s : State} {p : Prim} (h : HoldPowers z m s)
    (hp : exponentsAfter m p = some m') : HoldPowers z m' (primEffect p s) := by
  cases p with
  | sqr rd ra =>
    obtain ⟨e, he, rfl⟩ := Option.map_eq_some_iff.mp hp
    exact holdPowers_setF h (holdsPower_feSquare (h ra e he))
  | mul rd ra rb =>
    obtain ⟨d, hd, hp⟩ := Option.bind_eq_some_iff.mp hp
    obtain ⟨e, he, rfl⟩ := Option.map_eq_some_iff.mp hp
    exact holdPowers_setF h (holdsPower_feMult (h ra d hd) (h rb e he))
  | add | sub | mulc | frz | sel | mov | setc | ldpt | stq | clamp => cases hp

theorem holdPowers_runPrims {z : ZMod Config.P} {ps : List Prim} {m m' : Exponents} {s : State} (h : HoldPowers z m s)
    (hps : ps.foldlM exponentsAfter m = some m') : HoldPowers z m' (runPrims ps s) := by
  induction ps generalizing m s with
  | nil =>
    obtain rfl := Option.some.inj hps
    exact h
  | cons p ps ih =>
    rw [List.foldlM_cons] at hps
    obtain ⟨m₁, hp, hps⟩ := Option.bind_eq_some_iff.mp hps
    exact ih (holdPowers_primEffect h hp) hps

/-! ## The addition chain of RECIP -/

/-- The exponents that the sub-steps which read the source leave in `F4`..`F7`, from z alone (R190). -/
theorem exponents_recipTo5 (ra : FReg) (ha : inRecipScratch ra = false) :
    ((recipTo5 ra).foldlM exponentsAfter [(ra, 1)]).map (fun m => [4, 5, 6, 7].map fun r => m.lookup r) =
      some ([2, 9, 11, 2 ^ 5 - 1].map some) := by
  revert ra
  decide +kernel

/-- The exponents that the list leaves in `F4`..`F13` before its last product (R190). -/
theorem exponents_recipMiddle :
    (recipMiddle.foldlM exponentsAfter [(4, 2), (5, 9), (6, 11), (7, 2 ^ 5 - 1)]).map
        (fun m => [4, 5, 6, 7, 8, 9, 10, 11, 12, 13].map fun r => m.lookup r) =
      some ([2, 9, 11, 2 ^ 5 - 1, 2 ^ 10 - 1, 2 ^ 20 - 1, 2 ^ 50 - 1, 2 ^ 100 - 1, 2 ^ 254 - 16, 2 ^ 255 - 32].map some) := by
  decide +kernel

/-- What the scratch registers hold before the last product. -/
structure ScratchPowers (z : ZMod Config.P) (s : State) : Prop where
  z2 : HoldsPower z 2 (s.getF 4)
  z9 : HoldsPower z 9 (s.getF 5)
  z11 : HoldsPower z 11 (s.getF 6)
  z5 : HoldsPower z (2 ^ 5 - 1) (s.getF 7)
  z10 : HoldsPower z (2 ^ 10 - 1) (s.getF 8)
  z20 : HoldsPower z (2 ^ 20 - 1) (s.getF 9)
  z50 : HoldsPower z (2 ^ 50 - 1) (s.getF 10)
  z100 : HoldsPower z (2 ^ 100 - 1) (s.getF 11)
  t0 : HoldsPower z (2 ^ 254 - 16) (s.getF 12)
  t1 : HoldsPower z (2 ^ 255 - 32) (s.getF 13)

theorem holdPowers_recipTo5 {ra : FReg} (ha : ¬(4 ≤ ra.val ∧ ra.val ≤ 13)) {s : State} (hz : LimbsAtMost 1900 (s.getF ra)) :
    HoldPowers (fieldOf (s.getF ra)) [(4, 2), (5, 9), (6, 11), (7, 2 ^ 5 - 1)] (runPrims (recipTo5 ra) s) := by
  rw [← inRecipScratch_iff, Bool.not_eq_true] at ha
  have hstart : HoldPowers (fieldOf (s.getF ra)) [(ra, 1)] s := holdPowers_cons nofun ⟨hz, (pow_one _).symm⟩
  obtain ⟨m, hm, hlookup⟩ := Option.map_eq_some_iff.mp (exponents_recipTo5 ra ha)
  have hend := holdPowers_runPrims hstart hm
  simp only [List.map_cons, List.map_nil, List.cons.injEq, and_true] at hlookup
  obtain ⟨h4, h5, h6, h7⟩ := hlookup
  exact holdPowers_cons (holdPowers_cons (holdPowers_cons (holdPowers_cons nofun (hend _ _ h7)) (hend _ _ h6)) (hend _ _ h5))
    (hend _ _ h4)

theorem scratchPowers_recipInit {ra : FReg} (ha : ¬(4 ≤ ra.val ∧ ra.val ≤ 13)) {s : State}
    (hz : LimbsAtMost 1900 (s.getF ra)) : ScratchPowers (fieldOf (s.getF ra)) (runPrims (recipInit ra) s) := by
  obtain ⟨m, hm, hlookup⟩ := Option.map_eq_some_iff.mp exponents_recipMiddle
  have hend := holdPowers_runPrims (holdPowers_recipTo5 ha hz) hm
  simp only [List.map_cons, List.map_nil, List.cons.injEq, and_true] at hlookup
  obtain ⟨h4, h5, h6, h7, h8, h9, h10, h11, h12, h13⟩ := hlookup
  rw [recipInit, runPrims_append]
  exact ⟨hend _ _ h4, hend _ _ h5, hend _ _ h6, hend _ _ h7, hend _ _ h8, hend _ _ h9, hend _ _ h10, hend _ _ h11, hend _ _ h12,
    hend _ _ h13⟩

/-- The result of `RECIP` is z^(P-2) (R190). -/
theorem fieldOf_recipEffect (rd : FReg) {ra : FReg} (ha : ¬(4 ≤ ra.val ∧ ra.val ≤ 13)) {s : State}
    (hz : LimbsAtMost 1900 (s.getF ra)) : fieldOf ((recipEffect rd ra s).getF rd) = fieldOf (s.getF ra) ^ (Config.P - 2) := by
  have hscratch := scratchPowers_recipInit ha hz
  have hexponent : 2 ^ 255 - 32 + 11 = Config.P - 2 := by decide
  rw [getF_recipEffect, ← hexponent]
  exact (holdsPower_feMult hscratch.t1 hscratch.z11).value

/-! ## The statement -/

/-- Settles O36: the chain's exponents are computed once for all sources, and the last product adds up to P - 2. -/
theorem recipComputesPower : Obligations.RecipComputesPower := by
  unfold Obligations.RecipComputesPower
  intro rd ra s hd ha hz
  have hscratch := scratchPowers_recipInit ha hz
  have hkept (r : FReg) (hr : 4 ≤ r.val ∧ r.val ≤ 13) : (recipEffect rd ra s).getF r = (runPrims (recipInit ra) s).getF r :=
    getF_recipEffect_of_ne ra s fun h => hd (h ▸ hr)
  have hpower (r : FReg) (hr : 4 ≤ r.val ∧ r.val ≤ 13) {e : Nat}
      (h : HoldsPower (fieldOf (s.getF ra)) e ((runPrims (recipInit ra) s).getF r)) :
      fieldOf ((recipEffect rd ra s).getF r) = fieldOf (s.getF ra) ^ e := by
    rw [hkept r hr, h.value]
  exact ⟨recipEffect rd ra s, exec_recip hd ha s, fieldOf_recipEffect rd ha hz, hpower 4 (by decide) hscratch.z2,
    hpower 5 (by decide) hscratch.z9, hpower 6 (by decide) hscratch.z11, hpower 7 (by decide) hscratch.z5,
    hpower 8 (by decide) hscratch.z10, hpower 9 (by decide) hscratch.z20, hpower 10 (by decide) hscratch.z50,
    hpower 11 (by decide) hscratch.z100, hpower 12 (by decide) hscratch.t0, hpower 13 (by decide) hscratch.t1⟩

end Sys2Proof.Proofs.RecipPower
end

section
/-! PROOFS of the statements about the result of SMULT (spec/44_scalarmult.md R204, R206) and of the printed examples of the field
commands (spec/40_field_arith.md R124 to R130). The result is the field ladder's X times the inverse of its Z; for a point of
small order the ladder alternates between pairs with X·Z = 0 and pairs with Z = ±X, and ends on the first kind under a clamped
scalar. -/

open Sys2Proof Sys2Proof.Machine Sys2Proof.Proofs.FieldArith Sys2Proof.Proofs.Ladder Sys2Proof.Proofs.ScalarMult
  Sys2Proof.Proofs.Listings Sys2Proof.Proofs.LadderField Sys2Proof.Proofs.RecipPower

namespace Sys2Proof.Proofs.X25519

/-! ## The result of SMULT (R204) -/

/-- Freezing keeps the field value of a squeezed register (40_field_arith.md R130). -/
theorem fieldOf_feFreeze {a : Fe} (h : Squeezed a) : fieldOf (feFreeze a) = fieldOf a := by
  obtain ⟨-, hvalue⟩ := canonical_feFreeze h.1 (value_lt_two_P_of_squeezed h)
  rw [fieldOf, hvalue, ZMod.natCast_mod, fieldOf]

/-- From a squeezed X and Z the end of `SMULT` computes X · Z^(P-2). -/
theorem fieldOf_scalarMultEnd {s : State} (hx : Squeezed (s.getF 0)) (hz : Squeezed (s.getF 1)) :
    fieldOf ((scalarMultEnd s).getF 2) = fieldOf (s.getF 0) * fieldOf (s.getF 1) ^ (Config.P - 2) := by
  obtain ⟨hresult, -⟩ := scalarMultEnd_result s
  have small {a : Fe} (ha : Squeezed a) : LimbsAtMost 1900 a := limbsAtMost_mono (by norm_num) ha.1
  have hkept : (recipEffect 1 1 s).getF 0 = s.getF 0 := by
    rw [getF_recipEffect_of_ne 1 s (by decide), getF_recipInit 1 s (by decide)]
  have hinverse := fieldOf_recipEffect 1 (ra := 1) (by decide) (small hz)
  rw [hresult, fieldOf_feFreeze (squeezed_feMult _ _), hkept,
    fieldOf_feMult (small hx) (small (squeezed_recipEffect 1 1 s)), hinverse]

/-- The result is below `P`, and in the field it is X25519 of the clamped scalar and the point (R204). -/
theorem smultEffect_result (s : State) :
    (bytesValue (smultEffect s).q : ZMod Config.P) = x25519 (bytesValue (clampScalar s.n)) (bytesValue s.pt : ZMod Config.P) ∧
      bytesValue (smultEffect s).q < Config.P := by
  have hpoint := getF_smultStart s
  have hx1 : ByteForm ((smultStart s).getF 0) := hpoint ▸ byteForm_feOfBytes s.pt
  obtain ⟨hx, hz⟩ := squeezed_ladderEffect (smultStart s)
  obtain ⟨hladderX, hladderZ, -⟩ := fieldOf_ladderEffect hx1
  have hvalue : bytesValue (smultEffect s).q = value ((smultEffect s).getF 2) := by
    rw [bytesValue, smultEffect_eq, ← scalarMultEnd_bytes]
  have hcanonical := canonical_scalarMultEnd (ladderEffect (smultStart s))
  rw [← smultEffect_eq] at hcanonical
  refine ⟨?_, hvalue ▸ hcanonical.2⟩
  rw [hvalue, ← fieldOf, smultEffect_eq, fieldOf_scalarMultEnd hx hz, hladderX, hladderZ, hpoint, smultStart_e]
  rfl

/-! ## Points of small order (R206) -/

/-- The first pair is at the identity or at the point of order 2 (X·Z = 0), the second has Z = `c`·X. -/
structure SmallOrderPair (c : ZMod Config.P) (p : LadderPoint) : Prop where
  axis : p.x2 * p.z2 = 0
  slope : p.z3 = c * p.x3

section
variable {c : ZMod Config.P}

/-- Doubling a pair with X·Z = 0 gives such a pair. -/
theorem double_axis (x1 : ZMod Config.P) {p : LadderPoint} (h : p.x2 * p.z2 = 0) :
    (doubleAndAdd x1 p).x2 * (doubleAndAdd x1 p).z2 = 0 := by
  simp only [doubleAndAdd]
  linear_combination ((p.x2 + p.z2) ^ 2 * (p.x2 - p.z2) ^ 2 * 4 *
    ((p.x2 + p.z2) ^ 2 + 121665 * ((p.x2 + p.z2) ^ 2 - (p.x2 - p.z2) ^ 2))) * h

/-- Doubling a pair with Z = ±X gives X = 0. -/
theorem double_slope (hc : c ^ 2 = 1) (x1 : ZMod Config.P) {p : LadderPoint} (h : p.z2 = c * p.x2) :
    (doubleAndAdd x1 p).x2 * (doubleAndAdd x1 p).z2 = 0 := by
  have hx : (doubleAndAdd x1 p).x2 = 0 := by
    simp only [doubleAndAdd, h]
    linear_combination p.x2 ^ 4 * (c ^ 2 - 1) * hc
  rw [hx, zero_mul]

/-- The sum over a difference with Z = ±X has that slope where the second pair has it. -/
theorem add_slope_second (hc : c ^ 2 = 1) {p : LadderPoint} (h : p.z3 = c * p.x3) :
    (doubleAndAdd c p).z3 = c * (doubleAndAdd c p).x3 := by
  simp only [doubleAndAdd, h]
  linear_combination 4 * c * p.x3 ^ 2 * (p.x2 ^ 2 - p.z2 ^ 2) * hc

/-- The sum over a difference with Z = ±X has that slope where the first pair has it. -/
theorem add_slope_first (hc : c ^ 2 = 1) {p : LadderPoint} (h : p.z2 = c * p.x2) :
    (doubleAndAdd c p).z3 = c * (doubleAndAdd c p).x3 := by
  simp only [doubleAndAdd, h]
  linear_combination 4 * c * p.x2 ^ 2 * (p.x3 ^ 2 - p.z3 ^ 2) * hc

theorem swapPoint_swapPoint (b : Bool) (p : LadderPoint) : swapPoint b (swapPoint b p) = p := by
  cases b <;> rfl

/-- Whichever of the two pairs is doubled, the doubled pair is on an axis and the sum has the slope. -/
theorem smallOrderPair_doubleAndAdd (hc : c ^ 2 = 1) {p : LadderPoint} (b b' : Bool) (h : SmallOrderPair c (swapPoint b p)) :
    SmallOrderPair c (doubleAndAdd c (swapPoint b' p)) := by
  obtain ⟨haxis, hslope⟩ := h
  cases b <;> cases b'
  case false.false | true.true => exact ⟨double_axis c haxis, add_slope_second hc hslope⟩
  case false.true | true.false => exact ⟨double_slope hc c hslope, add_slope_first hc hslope⟩

/-- After a step the pairs stand in the order of its bit. -/
theorem smallOrderPair_fieldStep (hc : c ^ 2 = 1) {p : LadderPoint} (b b' : Bool) (h : SmallOrderPair c (swapPoint b p)) :
    SmallOrderPair c (swapPoint b' (fieldStep c b' p)) := by
  rw [fieldStep, swapPoint_swapPoint]
  exact smallOrderPair_doubleAndAdd hc b b' h

/-- After the last step the pairs stand in the order of bit 0. -/
theorem smallOrderPair_fieldLadder (hc : c ^ 2 = 1) (k n : Nat) {p : LadderPoint} (b : Bool)
    (h : SmallOrderPair c (swapPoint b p)) :
    SmallOrderPair c (swapPoint (k.testBit 0) (fieldLadder c k (n + 1) p)) := by
  induction n generalizing p b with
  | zero => exact smallOrderPair_fieldStep hc b _ h
  | succ n ih => exact ih _ (smallOrderPair_fieldStep hc b _ h)

/-- Over the points 1 and -1, and under an even scalar, the ladder ends with X·Z = 0. -/
theorem fieldLadderEnd_axis_of_sq_eq_one (hc : c ^ 2 = 1) {k : Nat} (hk : k.testBit 0 = false) :
    (fieldLadderEnd c k).x2 * (fieldLadderEnd c k).z2 = 0 := by
  have hstart : SmallOrderPair c (swapPoint false ⟨1, 0, c, 1⟩) := ⟨mul_zero 1, by rw [← hc, sq]; rfl⟩
  have hend := smallOrderPair_fieldLadder hc k 254 false hstart
  rw [hk] at hend
  exact hend.axis

end

/-- Over the point 0 both pairs stay on an axis. -/
theorem fieldLadder_axis_of_zero (k n : Nat) {p : LadderPoint} (h2 : p.x2 * p.z2 = 0) (h3 : p.x3 * p.z3 = 0) :
    (fieldLadder 0 k n p).x2 * (fieldLadder 0 k n p).z2 = 0 := by
  induction n generalizing p with
  | zero => exact h2
  | succ n ih =>
    have hsum (q : LadderPoint) : (doubleAndAdd 0 q).x3 * (doubleAndAdd 0 q).z3 = 0 := by simp [doubleAndAdd]
    cases hb : k.testBit n
    · exact ih (by rw [hb]; exact double_axis 0 h2) (by rw [hb]; exact hsum _)
    · exact ih (by rw [hb]; exact hsum _) (by rw [hb]; exact double_axis 0 (p := swapPoint true p) h3)

/-- Where the ladder ends with X·Z = 0 the result is 0. -/
theorem x25519_eq_zero {k : Nat} {u : ZMod Config.P} (h : (fieldLadderEnd u k).x2 * (fieldLadderEnd u k).z2 = 0) :
    x25519 k u = 0 := by
  have hexponent : Config.P - 2 = (Config.P - 3) + 1 := by decide
  rw [x25519, hexponent, pow_succ', ← mul_assoc, h, zero_mul]

theorem x25519_smallOrder {k : Nat} {u : ZMod Config.P} (hk : k.testBit 0 = false) (hu : u = 0 ∨ u = 1 ∨ u = -1) :
    x25519 k u = 0 := by
  apply x25519_eq_zero
  obtain rfl | rfl | rfl := hu
  · exact fieldLadder_axis_of_zero k _ (mul_zero 1) (zero_mul 1)
  · exact fieldLadderEnd_axis_of_sq_eq_one (one_pow 2) hk
  · exact fieldLadderEnd_axis_of_sq_eq_one neg_one_sq hk

/-- A clamped scalar is a multiple of 8, so it is even (42_ladder.md R170). -/
theorem testBit_zero_clampScalar (n : Bytes32) : (bytesValue (clampScalar n)).testBit 0 = false := by
  obtain ⟨-, -, hmod⟩ := bytesValue_clampScalar n
  rw [Nat.testBit_zero, decide_eq_false_iff_not]
  omega

/-- The bytes of 0 are zeros. -/
theorem eq_zero_of_bytesValue {b : Bytes32} (h : bytesValue b = 0) : b = .replicate 32 0 := by
  ext1 j hj
  have hdigit := bytesValue_digit b j hj
  rw [h, Nat.zero_div, Nat.zero_mod] at hdigit
  rw [Vector.getElem_replicate]
  exact BitVec.eq_of_toNat_eq hdigit.symm

/-! ## The printed examples (40_field_arith.md R124 to R130) -/

/-- Limb `j` of the register of an example. -/
def fe3Limb (lo mid hi : Word) (j : Fin 32) : Word := if j = 0 then lo else if j = 31 then hi else mid

theorem fe3_eq (lo mid hi : Word) : fe3 lo mid hi = .ofFn (fe3Limb lo mid hi) := rfl

/-- The product of two registers of that shape from their three words each, without reading a limb out of a register. -/
theorem feMult_fe3 (lo mid hi lo' mid' hi' : Word) :
    feMult (fe3 lo mid hi) (fe3 lo' mid' hi') =
      feSqueeze (.ofFn fun i => (List.finRange 32).foldl
        (fun u j => u + foldWeight Word i j * (fe3Limb lo mid hi j * fe3Limb lo' mid' hi' (i - j))) 0) := by
  simp only [feMult, convLimb, convTerm_eq, fe3_eq, limbs_ofFn]

/-! ## The statements -/

/-- Settles O38: the ladder over the point's bytes, the inversion, the product and the freeze, each in field terms. -/
theorem scalarMultComputesX25519 : Obligations.ScalarMultComputesX25519 := by
  unfold Obligations.ScalarMultComputesX25519
  exact fun s => ⟨smultEffect s, rfl, smultEffect_result s⟩

/-- Settles O40: over a point of small order the even clamped scalar ends the ladder with X·Z = 0. -/
theorem smallOrderPointsGiveZero : Obligations.SmallOrderPointsGiveZero := by
  unfold Obligations.SmallOrderPointsGiveZero
  intro s hpoint
  obtain ⟨hresult, hlt⟩ := smultEffect_result s
  rw [x25519_smallOrder (testBit_zero_clampScalar s.n) hpoint] at hresult
  have hdvd := (ZMod.natCast_eq_zero_iff _ _).mp hresult
  exact ⟨smultEffect s, rfl, eq_zero_of_bytesValue (Nat.eq_zero_of_dvd_of_lt hdvd hlt)⟩

/-- Settles O18: the functions are evaluated on the printed operands. -/
theorem fieldArithmeticExamples : Obligations.FieldArithmeticExamples := by
  unfold Obligations.FieldArithmeticExamples
  simp only [feSquare, feMult_fe3]
  decide +kernel

end Sys2Proof.Proofs.X25519
end
